-- ==== Sys2Proof/Word.lean ====
section
/-! DEFINITION. The words of the block, the two ring buffers' names, and the request record.

Widths: 00_scope.md R9. Nothing in the block is signed (R13). -/

namespace Sys2Proof

/-- The only data width of the memories and of the wire (20_memory.md R52). -/
abbrev Byte := BitVec 8

/-- `COUNT_W`: `count`, `payload_len`, `cursor`, `crc_acc`, `crc_in` (00_scope.md R9). -/
abbrev Half := BitVec 16

/-- `IDX_W`, `TICK_W`, `CB_W` and the operand word `arg` (00_scope.md R9, 30_encoding.md R82). -/
abbrev Word := BitVec 32

/-- The field `sel` of a ring-buffer primitive: 0 is `IN`, 1 is `OUT` (30_encoding.md R83). -/
inductive BufSel where
  | inbound
  | outbound
  deriving DecidableEq, Repr

/-- A request to the block, 30_encoding.md R82: the 8-bit operation code, the 32-bit operand word,
and the byte list that only `ENCODE_AND_ENQUEUE` uses. -/
structure Request where
  op   : Byte
  arg  : Word
  data : List Byte
  deriving DecidableEq, Repr

end Sys2Proof
end

