-- ==== Sys2Proof/Syntax.lean ====
section
/-! DEFINITION. The operations of the block as syntax, one constructor per row of
spec/opcode_table.json, in the table's order. Operand fields are those of 30_encoding.md R84, R86. -/

namespace Sys2Proof

/-- One operation with its operands. -/
inductive Instr where
  /-- `INIT`, 44_io_bridge.md R185. -/
  | init
  /-- `PROCESS_STEP`, 44_io_bridge.md R195. -/
  | processStep
  /-- `ON_BYTE_RECEIVED b`, 44_io_bridge.md R188. -/
  | onByteReceived (b : Byte)
  /-- `ON_TRANSMIT_READY`, 44_io_bridge.md R192. -/
  | onTransmitReady
  /-- `PUSH F, b`, 40_ring_buffer.md R100. -/
  | push (f : BufSel) (b : Byte)
  /-- `POP F`, 40_ring_buffer.md R103. -/
  | pop (f : BufSel)
  /-- `IS_FULL F`, 40_ring_buffer.md R106. -/
  | isFull (f : BufSel)
  /-- `IS_EMPTY F`, 40_ring_buffer.md R107. -/
  | isEmpty (f : BufSel)
  /-- `FLUSH F`, 40_ring_buffer.md R109. -/
  | flush (f : BufSel)
  /-- `FEED b`, 41_frame_parser.md R143. -/
  | feed (b : Byte)
  /-- `RESET`, 41_frame_parser.md R138. -/
  | reset
  /-- `ENCODE_AND_ENQUEUE func_code, payload` with the declared length `L`, 42_frame_encoder.md R152. -/
  | encodeAndEnqueue (funcCode : Byte) (len : Half) (payload : List Byte)
  /-- `ENQUEUE_BYTE b`, 42_frame_encoder.md R156. -/
  | enqueueByte (b : Byte)
  /-- `ENABLE tick_budget`, 43_timeout_supervisor.md R166. -/
  | enable (tickBudget : Word)
  /-- `DISABLE`, 43_timeout_supervisor.md R174. -/
  | disable
  /-- `TICK`, 43_timeout_supervisor.md R170. -/
  | tick
  /-- `ON_FRAME_START`, 43_timeout_supervisor.md R167. -/
  | onFrameStart
  /-- `SUP_STOP`, 43_timeout_supervisor.md R169. -/
  | supStop
  /-- `GET_FUNC_CODE`, 44_io_bridge.md R201. -/
  | getFuncCode
  /-- `GET_PAYLOAD_LEN`, 44_io_bridge.md R202. -/
  | getPayloadLen
  /-- `GET_PAYLOAD_BYTE i`, 44_io_bridge.md R203. -/
  | getPayloadByte (i : Half)
  deriving DecidableEq, Repr

end Sys2Proof
end

