-- ==== Sys2Proof/Decode.lean ====
section
/-! DEFINITION. From a request record to an operation and back (30_encoding.md R82 to R87). -/

namespace Sys2Proof

/-- Why a request names no operation. -/
inductive DecodeError where
  /-- The operation code is unassigned (30_encoding.md R87). -/
  | unassignedOp (op : Byte)
  deriving DecidableEq, Repr

/-- `arg[7:0]`, the operand byte (30_encoding.md R84, R86). -/
def Request.byteArg (r : Request) : Byte := r.arg.extractLsb' 0 8

/-- `arg[23:8]`, the payload length `L` of `ENCODE_AND_ENQUEUE` (30_encoding.md R84). -/
def Request.lenArg (r : Request) : Half := r.arg.extractLsb' 8 16

/-- `arg[15:0]`, the index `i` of `GET_PAYLOAD_BYTE` (30_encoding.md R84). -/
def Request.indexArg (r : Request) : Half := r.arg.extractLsb' 0 16

/-- `op[3]`, the field `sel` of unit 1: 0 is `IN`, 1 is `OUT` (30_encoding.md R83). -/
def Request.sel (r : Request) : BufSel := if r.op.getLsbD 3 then .outbound else .inbound

/-- One row of the operation table: the bits of `op` that are fixed, their values, and the operation
with its operands read from the request. -/
structure OpRow where
  mask  : Byte
  code  : Byte
  build : Request → Instr

/-- Unit 0, the bridge (30_encoding.md R83, R84). -/
def bridgeRows : List OpRow :=
  [ ⟨0xFF#8, 0x00#8, fun _ => .init⟩,
    ⟨0xFF#8, 0x01#8, fun _ => .processStep⟩,
    ⟨0xFF#8, 0x02#8, fun r => .onByteReceived r.byteArg⟩,
    ⟨0xFF#8, 0x03#8, fun _ => .onTransmitReady⟩ ]

/-- Unit 1, the ring buffers; `op[3]` is `sel` (30_encoding.md R83, R86). -/
def ringRows : List OpRow :=
  [ ⟨0xF7#8, 0x10#8, fun r => .push r.sel r.byteArg⟩,
    ⟨0xF7#8, 0x11#8, fun r => .pop r.sel⟩,
    ⟨0xF7#8, 0x12#8, fun r => .isFull r.sel⟩,
    ⟨0xF7#8, 0x13#8, fun r => .isEmpty r.sel⟩,
    ⟨0xF7#8, 0x14#8, fun r => .flush r.sel⟩ ]

/-- Unit 2, the parser (30_encoding.md R83, R86). -/
def parserRows : List OpRow :=
  [ ⟨0xFF#8, 0x20#8, fun r => .feed r.byteArg⟩,
    ⟨0xFF#8, 0x21#8, fun _ => .reset⟩ ]

/-- Unit 3, the encoder (30_encoding.md R83, R84). -/
def encoderRows : List OpRow :=
  [ ⟨0xFF#8, 0x30#8, fun r => .encodeAndEnqueue r.byteArg r.lenArg r.data⟩,
    ⟨0xFF#8, 0x31#8, fun r => .enqueueByte r.byteArg⟩ ]

/-- Unit 4, the supervisor (30_encoding.md R83, R84, R86). -/
def supervisorRows : List OpRow :=
  [ ⟨0xFF#8, 0x40#8, fun r => .enable r.arg⟩,
    ⟨0xFF#8, 0x41#8, fun _ => .disable⟩,
    ⟨0xFF#8, 0x42#8, fun _ => .tick⟩,
    ⟨0xFF#8, 0x43#8, fun _ => .onFrameStart⟩,
    ⟨0xFF#8, 0x44#8, fun _ => .supStop⟩ ]

/-- Unit 5, the accessors (30_encoding.md R83, R84). -/
def accessorRows : List OpRow :=
  [ ⟨0xFF#8, 0x50#8, fun _ => .getFuncCode⟩,
    ⟨0xFF#8, 0x51#8, fun _ => .getPayloadLen⟩,
    ⟨0xFF#8, 0x52#8, fun r => .getPayloadByte r.indexArg⟩ ]

/-- The whole operation table. -/
def opTable : List OpRow :=
  bridgeRows ++ ringRows ++ parserRows ++ encoderRows ++ supervisorRows ++ accessorRows

/-- Whether an operation code is the row's. -/
def OpRow.covers (row : OpRow) (op : Byte) : Bool := op &&& row.mask == row.code

/-- The operation a request names. Bits of `arg` and bytes of `data` that the operation does not use
are ignored (30_encoding.md R82; for `data`, DEDUCED, log entry 11). -/
def decode (r : Request) : Except DecodeError Instr :=
  match opTable.find? (fun row => row.covers r.op) with
  | some row => .ok (row.build r)
  | none => .error (.unassignedOp r.op)

/-- The code of a ring-buffer primitive on buffer `f` (30_encoding.md R83, R86). -/
def selOp (code : Byte) : BufSel → Byte
  | .inbound => code
  | .outbound => code ||| 0x08#8

/-- The operand word of `ENCODE_AND_ENQUEUE`: `arg[7:0]` the function code, `arg[23:8]` the length. -/
def encodeArg (funcCode : Byte) (len : Half) : Word :=
  (len.setWidth 32 <<< 8) ||| funcCode.setWidth 32

/-- The request of an operation, unused bits 0 and unused data empty (30_encoding.md R84, R86). -/
def encode : Instr → Request
  | .init => ⟨0x00#8, 0#32, []⟩
  | .processStep => ⟨0x01#8, 0#32, []⟩
  | .onByteReceived b => ⟨0x02#8, b.setWidth 32, []⟩
  | .onTransmitReady => ⟨0x03#8, 0#32, []⟩
  | .push f b => ⟨selOp 0x10#8 f, b.setWidth 32, []⟩
  | .pop f => ⟨selOp 0x11#8 f, 0#32, []⟩
  | .isFull f => ⟨selOp 0x12#8 f, 0#32, []⟩
  | .isEmpty f => ⟨selOp 0x13#8 f, 0#32, []⟩
  | .flush f => ⟨selOp 0x14#8 f, 0#32, []⟩
  | .feed b => ⟨0x20#8, b.setWidth 32, []⟩
  | .reset => ⟨0x21#8, 0#32, []⟩
  | .encodeAndEnqueue funcCode len payload => ⟨0x30#8, encodeArg funcCode len, payload⟩
  | .enqueueByte b => ⟨0x31#8, b.setWidth 32, []⟩
  | .enable tickBudget => ⟨0x40#8, tickBudget, []⟩
  | .disable => ⟨0x41#8, 0#32, []⟩
  | .tick => ⟨0x42#8, 0#32, []⟩
  | .onFrameStart => ⟨0x43#8, 0#32, []⟩
  | .supStop => ⟨0x44#8, 0#32, []⟩
  | .getFuncCode => ⟨0x50#8, 0#32, []⟩
  | .getPayloadLen => ⟨0x51#8, 0#32, []⟩
  | .getPayloadByte i => ⟨0x52#8, i.setWidth 32, []⟩

/-- The bytes of `data` that lie above `op` and `arg` when a request is laid out as one number. -/
def dataBytes (n w : Nat) : List Byte :=
  (List.range n).map fun k => BitVec.ofNat 8 (w >>> (40 + 8 * k))

/-- The request whose bits are `w`: bits 7..0 are `op`, bits 39..8 are `arg`, and for
`ENCODE_AND_ENQUEUE` the `L` bytes of `data` follow from bit 40 up. DESIGN CHOICE, safe: the spec
gives the request as a record and no linear layout (log entry 10). Bits from `nbits` up are 0. -/
def requestOfBits (nbits w : Nat) : Request :=
  let v := w % 2 ^ nbits
  let r : Request := ⟨BitVec.ofNat 8 v, BitVec.ofNat 32 (v >>> 8), []⟩
  if r.op = 0x30#8 then { r with data := dataBytes r.lenArg.toNat v } else r

/-- The operation the decoder reads from an instruction whose bits are `w`. -/
def decodeTableWord (nbits w : Nat) : Option Instr :=
  (decode (requestOfBits nbits w)).toOption

end Sys2Proof
end

