-- ==== Sys2Proof/Config.lean ====
section
/-! DEFINITION. The parameters of one instance of the block (00_scope.md R9) and its fixed sizes. -/

namespace Sys2Proof

/-- The parameters a model takes as arguments: fixed when the instance is built, never changed
afterwards (00_scope.md R9). A machine state carries them, and no step writes them. -/
structure Config where
  /-- `CAP_IN`, declared capacity of the inbound ring buffer. -/
  capIn       : Word
  /-- `CAP_OUT`, declared capacity of the outbound ring buffer. -/
  capOut      : Word
  /-- `TX_INT_AT_INIT`, the transport's transmit-interrupt enable when `INIT` runs. -/
  txIntAtInit : Bool
  deriving DecidableEq, Repr

/-- An instance exists only with both capacities at least 2 (00_scope.md R10). The upper bound
`2^32 - 1` holds of every 32-bit word. -/
def Config.valid (c : Config) : Bool :=
  decide (2 ≤ c.capIn.toNat) && decide (2 ≤ c.capOut.toNat)

/-- The parameters of `State.reset`. DESIGN CHOICE, unsafe for a claim about `State.reset` alone: the
spec leaves the three open (log entry 3). -/
def Config.standard : Config := { capIn := 16#32, capOut := 16#32, txIntAtInit := false }

/-- `PAYLOAD_RAM_SIZE`, the size of `PARSER.pbuf` in bytes (00_scope.md R9, 10_state.md R41). -/
def Config.payloadRamSize : Nat := 65535

/-- The longest payload the encoder takes (42_frame_encoder.md R155). -/
def Config.maxPayload : Nat := 65532

end Sys2Proof
end

