-- ==== Sys2Proof/Machine/State.lean ====
section
/-! DEFINITION. The state of the block as plain data, the outcomes of a step, and the reset state.

Every register of 10_state.md R20, every memory of R41 and both in-flight records of R37 have a field.
The parameters (R9) ride along in `cfg`. `sched`, `issuer` and `answers` are the model's own: they carry
the inputs of the step relation (20_memory.md R58) and the responses (30_encoding.md R82). -/

namespace Sys2Proof.Machine

/-- The agents that take steps (00_scope.md R11) and the bench of one component modelled alone, which
issues the primitives (00_scope.md R12, D32; log entry 7). -/
inductive Agent where
  | isr
  | poll
  | callback
  | component
  deriving DecidableEq, Repr

/-- The statuses, 30_encoding.md R90. -/
inductive Status where
  | ok
  | inProgress
  | parsed
  | byteCountError
  | crcError
  | fifoFull
  | fifoEmpty
  | outFifoEmpty
  | full
  | empty
  deriving DecidableEq, Repr

/-- A response `{status, value}` (30_encoding.md R82, R91) with the agent it is given to. -/
structure Answer where
  agent  : Agent
  status : Status
  value  : Word
  deriving DecidableEq, Repr

/-- The output signals, 00_scope.md R17 and 60_exceptions.md R226. -/
inductive Signal where
  | send (b : Byte)
  | txIntEnable
  | txIntDisable
  | timerStart
  | timerStop
  deriving DecidableEq, Repr

/-- The three byte memories, 10_state.md R41: three separate index spaces. -/
inductive MemId where
  | inBuf
  | outBuf
  | pbuf
  deriving DecidableEq, Repr

/-- A byte memory: the bytes that hold a value, as index and byte, indices strictly rising
(`Memory.wf`). An unlisted index holds no value (10_state.md R42, R43; log entry 5). -/
abbrev Memory := List Host.Cell

/-- A ring buffer, 10_state.md R20, R21. Its declared capacity is a parameter (`Config`). -/
structure Ring where
  rd  : Word
  wr  : Word
  buf : Memory
  deriving DecidableEq, Repr

/-- The states of the parser, in the source's order (10_state.md R24). -/
inductive ParserState where
  | awaitCountLow
  | awaitCountHigh
  | awaitFuncCode
  | awaitPayload
  | awaitCrcLow
  | awaitCrcHigh
  | complete
  deriving DecidableEq, Repr

/-- The parser's registers and its payload memory (10_state.md R20, R41). -/
structure FrameParser where
  st         : ParserState
  countLo    : Byte
  count      : Half
  payloadLen : Half
  funcCode   : Byte
  cursor     : Half
  crcAcc     : Half
  crcInLo    : Byte
  crcIn      : Half
  pbufLive   : Bool
  pbuf       : Memory
  deriving DecidableEq, Repr

/-- The supervisor's registers (10_state.md R20, R34). -/
structure Supervisor where
  armed      : Bool
  tickBudget : Word
  tickCount  : Word
  running    : Bool
  deriving DecidableEq, Repr

/-- The bridge's own bits (10_state.md R35, R39). -/
structure Bridge where
  txIntEn : Bool
  inited  : Bool
  deriving DecidableEq, Repr

/-- The result of a `PUSH` that an operation in flight remembers (40_ring_buffer.md R100). -/
inductive PushStatus where
  | ok
  | full
  deriving DecidableEq, Repr

/-- The in-flight record of an enqueue operation (10_state.md R37). -/
inductive EnqRecord where
  /-- `Encode(i, bytes, failed)`: the whole frame, the index of the next byte to push, and whether a
  push returned `Full`. -/
  | encode (i : Nat) (bytes : List Byte) (failed : Bool)
  /-- `EnqueueByte.pushed(s)`. -/
  | enqueueByte (s : PushStatus)
  deriving DecidableEq, Repr

/-- The in-flight record of the poll context (10_state.md R37). -/
inductive PollRecord where
  /-- `ProcessStep.popped(b)`. -/
  | popped (b : Byte)
  /-- `ProcessStep.in_callback`. -/
  | inCallback
  /-- The same for a `FEED` issued alone (41_frame_parser.md R133, R143; DESIGN CHOICE, log entry 8). -/
  | feedInCallback
  /-- An enqueue operation of the poll context. -/
  | enq (e : EnqRecord)
  deriving DecidableEq, Repr

/-- One input of the step relation (20_memory.md R58): which agent steps next and with what. -/
inductive Move where
  /-- Agent `a` issues a new operation and its first step is taken. -/
  | issue (a : Agent) (r : Request)
  /-- The poll context's operation in flight takes its next step. -/
  | resumePoll
  /-- The callback's own operation in flight takes its next step. -/
  | resumeCallback
  /-- The callback returns `r` (44_io_bridge.md R199). -/
  | callbackReturn (r : Word)
  deriving DecidableEq, Repr

/-- Why the machine stops with a fault. The block has no fault of its own (60_exceptions.md R210); both
are safe, and neither is reached from the reset state. -/
inductive Fault where
  /-- Raised by a read of a byte that holds no value (10_state.md R42, R43). Safe. -/
  | noValue (m : MemId) (i : Nat)
  /-- Raised by an access at an index outside the memory (20_memory.md R55). Safe. -/
  | noSuchIndex (m : MemId) (i : Nat)
  deriving DecidableEq, Repr

/-- Why a step has no meaning. All are the spec's own "refused" but `notModelled`, `callbackRunning`,
`callbackBusy` and `nothingInFlight`, which say that a schedule is no execution (20_memory.md R58). -/
inductive Refusal where
  /-- Raised by `exec` for an instruction that has no meaning yet. Safe. -/
  | notModelled (mnemonic : String)
  /-- Raised by `step` for an unassigned operation code (30_encoding.md R87). Safe. -/
  | unassignedOp (op : Byte)
  /-- Raised by every operation when a capacity is below 2 (00_scope.md R10). Safe. -/
  | noSuchInstance
  /-- Raised by an operation issued by the wrong agent (30_encoding.md R88). Safe. -/
  | wrongAgent (a : Agent)
  /-- Raised by every operation but `INIT` before `INIT` (10_state.md R39). Safe. -/
  | notInitialised
  /-- Raised by a second `INIT` (44_io_bridge.md R187). Safe. -/
  | alreadyInitialised
  /-- Raised by a poll operation (20_memory.md R68) or a `FEED` issued alone (10_state.md R37, log entry 7)
  while a poll operation is in flight. Safe. -/
  | pollBusy
  /-- Raised by an operation or the return of the callback while no callback runs, and by an accessor
  whenever the parser is not in `Complete` (44_io_bridge.md R200, R204). Safe. -/
  | outsideCallback
  /-- Raised by an operation or the return of the callback while its own enqueue is in flight
  (10_state.md R37, 00_scope.md R11). Safe. -/
  | callbackBusy
  /-- Raised by `resumePoll` while the poll operation waits for the callback (20_memory.md R60). Safe. -/
  | callbackRunning
  /-- Raised by a resuming move with no operation in flight (20_memory.md R58). Safe. -/
  | nothingInFlight
  /-- Raised by `ON_TRANSMIT_READY` with `tx_int_en = 0` (60_exceptions.md R218). Unsafe for a transport
  that fires a stale interrupt, as R218 says (log entry 13). -/
  | transmitInterruptOff
  /-- Raised by `ENCODE_AND_ENQUEUE` with `L > 65532` (42_frame_encoder.md R155). Safe. -/
  | payloadTooLong
  /-- Raised by `ENCODE_AND_ENQUEUE` with a `data` list of another length than `L` (R155). Safe. -/
  | payloadLengthMismatch
  /-- Raised by `GET_PAYLOAD_BYTE i` with `i ≥ payload_len` (44_io_bridge.md R203). Safe. -/
  | payloadIndexOutOfRange
  /-- Raised by a `FEED` in state `Complete` (41_frame_parser.md R135). Safe. -/
  | feedInComplete
  deriving DecidableEq, Repr

/-- The outcome of a step or of a meaning. -/
abbrev Result (σ : Type) := Host.Outcome σ Fault Refusal

/-- The whole state. -/
structure State where
  /-- The instance's parameters (00_scope.md R9); no step writes them. -/
  cfg        : Config
  /-- `IN` (10_state.md R20, R21). -/
  inbound    : Ring
  /-- `OUT`. -/
  outbound   : Ring
  /-- `PARSER`. -/
  parser     : FrameParser
  /-- `SUP`. -/
  sup        : Supervisor
  /-- `BRIDGE`. -/
  bridge     : Bridge
  /-- The poll context's operation in flight (10_state.md R37). -/
  pollFlight : Option PollRecord
  /-- The callback's own operation in flight (10_state.md R37, 44_io_bridge.md R200). -/
  cbFlight   : Option EnqRecord
  /-- MODEL: the agent whose step is being taken (20_memory.md R58; log entry 1). -/
  issuer     : Agent
  /-- MODEL: the moves the environment will make (20_memory.md R58; log entry 1). -/
  sched      : List Move
  /-- The output trace, oldest first (00_scope.md R17). -/
  trace      : List Signal
  /-- MODEL: the responses given, oldest first (30_encoding.md R82; log entry 6). -/
  answers    : List Answer
  deriving DecidableEq, Repr

/-- The flushed ring buffer, every byte without value (10_state.md R45). -/
def Ring.initial : Ring := { rd := 0#32, wr := 1#32, buf := [] }

/-- The parser after `RESET` (41_frame_parser.md R138, 10_state.md R45). -/
def FrameParser.initial : FrameParser :=
  { st := .awaitCountLow, countLo := 0#8, count := 0#16, payloadLen := 0#16, funcCode := 0#8,
    cursor := 0#16, crcAcc := 0xFFFF#16, crcInLo := 0#8, crcIn := 0#16, pbufLive := false, pbuf := [] }

/-- The supervisor after `INIT`: disarmed, stopped, zeroed (10_state.md R45). -/
def Supervisor.initial : Supervisor :=
  { armed := false, tickBudget := 0#32, tickCount := 0#32, running := false }

/-- The state that `INIT` leaves in an instance with parameters `c` (10_state.md R45), with nothing
scheduled, emitted or answered (log entries 1, 2, 6). -/
def State.resetWith (c : Config) : State :=
  { cfg := c, inbound := .initial, outbound := .initial, parser := .initial, sup := .initial,
    bridge := { txIntEn := c.txIntAtInit, inited := true }, pollFlight := none, cbFlight := none,
    issuer := .poll, sched := [], trace := [], answers := [] }

/-- The state after reset: `INIT` is the block's reset (10_state.md R45, 70_reset_and_hazards.md R240),
here of an instance with the parameters `Config.standard` (log entry 3). -/
def State.reset : State := State.resetWith Config.standard

end Sys2Proof.Machine
end

