-- ==== Sys2Proof/Machine/Ops.lean ====
section
/-! DEFINITION. The named operations over memories, ring buffers, signals and responses, and the two
common tails: `TERMINATE` (the block's recovery, in the place of an exception entry, which it does not
have: 60_exceptions.md R223) and the end of an enqueue operation. -/

namespace Sys2Proof.Machine

/-- The byte at index `i`, if it holds a value. -/
def Memory.read : Memory → Nat → Option Byte
  | [], _ => none
  | (k, v) :: rest, i => if i = k then some v else Memory.read rest i

/-- Store `b` at index `i`, keeping the indices strictly rising. -/
def Memory.write : Memory → Nat → Byte → Memory
  | [], i, b => [(i, b)]
  | (k, v) :: rest, i, b =>
    if i < k then (i, b) :: (k, v) :: rest
    else if i = k then (i, b) :: rest
    else (k, v) :: Memory.write rest i b

/-- The canonical form of a memory of `size` bytes: indices strictly rising and inside the memory. An
unlisted index holds no value, so no listed byte can equal what an unlisted one reads as. -/
abbrev Memory.wf (m : Memory) (size : Nat) : Prop :=
  m.Pairwise (fun x y => x.1 < y.1) ∧ ∀ c ∈ m, c.1 < size

/-- `MemRead(M, i, 1)`, 00_scope.md R15, for a memory of `size` bytes. -/
def memRead (id : MemId) (size : Nat) (m : Memory) (i : Nat) : Except Fault Byte :=
  if i < size then
    match m.read i with
    | some b => .ok b
    | none => .error (.noValue id i)
  else .error (.noSuchIndex id i)

/-- `MemWrite(M, i, 1, b)`, 00_scope.md R15, for a memory of `size` bytes. -/
def memWrite (id : MemId) (size : Nat) (m : Memory) (i : Nat) (b : Byte) : Except Fault Memory :=
  if i < size then .ok (m.write i b) else .error (.noSuchIndex id i)

/-- `(x + 1) mod C`, 40_ring_buffer.md R116. -/
def nextIndex (c x : Word) : Word := BitVec.ofNat 32 ((x.toNat + 1) % c.toNat)

/-- `F.wr == F.rd`, the full test of 40_ring_buffer.md R100, R106, R111. -/
def Ring.isFull (f : Ring) : Bool := f.wr == f.rd

/-- `(F.rd + 1) mod C == F.wr`, the empty test of 40_ring_buffer.md R103, R107. -/
def Ring.isEmpty (c : Word) (f : Ring) : Bool := nextIndex c f.rd == f.wr

/-- `n(F) = (F.wr − F.rd − 1) mod C`, the number of live bytes (10_state.md R23). -/
def Ring.live (c : Word) (f : Ring) : Nat :=
  (f.wr.toNat + (c.toNat - 1 - f.rd.toNat)) % c.toNat

/-- The index of the `k`-th live byte, oldest first: `(F.rd + 1 + k) mod C` (10_state.md R23). -/
def Ring.liveIndex (c : Word) (f : Ring) (k : Nat) : Nat := (f.rd.toNat + 1 + k) % c.toNat

/-- The live bytes, oldest first (10_state.md R23). -/
def Ring.contents (c : Word) (f : Ring) : List Byte :=
  (List.range (f.live c)).filterMap fun k => f.buf.read (f.liveIndex c k)

/-- `PUSH` on one ring buffer, 40_ring_buffer.md R100: `none` is `Full`. -/
def Ring.push (id : MemId) (c : Word) (b : Byte) (f : Ring) : Except Fault (Option Ring) :=
  if f.isFull then .ok none
  else
    match memWrite id c.toNat f.buf f.wr.toNat b with
    | .ok m => .ok (some { f with buf := m, wr := nextIndex c f.wr })
    | .error e => .error e

/-- `POP` on one ring buffer, 40_ring_buffer.md R103, R105: advance, then read at the new index.
`none` is `Empty`. -/
def Ring.pop (id : MemId) (c : Word) (f : Ring) : Except Fault (Option (Byte × Ring)) :=
  if f.isEmpty c then .ok none
  else
    match memRead id c.toNat f.buf (nextIndex c f.rd).toNat with
    | .ok b => .ok (some (b, { f with rd := nextIndex c f.rd }))
    | .error e => .error e

/-- `FLUSH` on one ring buffer, 40_ring_buffer.md R109, R110: the array is not written. -/
def Ring.flush (f : Ring) : Ring := { f with rd := 0#32, wr := 1#32 }

/-- The buffer that `sel` picks (30_encoding.md R83). -/
def State.ring (s : State) : BufSel → Ring
  | .inbound => s.inbound
  | .outbound => s.outbound

/-- Write the buffer that `sel` picks. -/
def State.setRing (s : State) (f : BufSel) (r : Ring) : State :=
  match f with
  | .inbound => { s with inbound := r }
  | .outbound => { s with outbound := r }

/-- The declared capacity of the buffer that `sel` picks (10_state.md R21). -/
def State.cap (s : State) : BufSel → Word
  | .inbound => s.cfg.capIn
  | .outbound => s.cfg.capOut

/-- The memory of the buffer that `sel` picks (10_state.md R41). -/
def bufMem : BufSel → MemId
  | .inbound => .inBuf
  | .outbound => .outBuf

/-- The byte that memory `m` holds at index `i`, if it holds a value there. -/
def State.byteAt (s : State) (m : MemId) (i : Nat) : Option Byte :=
  match m with
  | .inBuf => s.inbound.buf.read i
  | .outBuf => s.outbound.buf.read i
  | .pbuf => s.parser.pbuf.read i

/-- `PUSH F, b` on the state: `none` is `Full`, which changes nothing (40_ring_buffer.md R101). -/
def State.pushOn (f : BufSel) (b : Byte) (s : State) : Except Fault (Option State) :=
  match (s.ring f).push (bufMem f) (s.cap f) b with
  | .ok (some r) => .ok (some (s.setRing f r))
  | .ok none => .ok none
  | .error e => .error e

/-- `POP F` on the state: `none` is `Empty`, which changes nothing (40_ring_buffer.md R104). -/
def State.popOn (f : BufSel) (s : State) : Except Fault (Option (Byte × State)) :=
  match (s.ring f).pop (bufMem f) (s.cap f) with
  | .ok (some (b, r)) => .ok (some (b, s.setRing f r))
  | .ok none => .ok none
  | .error e => .error e

/-- `emit <signal>`, 00_scope.md R17. -/
def State.emit (x : Signal) (s : State) : State := { s with trace := s.trace ++ [x] }

/-- `return <Status>(value)` of a whole operation to the agent that issued it (00_scope.md R16). -/
def State.answer (a : Agent) (st : Status) (v : Word) (s : State) : State :=
  { s with answers := s.answers ++ [⟨a, st, v⟩] }

/-- `ON_FRAME_START`, 43_timeout_supervisor.md R167. -/
def State.frameStart (s : State) : State :=
  let t := if s.sup.running then s
    else State.emit .timerStart { s with sup := { s.sup with running := true } }
  { t with sup := { t.sup with tickCount := 0#32 } }

/-- `SUP_STOP`, 43_timeout_supervisor.md R169. -/
def State.supStop (s : State) : State :=
  if s.sup.running then State.emit .timerStop { s with sup := { s.sup with running := false } }
  else s

/-- `RESET`, 41_frame_parser.md R138: every byte of `pbuf` loses its value. -/
def State.parserReset (s : State) : State := { s with parser := FrameParser.initial }

/-- `TERMINATE`, the common tail of the terminal outcomes: `RESET`, then `SUP_STOP`
(41_frame_parser.md R136, 60_exceptions.md R223). -/
def State.terminate (s : State) : State := s.parserReset.supStop

/-- Whether the callback runs: an operation waits for its return (10_state.md R37, 44_io_bridge.md R199). -/
def State.callbackRuns (s : State) : Bool :=
  s.pollFlight == some .inCallback || s.pollFlight == some .feedInCallback

/-- Whether the callback runs and its frame can be read: the parser is in `Complete`
(41_frame_parser.md R137, 44_io_bridge.md R204). -/
def State.frameReadable (s : State) : Bool := s.parser.st == .complete && s.callbackRuns

/-- Write the enqueue record of the agent that owns it (10_state.md R37). -/
def State.setEnq (a : Agent) (e : Option EnqRecord) (s : State) : State :=
  if a = .callback then { s with cbFlight := e } else { s with pollFlight := e.map .enq }

/-- The last step of an enqueue operation: emit `tx_int_enable`, set the copy, end the operation
(42_frame_encoder.md R152, R154, R156). -/
def State.finishEnq (a : Agent) (st : Status) (s : State) : State :=
  State.answer a st 0#32
    (State.setEnq a none
      (State.emit .txIntEnable { s with bridge := { s.bridge with txIntEn := true } }))

/-- Refuse if the gate names a reason, else go on. -/
def guarded (gate : Option Refusal) (go : Result State) : Result State :=
  match gate with
  | some r => .refused r
  | none => go

end Sys2Proof.Machine
end

