-- ==== Sys2Proof/Machine/Gates.lean ====
section
/-! DEFINITION. When an operation may be issued: the refusals of 10_state.md R39, 00_scope.md R10,
30_encoding.md R88, 20_memory.md R68, 44_io_bridge.md R200, R204 and 60_exceptions.md R218. A gate names the
refusal, or `none` where the operation may be issued. Where several refusals hold at once the spec does not
say which is reported: the order below is a DESIGN CHOICE, safe (log entry 9). -/

namespace Sys2Proof.Machine

/-- What every operation but `INIT` needs: an instance with legal capacities (00_scope.md R10), the
agent the operation belongs to (30_encoding.md R88), and `INIT` done (10_state.md R39). -/
def agentGate (a : Agent) (s : State) : Option Refusal :=
  if s.cfg.valid = false then some .noSuchInstance
  else if s.issuer ≠ a then some (.wrongAgent s.issuer)
  else if s.bridge.inited = false then some .notInitialised
  else none

/-- `INIT` is issued once, by the poll context, as the first operation (44_io_bridge.md R187). -/
def initGate (s : State) : Option Refusal :=
  if s.cfg.valid = false then some .noSuchInstance
  else if s.issuer ≠ .poll then some (.wrongAgent s.issuer)
  else if s.bridge.inited then some .alreadyInitialised
  else none

/-- A poll operation needs no poll operation in flight (20_memory.md R68). -/
def pollGate (s : State) : Option Refusal :=
  match agentGate .poll s with
  | some r => some r
  | none => if s.pollFlight.isSome then some .pollBusy else none

/-- An interrupt operation may be issued before and after any step (20_memory.md R68). -/
def isrGate (s : State) : Option Refusal := agentGate .isr s

/-- `ON_TRANSMIT_READY` is issued only with `tx_int_en = 1` (60_exceptions.md R218). -/
def transmitGate (s : State) : Option Refusal :=
  match isrGate s with
  | some r => some r
  | none => if s.bridge.txIntEn then none else some .transmitInterruptOff

/-- An enqueue operation of the callback needs the callback to run and no enqueue of its own in flight
(44_io_bridge.md R200, 10_state.md R37). -/
def callbackGate (s : State) : Option Refusal :=
  match agentGate .callback s with
  | some r => some r
  | none =>
    if s.callbackRuns = false then some .outsideCallback
    else if s.cbFlight.isSome then some .callbackBusy
    else none

/-- An accessor needs, besides that, the parser to be in `Complete` (44_io_bridge.md R204). It is not where
a `RESET` issued alone has taken the frame away while the callback runs (DESIGN CHOICE, log entry 25). -/
def accessorGate (s : State) : Option Refusal :=
  match agentGate .callback s with
  | some r => some r
  | none =>
    if s.frameReadable = false then some .outsideCallback
    else if s.cbFlight.isSome then some .callbackBusy
    else none

/-- The enqueue operations are issued by the poll context or by the callback (44_io_bridge.md R200). -/
def enqueueGate (s : State) : Option Refusal :=
  if s.issuer = .callback then callbackGate s else pollGate s

/-- A primitive is issued by the bench of one component (00_scope.md R12, 30_encoding.md R86, R88), in any
state of any component (41_frame_parser.md R138; DESIGN CHOICE, log entry 7). -/
def primitiveGate (s : State) : Option Refusal := agentGate .component s

/-- `FEED` is refused on `Complete` (41_frame_parser.md R135). It also needs no poll operation in flight,
because it may have to wait for the callback and there is at most one record (10_state.md R37; log entry 7). -/
def feedGate (s : State) : Option Refusal :=
  match primitiveGate s with
  | some r => some r
  | none =>
    if s.parser.st = .complete then some .feedInComplete
    else if s.pollFlight.isSome then some .pollBusy
    else none

/-- A resuming move needs an instance with legal capacities (00_scope.md R10). It does not look at `inited`:
the spec has no record in flight before `INIT` and gives no such step, and a state that holds one takes it
(DESIGN CHOICE, safe, log entry 21). -/
def flightGate (s : State) : Option Refusal :=
  if s.cfg.valid = false then some .noSuchInstance else none

/-- The callback returns only while it runs and with no enqueue of its own in flight
(44_io_bridge.md R199, 10_state.md R37). As for `flightGate`, `inited` is not looked at (DESIGN CHOICE, safe,
log entry 21). -/
def returnGate (s : State) : Option Refusal :=
  if s.cfg.valid = false then some .noSuchInstance
  else if s.callbackRuns = false then some .outsideCallback
  else if s.cbFlight.isSome then some .callbackBusy
  else none

end Sys2Proof.Machine
end

