-- ==== Sys2Proof/Machine/Operands.lean ====
section
/-! DEFINITION. Field assembly (30_encoding.md R77), the CRC16 (41_frame_parser.md R121, R122) and the
frame as a byte list (42_frame_encoder.md R151). -/

namespace Sys2Proof.Machine

/-- `{hi, lo}`: a 16-bit value from two bytes (30_encoding.md R77). -/
def joinBytes (hi lo : Byte) : Half := hi ++ lo

/-- `v[7:0]`. -/
def lowByte (v : Half) : Byte := v.extractLsb' 0 8

/-- `v[15:8]`. -/
def highByte (v : Half) : Byte := v.extractLsb' 8 8

/-- `count −_16 3`, 30_encoding.md R77, R79: the subtraction wraps. -/
def payloadLenOf (count : Half) : Half := count - 3#16

/-- One of the eight iterations of `crc16_step` (41_frame_parser.md R121). -/
def crcShift (c : Half) : Half :=
  if c.getLsbD 0 then (c >>> 1) ^^^ 0xA001#16 else c >>> 1

/-- `crc16_step(acc, b)`, 41_frame_parser.md R121. -/
def crcStep (acc : Half) (b : Byte) : Half :=
  let c := acc ^^^ b.setWidth 16
  crcShift (crcShift (crcShift (crcShift (crcShift (crcShift (crcShift (crcShift c)))))))

/-- The accumulator after folding a list of bytes in order. -/
def crcFold (acc : Half) (bytes : List Byte) : Half := bytes.foldl crcStep acc

/-- `crc16(bytes)`, 41_frame_parser.md R122: seed 0xFFFF, no final exclusive-or. -/
def crc16 (bytes : List Byte) : Half := crcFold 0xFFFF#16 bytes

/-- ByteCount of a payload of `n` bytes, `3 + L` (30_encoding.md R71). -/
def byteCountOf (n : Nat) : Half := BitVec.ofNat 16 (3 + n)

/-- `frame_bytes(func_code, payload)`, 42_frame_encoder.md R151. -/
def frameBytes (funcCode : Byte) (payload : List Byte) : List Byte :=
  [lowByte (byteCountOf payload.length), highByte (byteCountOf payload.length), funcCode] ++ payload ++
    [lowByte (crc16 (funcCode :: payload)), highByte (crc16 (funcCode :: payload))]

/-- A byte as a response value, `zext_32` (40_ring_buffer.md R103). -/
def byteValue (b : Byte) : Word := b.setWidth 32

/-- A 16-bit value as a response value, `zext_32` (44_io_bridge.md R202). -/
def halfValue (v : Half) : Word := v.setWidth 32

end Sys2Proof.Machine
end

