-- ==== Sys2Proof/Machine/Accessors.lean ====
section
/-! DEFINITION. The read-only accessors of the callback (44_io_bridge.md R201 to R204). -/

namespace Sys2Proof.Machine

/-- `GET_FUNC_CODE`, 44_io_bridge.md R201. -/
def execGetFuncCode (s : State) : Result State :=
  guarded (accessorGate s) (.next (s.answer .callback .ok (byteValue s.parser.funcCode)))

/-- `GET_PAYLOAD_LEN`, 44_io_bridge.md R202. -/
def execGetPayloadLen (s : State) : Result State :=
  guarded (accessorGate s) (.next (s.answer .callback .ok (halfValue s.parser.payloadLen)))

/-- `GET_PAYLOAD_BYTE i`, 44_io_bridge.md R203. -/
def execGetPayloadByte (i : Half) (s : State) : Result State :=
  guarded (accessorGate s)
    (if s.parser.payloadLen.toNat ≤ i.toNat then .refused .payloadIndexOutOfRange
     else
       match memRead .pbuf Config.payloadRamSize s.parser.pbuf i.toNat with
       | .ok b => .next (s.answer .callback .ok (byteValue b))
       | .error e => .fault e)

end Sys2Proof.Machine
end

