-- ==== Sys2Proof/Machine/Parser.lean ====
section
/-! DEFINITION. The frame parser: `FEED` state by state and `RESET` (41_frame_parser.md). -/

namespace Sys2Proof.Machine

/-- What `FEED` finds, before the common tail (41_frame_parser.md R143). -/
inductive FeedResult where
  /-- The byte was taken; the frame is not complete. -/
  | inProgress (p : FrameParser)
  /-- ByteCount was 0 (R125). -/
  | byteCountError (p : FrameParser)
  /-- The received CRC differs (R132). -/
  | crcError (p : FrameParser)
  /-- The received CRC matches: the parser is in `Complete` and the callback is called (R133). -/
  | crcMatch (p : FrameParser)
  /-- The payload store fell outside the memory: unreachable (20_memory.md R55). -/
  | fault (e : Fault)
  /-- `FEED` on `Complete` is refused (R135). -/
  | inComplete
  deriving DecidableEq, Repr

/-- `FEED b` in `AwaitCountLow`, 41_frame_parser.md R124. -/
def FrameParser.feedCountLow (b : Byte) (p : FrameParser) : FeedResult :=
  .inProgress { p with countLo := b, st := .awaitCountHigh }

/-- `FEED b` in `AwaitCountHigh`, 41_frame_parser.md R125, R126. -/
def FrameParser.feedCountHigh (b : Byte) (p : FrameParser) : FeedResult :=
  let count := joinBytes b p.countLo
  if count = 0#16 then .byteCountError { p with count := count }
  else .inProgress { p with count := count, payloadLen := payloadLenOf count, st := .awaitFuncCode }

/-- `FEED b` in `AwaitFuncCode`, 41_frame_parser.md R127, R128. -/
def FrameParser.feedFuncCode (b : Byte) (p : FrameParser) : FeedResult :=
  let q := { p with funcCode := b, crcAcc := crcStep p.crcAcc b }
  if p.payloadLen = 0#16 then .inProgress { q with st := .awaitCrcLow }
  else .inProgress { q with pbufLive := true, st := .awaitPayload }

/-- `FEED b` in `AwaitPayload`, 41_frame_parser.md R129: the test is made after the increment. -/
def FrameParser.feedPayload (b : Byte) (p : FrameParser) : FeedResult :=
  match memWrite .pbuf Config.payloadRamSize p.pbuf p.cursor.toNat b with
  | .error e => .fault e
  | .ok m =>
    let q := { p with pbuf := m, crcAcc := crcStep p.crcAcc b, cursor := p.cursor + 1#16 }
    if q.cursor = q.payloadLen then .inProgress { q with st := .awaitCrcLow } else .inProgress q

/-- `FEED b` in `AwaitCrcLow`, 41_frame_parser.md R130. -/
def FrameParser.feedCrcLow (b : Byte) (p : FrameParser) : FeedResult :=
  .inProgress { p with crcInLo := b, st := .awaitCrcHigh }

/-- `FEED b` in `AwaitCrcHigh`, 41_frame_parser.md R131 to R133. -/
def FrameParser.feedCrcHigh (b : Byte) (p : FrameParser) : FeedResult :=
  let q := { p with crcIn := joinBytes b p.crcInLo }
  if q.crcIn = q.crcAcc then .crcMatch { q with st := .complete } else .crcError q

/-- `FEED b` by the state of the parser, 41_frame_parser.md R143. -/
def FrameParser.feed (b : Byte) (p : FrameParser) : FeedResult :=
  match p.st with
  | .awaitCountLow => p.feedCountLow b
  | .awaitCountHigh => p.feedCountHigh b
  | .awaitFuncCode => p.feedFuncCode b
  | .awaitPayload => p.feedPayload b
  | .awaitCrcLow => p.feedCrcLow b
  | .awaitCrcHigh => p.feedCrcHigh b
  | .complete => .inComplete

/-- The end of a step that fed the parser: a terminal error runs `TERMINATE` (41_frame_parser.md R136);
a matching CRC calls the callback, and the operation waits in the record `wait` (R133, 10_state.md R37);
otherwise the operation ends with its status, given to `owner`. -/
def State.finishFeed (wait : PollRecord) (owner : Agent) (s : State) : FeedResult → Result State
  | .inProgress p =>
    .next (State.answer owner .inProgress 0#32 { s with parser := p, pollFlight := none })
  | .byteCountError p =>
    .next (State.answer owner .byteCountError 0#32
      (State.terminate { s with parser := p, pollFlight := none }))
  | .crcError p =>
    .next (State.answer owner .crcError 0#32
      (State.terminate { s with parser := p, pollFlight := none }))
  | .crcMatch p => .next { s with parser := p, pollFlight := some wait }
  | .fault e => .fault e
  | .inComplete => .refused .feedInComplete

/-- `FEED b` issued alone, 41_frame_parser.md R143. -/
def execFeed (b : Byte) (s : State) : Result State :=
  guarded (feedGate s) (s.finishFeed .feedInCallback .component (s.parser.feed b))

/-- `RESET` issued alone, 41_frame_parser.md R138: from any state, `Complete` included. An operation that waits
for the callback goes on waiting (DESIGN CHOICE, log entry 25). -/
def execReset (s : State) : Result State :=
  guarded (primitiveGate s) (.next (s.parserReset.answer .component .ok 0#32))

/-- The callback's return ends the operation `owner` has in flight: `TERMINATE`, then `Parsed(r)`
(41_frame_parser.md R133, 20_memory.md R60). -/
def State.finishCallback (owner : Agent) (r : Word) (s : State) : State :=
  State.answer owner .parsed r (State.terminate { s with pollFlight := none })

end Sys2Proof.Machine
end

