-- ==== Sys2Proof/Machine/Bridging.lean ====
section
/-! DEFINITION. The I/O bridge: `INIT`, the two interrupt entry points, `PROCESS_STEP` and its later steps
(44_io_bridge.md). -/

namespace Sys2Proof.Machine

/-- The body of `INIT`: flush both buffers, reset the parser, clear the supervisor, set the bridge's bits
(44_io_bridge.md R185); nothing is in flight afterwards (10_state.md R45). It emits no signal. A byte that no
`PUSH` has written since `INIT` holds no value (10_state.md R42, R45), so both arrays are left without values:
the stored bits, which R42 says are not cleared, have none that a rule could read (log entry 4). -/
def State.initialised (s : State) : State :=
  { s with
    inbound := { s.inbound.flush with buf := [] }
    outbound := { s.outbound.flush with buf := [] }
    parser := FrameParser.initial
    sup := Supervisor.initial
    bridge := { txIntEn := s.cfg.txIntAtInit, inited := true }
    pollFlight := none
    cbFlight := none }

/-- `INIT`, 44_io_bridge.md R185, R187. -/
def execInit (s : State) : Result State :=
  guarded (initGate s) (.next (s.initialised.answer .poll .ok 0#32))

/-- `ON_FRAME_START` if armed, the first line of `ON_BYTE_RECEIVED` (44_io_bridge.md R188, R189). -/
def State.noteArrival (s : State) : State := if s.sup.armed then s.frameStart else s

/-- `ON_BYTE_RECEIVED b`, 44_io_bridge.md R188. -/
def execOnByteReceived (b : Byte) (s : State) : Result State :=
  guarded (isrGate s)
    (match s.noteArrival.pushOn .inbound b with
     | .ok (some t) => .next (t.answer .isr .ok 0#32)
     | .ok none => .next (s.noteArrival.answer .isr .fifoFull 0#32)
     | .error e => .fault e)

/-- `ON_TRANSMIT_READY`, 44_io_bridge.md R192. -/
def execOnTransmitReady (s : State) : Result State :=
  guarded (transmitGate s)
    (match s.popOn .outbound with
     | .ok (some (b, t)) => .next ((t.emit (.send b)).answer .isr .ok 0#32)
     | .ok none =>
       .next (State.answer .isr .outFifoEmpty 0#32
         (State.emit .txIntDisable { s with bridge := { s.bridge with txIntEn := false } }))
     | .error e => .fault e)

/-- Step 1 of `PROCESS_STEP`, the critical section: `POP` on `IN` (44_io_bridge.md R195, R196,
20_memory.md R60, R61). -/
def execProcessStep (s : State) : Result State :=
  guarded (pollGate s)
    (match s.popOn .inbound with
     | .ok (some (b, t)) => .next { t with pollFlight := some (.popped b) }
     | .ok none => .next (s.answer .poll .fifoEmpty 0#32)
     | .error e => .fault e)

/-- Step 2 of `PROCESS_STEP`: `FEED` of the popped byte (44_io_bridge.md R195, 20_memory.md R60). -/
def processStepFeed (b : Byte) (s : State) : Result State :=
  s.finishFeed .inCallback .poll (s.parser.feed b)

end Sys2Proof.Machine
end

