-- ==== Sys2Proof/WellFormed.lean ====
section
/-! DEFINITION. Which operations are well formed: the two operand checks of 42_frame_encoder.md R155.
No other operation has an ill-formed operand (30_encoding.md R82: unused bits are ignored). -/

namespace Sys2Proof

/-- `L ≤ 65532`, so that `3 + L` fits the 16-bit ByteCount (42_frame_encoder.md R155). -/
def lenFits (len : Half) : Bool := decide (len.toNat ≤ Config.maxPayload)

/-- The `data` list holds exactly `L` bytes (42_frame_encoder.md R152, R155). -/
def lenMatches (len : Half) (payload : List Byte) : Bool := decide (payload.length = len.toNat)

/-- The operand checks of every operation. -/
def Instr.wellFormed : Instr → Bool
  | .encodeAndEnqueue _ len payload => lenFits len && lenMatches len payload
  | .init => true
  | .processStep => true
  | .onByteReceived _ => true
  | .onTransmitReady => true
  | .push _ _ => true
  | .pop _ => true
  | .isFull _ => true
  | .isEmpty _ => true
  | .flush _ => true
  | .feed _ => true
  | .reset => true
  | .enqueueByte _ => true
  | .enable _ => true
  | .disable => true
  | .tick => true
  | .onFrameStart => true
  | .supStop => true
  | .getFuncCode => true
  | .getPayloadLen => true
  | .getPayloadByte _ => true

end Sys2Proof
end

