-- ==== Sys2Proof/Machine/Encoder.lean ====
section
/-! DEFINITION. The frame encoder: `ENCODE_AND_ENQUEUE`, `ENQUEUE_BYTE` and their later steps
(42_frame_encoder.md, 20_memory.md R60). -/

namespace Sys2Proof.Machine

/-- One iteration of `ENCODE_AND_ENQUEUE`: `PUSH OUT, bytes[i]`, 42_frame_encoder.md R152, R153. The first
`Full` ends the loop. Past the last byte the loop is over and the step is the last one. -/
def encodeStep (a : Agent) (i : Nat) (bytes : List Byte) (s : State) : Result State :=
  match bytes[i]? with
  | none => .next (s.finishEnq a .ok)
  | some b =>
    match s.pushOn .outbound b with
    | .ok (some t) => .next (t.setEnq a (some (.encode (i + 1) bytes false)))
    | .ok none => .next (s.setEnq a (some (.encode i bytes true)))
    | .error e => .fault e

/-- The first step of `ENCODE_AND_ENQUEUE`, 42_frame_encoder.md R152, R155: the frame is taken when the
operation is issued, and its first byte is pushed. -/
def execEncodeAndEnqueue (funcCode : Byte) (len : Half) (payload : List Byte) (s : State) : Result State :=
  guarded (enqueueGate s)
    (if lenFits len = false then .refused .payloadTooLong
     else if lenMatches len payload = false then .refused .payloadLengthMismatch
     else encodeStep s.issuer 0 (frameBytes funcCode payload) s)

/-- The first step of `ENQUEUE_BYTE`, 42_frame_encoder.md R156. -/
def execEnqueueByte (b : Byte) (s : State) : Result State :=
  guarded (enqueueGate s)
    (match s.pushOn .outbound b with
     | .ok (some t) => .next (t.setEnq s.issuer (some (.enqueueByte .ok)))
     | .ok none => .next (s.setEnq s.issuer (some (.enqueueByte .full)))
     | .error e => .fault e)

/-- The status an enqueue operation ends with (42_frame_encoder.md R156, 30_encoding.md R90). -/
def enqStatus : PushStatus → Status
  | .ok => .ok
  | .full => .fifoFull

/-- The next step of agent `a`'s enqueue operation in flight (20_memory.md R60). -/
def resumeEnq (a : Agent) (e : EnqRecord) (s : State) : Result State :=
  match e with
  | .encode i bytes failed =>
    if failed then .next (s.finishEnq a .fifoFull) else encodeStep a i bytes s
  | .enqueueByte st => .next (s.finishEnq a (enqStatus st))

end Sys2Proof.Machine
end

