-- ==== Sys2Proof/Machine/Flags.lean ====
section
/-! DEFINITION. The flags: the block has no condition codes (10_state.md R46). Its one-bit state is in
`State`; here are the codes of the parser's states and of the statuses, and the view of the parser's
progress as seven flags (10_state.md R24, R47, 30_encoding.md R90). -/

namespace Sys2Proof.Machine

/-- The 3-bit code of a parser state, 10_state.md R24. -/
def ParserState.code : ParserState → BitVec 3
  | .awaitCountLow => 0#3
  | .awaitCountHigh => 1#3
  | .awaitFuncCode => 2#3
  | .awaitPayload => 3#3
  | .awaitCrcLow => 4#3
  | .awaitCrcHigh => 5#3
  | .complete => 6#3

/-- The 4-bit code of a status, 30_encoding.md R90. -/
def Status.code : Status → BitVec 4
  | .ok => 0#4
  | .inProgress => 1#4
  | .parsed => 2#4
  | .byteCountError => 3#4
  | .crcError => 4#4
  | .fifoFull => 5#4
  | .fifoEmpty => 6#4
  | .outFifoEmpty => 7#4
  | .full => 8#4
  | .empty => 9#4

/-- The source's seven progress flags (10_state.md R47). -/
inductive ProgressFlag where
  | countLowReceived
  | countHighReceived
  | funcCodeReceived
  | payloadComplete
  | crcLowReceived
  | crcHighReceived
  | frameComplete
  deriving DecidableEq, Repr

/-- The flags a parser state stands for (10_state.md R47). -/
def ParserState.progressFlags : ParserState → List ProgressFlag
  | .awaitCountLow => []
  | .awaitCountHigh => [.countLowReceived]
  | .awaitFuncCode => [.countHighReceived]
  | .awaitPayload => [.funcCodeReceived]
  | .awaitCrcLow => [.payloadComplete]
  | .awaitCrcHigh => [.crcLowReceived]
  | .complete => [.crcHighReceived, .frameComplete]

/-- A one-bit result as a response value (40_ring_buffer.md R106, R107). -/
def flagValue (b : Bool) : Word := if b then 1#32 else 0#32

end Sys2Proof.Machine
end

