-- ==== Sys2Proof/Machine/RingBuffer.lean ====
section
/-! DEFINITION. The five ring-buffer primitives issued alone (40_ring_buffer.md). -/

namespace Sys2Proof.Machine

/-- `PUSH F, b`, 40_ring_buffer.md R100, R101. -/
def execPush (f : BufSel) (b : Byte) (s : State) : Result State :=
  guarded (primitiveGate s)
    (match s.pushOn f b with
     | .ok (some t) => .next (t.answer .component .ok 0#32)
     | .ok none => .next (s.answer .component .full 0#32)
     | .error e => .fault e)

/-- `POP F`, 40_ring_buffer.md R103, R104. -/
def execPop (f : BufSel) (s : State) : Result State :=
  guarded (primitiveGate s)
    (match s.popOn f with
     | .ok (some (b, t)) => .next (t.answer .component .ok (byteValue b))
     | .ok none => .next (s.answer .component .empty 0#32)
     | .error e => .fault e)

/-- `IS_FULL F`, 40_ring_buffer.md R106. -/
def execIsFull (f : BufSel) (s : State) : Result State :=
  guarded (primitiveGate s)
    (.next (s.answer .component .ok (flagValue (s.ring f).isFull)))

/-- `IS_EMPTY F`, 40_ring_buffer.md R107. -/
def execIsEmpty (f : BufSel) (s : State) : Result State :=
  guarded (primitiveGate s)
    (.next (s.answer .component .ok (flagValue ((s.ring f).isEmpty (s.cap f)))))

/-- `FLUSH F`, 40_ring_buffer.md R109. -/
def execFlush (f : BufSel) (s : State) : Result State :=
  guarded (primitiveGate s)
    (.next ((s.setRing f (s.ring f).flush).answer .component .ok 0#32))

end Sys2Proof.Machine
end

