-- ==== Sys2Proof/Machine/Supervision.lean ====
section
/-! DEFINITION. The timeout supervisor (43_timeout_supervisor.md). -/

namespace Sys2Proof.Machine

/-- `ENABLE tick_budget`, 43_timeout_supervisor.md R166. -/
def execEnable (tickBudget : Word) (s : State) : Result State :=
  guarded (pollGate s)
    (.next (State.answer .poll .ok 0#32
      { s with sup := { s.sup with armed := true, tickBudget := tickBudget } }))

/-- `SUP_STOP` and then `armed <- 0`, the body of `DISABLE` (43_timeout_supervisor.md R174). -/
def State.disarm (s : State) : State :=
  let t := s.supStop
  { t with sup := { t.sup with armed := false } }

/-- `DISABLE`, 43_timeout_supervisor.md R174. -/
def execDisable (s : State) : Result State :=
  guarded (pollGate s) (.next (s.disarm.answer .poll .ok 0#32))

/-- The body of `TICK`: the gate, the increment, the compare, and at expiry `SUP_STOP` and `RESET`
(43_timeout_supervisor.md R170 to R173). -/
def State.countTick (s : State) : State :=
  if s.sup.armed = false ∨ s.sup.running = false then s
  else
    let t := { s with sup := { s.sup with tickCount := s.sup.tickCount + 1#32 } }
    if t.sup.tickBudget.toNat ≤ t.sup.tickCount.toNat then t.supStop.parserReset else t

/-- `TICK`, 43_timeout_supervisor.md R170: it returns `Ok` whether it expired or not (R173). -/
def execTick (s : State) : Result State :=
  guarded (pollGate s) (.next (s.countTick.answer .poll .ok 0#32))

/-- `ON_FRAME_START` issued alone, 43_timeout_supervisor.md R167. -/
def execOnFrameStart (s : State) : Result State :=
  guarded (primitiveGate s) (.next (s.frameStart.answer .component .ok 0#32))

/-- `SUP_STOP` issued alone, 43_timeout_supervisor.md R169. -/
def execSupStop (s : State) : Result State :=
  guarded (primitiveGate s) (.next (s.supStop.answer .component .ok 0#32))

end Sys2Proof.Machine
end

