-- ==== Sys2Proof/Machine/Dispatch.lean ====
section
/-! DEFINITION. The first step of each operation, one arm per constructor (20_memory.md R60). -/

namespace Sys2Proof.Machine

def exec (i : Instr) (s : State) : Host.Outcome State Fault Refusal :=
  match i with
  | .init => Sys2Proof.Machine.execInit s
  | .processStep => Sys2Proof.Machine.execProcessStep s
  | .onByteReceived b => Sys2Proof.Machine.execOnByteReceived b s
  | .onTransmitReady => Sys2Proof.Machine.execOnTransmitReady s
  | .push f b => Sys2Proof.Machine.execPush f b s
  | .pop f => Sys2Proof.Machine.execPop f s
  | .isFull f => Sys2Proof.Machine.execIsFull f s
  | .isEmpty f => Sys2Proof.Machine.execIsEmpty f s
  | .flush f => Sys2Proof.Machine.execFlush f s
  | .feed b => Sys2Proof.Machine.execFeed b s
  | .reset => Sys2Proof.Machine.execReset s
  | .encodeAndEnqueue funcCode len payload => Sys2Proof.Machine.execEncodeAndEnqueue funcCode len payload s
  | .enqueueByte b => Sys2Proof.Machine.execEnqueueByte b s
  | .enable tickBudget => Sys2Proof.Machine.execEnable tickBudget s
  | .disable => Sys2Proof.Machine.execDisable s
  | .tick => Sys2Proof.Machine.execTick s
  | .onFrameStart => Sys2Proof.Machine.execOnFrameStart s
  | .supStop => Sys2Proof.Machine.execSupStop s
  | .getFuncCode => Sys2Proof.Machine.execGetFuncCode s
  | .getPayloadLen => Sys2Proof.Machine.execGetPayloadLen s
  | .getPayloadByte k => Sys2Proof.Machine.execGetPayloadByte k s

end Sys2Proof.Machine
end

