-- ==== Sys2Proof/Machine/Fetch.lean ====
section
/-! DEFINITION. Taking the environment's next move and issuing a request (20_memory.md R58). -/

namespace Sys2Proof.Machine

/-- The move at the head of the schedule is taken by agent `a`; `rest` are the moves left. -/
def State.takeMove (a : Agent) (rest : List Move) (s : State) : State :=
  { s with sched := rest, issuer := a }

/-- Issue a request: decode it and take the operation's first step; an unassigned code is refused
(30_encoding.md R87). That it is reported before anything else is looked at, the capacities included, is a DESIGN
CHOICE, safe (log entry 9). -/
def issueRequest (r : Request) (s : State) : Host.Outcome State Fault Refusal :=
  match decode r with
  | .ok i => exec i s
  | .error (.unassignedOp op) => .refused (.unassignedOp op)

end Sys2Proof.Machine
end

