-- ==== Sys2Proof/Machine/Flight.lean ====
section
/-! DEFINITION. The later steps of operations in flight (20_memory.md R60, 10_state.md R37). -/

namespace Sys2Proof.Machine

/-- The next step of the poll context's operation in flight. -/
def resumePoll (s : State) : Result State :=
  guarded (flightGate s)
    (match s.pollFlight with
     | none => .refused .nothingInFlight
     | some (.popped b) => processStepFeed b s
     | some .inCallback => .refused .callbackRunning
     | some .feedInCallback => .refused .callbackRunning
     | some (.enq e) => resumeEnq .poll e s)

/-- The next step of the callback's own enqueue operation (44_io_bridge.md R200). -/
def resumeCallback (s : State) : Result State :=
  guarded (flightGate s)
    (match s.cbFlight with
     | none => .refused .nothingInFlight
     | some e => resumeEnq .callback e s)

/-- The agent whose operation waits for the callback: the poll context's `PROCESS_STEP`, or a `FEED`
issued alone (10_state.md R37, log entry 8). -/
def State.callbackOwner (s : State) : Agent :=
  if s.pollFlight = some .feedInCallback then .component else .poll

/-- The callback returns `r` (44_io_bridge.md R199, 41_frame_parser.md R133). -/
def callbackReturn (r : Word) (s : State) : Result State :=
  guarded (returnGate s) (.next (s.finishCallback s.callbackOwner r))

end Sys2Proof.Machine
end

