-- ==== Sys2Proof/Machine/Placing.lean ====
section
/-! DEFINITION. How a request is put before the machine as its very next move, at a moment at which the
operation may be issued (log entry 2). Used by `State.withFetchWord` only; no meaning calls it. -/

namespace Sys2Proof.Machine

/-- The agent that issues an operation (30_encoding.md R84, R86; for the enqueue operations the poll
context of the two that may). -/
def usualAgent : Instr → Agent
  | .init => .poll
  | .processStep => .poll
  | .onByteReceived _ => .isr
  | .onTransmitReady => .isr
  | .push _ _ => .component
  | .pop _ => .component
  | .isFull _ => .component
  | .isEmpty _ => .component
  | .flush _ => .component
  | .feed _ => .component
  | .reset => .component
  | .encodeAndEnqueue _ _ _ => .poll
  | .enqueueByte _ => .poll
  | .enable _ => .poll
  | .disable => .poll
  | .tick => .poll
  | .onFrameStart => .component
  | .supStop => .component
  | .getFuncCode => .callback
  | .getPayloadLen => .callback
  | .getPayloadByte _ => .callback

/-- The parser's registers when the frame of `funcCode` and `payload` has just been found valid
(41_frame_parser.md R124 to R133). -/
def FrameParser.completed (funcCode : Byte) (payload : List Byte) : FrameParser :=
  let count := byteCountOf payload.length
  let crc := crc16 (funcCode :: payload)
  { st := .complete, countLo := lowByte count, count := count, payloadLen := payloadLenOf count,
    funcCode := funcCode, cursor := payloadLenOf count, crcAcc := crc, crcInLo := lowByte crc,
    crcIn := crc, pbufLive := decide (payload ≠ []), pbuf := (List.range payload.length).zip payload }

/-- The callback runs on a valid frame of function code 0 whose payload is `n` zero bytes. -/
def State.inCallbackOn (n : Nat) (s : State) : State :=
  { s with parser := .completed 0#8 (List.replicate n 0#8), pollFlight := some .inCallback }

/-- The change of `s` that makes the present moment one at which the operation may be issued: `INIT` in
an instance not yet initialised (R187), `ON_TRANSMIT_READY` with the transmit interrupt enabled (R218),
an accessor inside the callback (R204). Every other operation may be issued as things stand. -/
def State.atIssueOf (s : State) : Instr → State
  | .init => { s with bridge := { s.bridge with inited := false } }
  | .processStep => s
  | .onByteReceived _ => s
  | .onTransmitReady => { s with bridge := { s.bridge with txIntEn := true } }
  | .push _ _ => s
  | .pop _ => s
  | .isFull _ => s
  | .isEmpty _ => s
  | .flush _ => s
  | .feed _ => s
  | .reset => s
  | .encodeAndEnqueue _ _ _ => s
  | .enqueueByte _ => s
  | .enable _ => s
  | .disable => s
  | .tick => s
  | .onFrameStart => s
  | .supStop => s
  | .getFuncCode => s.inCallbackOn 0
  | .getPayloadLen => s.inCallbackOn 0
  | .getPayloadByte i => s.inCallbackOn (i.toNat + 1)

/-- `s` with the request as its next move, issued by the agent the operation belongs to. A request that
names no operation is issued by the poll context. -/
def State.placeRequest (r : Request) (s : State) : State :=
  match decode r with
  | .ok i =>
    let t := s.atIssueOf i
    { t with sched := .issue (usualAgent i) r :: t.sched }
  | .error _ => { s with sched := .issue .poll r :: s.sched }

end Sys2Proof.Machine
end

