-- ==== Sys2Proof/Machine/Step.lean ====
section
/-! DEFINITION. One step: the environment's next move is taken (20_memory.md R58). With no move left the
block waits for operations and nothing changes (10_state.md R45, 60_exceptions.md R232). -/

namespace Sys2Proof.Machine

/-- One step of the block. -/
def step (s : State) : Host.Outcome State Fault Refusal :=
  match s.sched with
  | [] => .next s
  | .issue a r :: rest => issueRequest r (s.takeMove a rest)
  | .resumePoll :: rest => resumePoll (s.takeMove .poll rest)
  | .resumeCallback :: rest => resumeCallback (s.takeMove .callback rest)
  | .callbackReturn r :: rest => callbackReturn r (s.takeMove .callback rest)

/-- `s` with the instruction whose bits are `w` placed as its next move (log entry 2). -/
def State.withFetchWord (s : State) (nbits w : Nat) : State :=
  s.placeRequest (requestOfBits nbits w)

end Sys2Proof.Machine
end

