-- ==== Sys2Proof/Safety.lean ====
section
/-! DEFINITION. What a good state is, and the words the statements use: the invariants of the registers
and memories, who may issue what, and repeated steps of one operation. -/

namespace Sys2Proof.Machine

/-- The invariant of a ring buffer of capacity `c`: both indices inside the array (10_state.md R22), the
memory canonical, and every live byte holding a value (40_ring_buffer.md R113). -/
abbrev Ring.Inv (c : Word) (f : Ring) : Prop :=
  f.rd.toNat < c.toNat ∧ f.wr.toNat < c.toNat ∧ f.buf.wf c.toNat ∧
    ∀ k < f.live c, (f.buf.read (f.liveIndex c k)).isSome = true

/-- The parser awaits one of the first three bytes of a frame. -/
abbrev ParserState.beforePayload (st : ParserState) : Prop :=
  st = .awaitCountLow ∨ st = .awaitCountHigh ∨ st = .awaitFuncCode

/-- The parser has taken the whole payload. -/
abbrev ParserState.afterPayload (st : ParserState) : Prop :=
  st = .awaitCrcLow ∨ st = .awaitCrcHigh ∨ st = .complete

/-- The invariant of the parser: `pbuf` holds values exactly at the indices below `cursor` (10_state.md
R43); before the payload nothing is stored or folded and no payload is allocated; within it `cursor` is
below `payload_len` (41_frame_parser.md R129); after it the two are equal; `payload_len` is the wrapped
`count - 3` of a non-zero `count` (R125); the accumulator is the CRC of the function code and the stored
payload, each folded once (R123); in `Complete` the received CRC equals it (R133). -/
abbrev FrameParser.Inv (p : FrameParser) : Prop :=
  p.pbuf.map Prod.fst = List.range p.cursor.toNat ∧
  (p.st.beforePayload → p.cursor = 0#16 ∧ p.crcAcc = 0xFFFF#16 ∧ p.pbufLive = false) ∧
  (p.st = .awaitPayload → p.pbufLive = true ∧ p.cursor.toNat < p.payloadLen.toNat) ∧
  (p.st.afterPayload → p.cursor = p.payloadLen ∧ p.pbufLive = decide (p.payloadLen ≠ 0#16)) ∧
  (p.st ≠ .awaitCountLow ∧ p.st ≠ .awaitCountHigh →
    p.count ≠ 0#16 ∧ p.payloadLen = payloadLenOf p.count) ∧
  (¬ p.st.beforePayload → p.crcAcc = crc16 (p.funcCode :: p.pbuf.map Prod.snd)) ∧
  (p.st = .complete → p.crcIn = p.crcAcc)

/-- An operation of the poll context waits for the callback (10_state.md R37). -/
abbrev waitsForCallback (r : Option PollRecord) : Prop :=
  r = some .inCallback ∨ r = some .feedInCallback

/-- An enqueue record points into its frame, and at a byte still to be pushed once a push has failed
(10_state.md R37, 42_frame_encoder.md R153). -/
def EnqRecord.inFrame : EnqRecord → Bool
  | .encode i bytes failed => decide (i ≤ bytes.length) && (!failed || decide (i < bytes.length))
  | .enqueueByte _ => true

/-- The enqueue record of the poll context, if one is in flight. -/
def PollRecord.enqueue : PollRecord → Option EnqRecord
  | .enq e => some e
  | .popped _ => none
  | .inCallback => none
  | .feedInCallback => none

/-- The invariant of an initialised block, kept by every step of every agent. -/
abbrev State.Inv (s : State) : Prop :=
  s.cfg.valid = true ∧ s.bridge.inited = true ∧
  s.inbound.Inv s.cfg.capIn ∧ s.outbound.Inv s.cfg.capOut ∧
  s.parser.Inv ∧ s.parser.pbuf.wf Config.payloadRamSize ∧
  ((s.parser.st = .complete → waitsForCallback s.pollFlight) ∧
    (waitsForCallback s.pollFlight → s.parser.st = .complete ∨ s.parser = FrameParser.initial)) ∧
  (s.cbFlight ≠ none → waitsForCallback s.pollFlight) ∧
  (s.pollFlight.bind PollRecord.enqueue).all EnqRecord.inFrame = true ∧
  s.cbFlight.all EnqRecord.inFrame = true

/-- The moment and the issuer are right for `INIT` (44_io_bridge.md R187). -/
abbrev State.InitMayIssue (s : State) : Prop :=
  s.cfg.valid = true ∧ s.issuer = .poll ∧ s.bridge.inited = false

/-- The supervisor's invariants: running implies armed (43_timeout_supervisor.md R177), and the count of a
running supervisor is below the largest 32-bit value, so that the next increment cannot wrap (R172). -/
abbrev Supervisor.Inv (u : Supervisor) : Prop :=
  (u.running = true → u.armed = true) ∧ (u.running = true → u.tickCount ≠ 0xFFFFFFFF#32)

/-- The transmit-interrupt enable as the last `tx_int_enable` or `tx_int_disable` of a trace leaves it. -/
def txIntAfter (start : Bool) (trace : List Signal) : Bool :=
  trace.foldl (fun on x => if x = .txIntEnable then true else if x = .txIntDisable then false else on) start

/-- Whether the timer runs as the last `timer_start` or `timer_stop` of a trace leaves it. -/
def timerAfter (start : Bool) (trace : List Signal) : Bool :=
  trace.foldl (fun on x => if x = .timerStart then true else if x = .timerStop then false else on) start

/-- The two bits the block keeps of its signals are what the signals say (10_state.md R35,
60_exceptions.md R226). -/
abbrev State.MirrorsSignals (s : State) : Prop :=
  s.bridge.inited = true ∧ s.bridge.txIntEn = txIntAfter s.cfg.txIntAtInit s.trace ∧
    s.sup.running = timerAfter false s.trace

/-- The environment's next move issues a primitive alone: no move of the whole block's environment
(00_scope.md R12, 30_encoding.md R88). -/
def State.componentNext (s : State) : Bool :=
  match s.sched with
  | .issue a _ :: _ => a == .component
  | .resumePoll :: _ => false
  | .resumeCallback :: _ => false
  | .callbackReturn _ :: _ => false
  | [] => false

/-- The environment's next move issues an operation of the interrupt context. -/
def State.isrNext (s : State) : Bool :=
  match s.sched with
  | .issue a _ :: _ => a == .isr
  | .resumePoll :: _ => false
  | .resumeCallback :: _ => false
  | .callbackReturn _ :: _ => false
  | [] => false

/-- Which agent may issue which operation (30_encoding.md R84, R86, R88, 44_io_bridge.md R200). -/
def belongsTo (a : Agent) : Instr → Bool
  | .init => a == .poll
  | .processStep => a == .poll
  | .onByteReceived _ => a == .isr
  | .onTransmitReady => a == .isr
  | .push _ _ => a == .component
  | .pop _ => a == .component
  | .isFull _ => a == .component
  | .isEmpty _ => a == .component
  | .flush _ => a == .component
  | .feed _ => a == .component
  | .reset => a == .component
  | .encodeAndEnqueue _ _ _ => a == .poll || a == .callback
  | .enqueueByte _ => a == .poll || a == .callback
  | .enable _ => a == .poll
  | .disable => a == .poll
  | .tick => a == .poll
  | .onFrameStart => a == .component
  | .supStop => a == .component
  | .getFuncCode => a == .callback
  | .getPayloadLen => a == .callback
  | .getPayloadByte _ => a == .callback

/-- The moment and the issuer are right for a poll operation (20_memory.md R68). -/
abbrev State.PollMayIssue (s : State) : Prop :=
  s.cfg.valid = true ∧ s.issuer = .poll ∧ s.bridge.inited = true ∧ s.pollFlight = none

/-- The moment and the issuer are right for an interrupt operation (20_memory.md R68). -/
abbrev State.IsrMayIssue (s : State) : Prop :=
  s.cfg.valid = true ∧ s.issuer = .isr ∧ s.bridge.inited = true

/-- The moment and the issuer are right for an accessor (44_io_bridge.md R200, R204). -/
abbrev State.CallbackMayIssue (s : State) : Prop :=
  s.cfg.valid = true ∧ s.issuer = .callback ∧ s.bridge.inited = true ∧
    s.parser.st = .complete ∧ waitsForCallback s.pollFlight ∧ s.cbFlight = none

/-- The moment and the issuer are right for an enqueue operation of the callback, whatever a `RESET` issued
alone has done to the parser meanwhile (44_io_bridge.md R200, log entry 25). -/
abbrev State.CallbackMayEnqueue (s : State) : Prop :=
  s.cfg.valid = true ∧ s.issuer = .callback ∧ s.bridge.inited = true ∧
    waitsForCallback s.pollFlight ∧ s.cbFlight = none

/-- The moment and the issuer are right for an enqueue operation (44_io_bridge.md R200). -/
abbrev State.EnqueueMayIssue (s : State) : Prop := s.PollMayIssue ∨ s.CallbackMayEnqueue

/-- The moment and the issuer are right for a primitive other than `FEED` issued alone: any state of any
component, with whatever in flight (30_encoding.md R86, log entry 7). -/
abbrev State.PrimitiveMayIssue (s : State) : Prop :=
  s.cfg.valid = true ∧ s.issuer = .component ∧ s.bridge.inited = true

/-- The moment and the issuer are right for a `FEED` issued alone, which needs nothing in flight
(30_encoding.md R86, 10_state.md R37, log entry 7). -/
abbrev State.ComponentMayIssue (s : State) : Prop :=
  s.cfg.valid = true ∧ s.issuer = .component ∧ s.bridge.inited = true ∧ s.pollFlight = none

/-- Push a list of bytes one after the other; `none` as soon as one push returns `Full`. -/
def Ring.pushAll (id : MemId) (c : Word) : List Byte → Ring → Except Fault (Option Ring)
  | [], f => .ok (some f)
  | b :: bs, f =>
    match f.push id c b with
    | .ok (some g) => g.pushAll id c bs
    | .ok none => .ok none
    | .error e => .error e

/-- The parser after a list of bytes each of which it answers with `InProgress`. -/
def FrameParser.feedAll : List Byte → FrameParser → Option FrameParser
  | [], p => some p
  | b :: bs, p =>
    match p.feed b with
    | .inProgress q => q.feedAll bs
    | .byteCountError _ => none
    | .crcError _ => none
    | .crcMatch _ => none
    | .fault _ => none
    | .inComplete => none

/-- The transitions of `PARSER.st` that 41_frame_parser.md R140 tables, with "any to `AwaitCountLow`" for
`RESET` and `INIT`, and staying. -/
def ParserState.mayBecome (a b : ParserState) : Bool :=
  a == b || b == .awaitCountLow ||
    (match a with
     | .awaitCountLow => b == .awaitCountHigh
     | .awaitCountHigh => b == .awaitFuncCode
     | .awaitFuncCode => b == .awaitPayload || b == .awaitCrcLow
     | .awaitPayload => b == .awaitCrcLow
     | .awaitCrcLow => b == .awaitCrcHigh
     | .awaitCrcHigh => b == .complete
     | .complete => false)

/-- The bytes a trace sent, in order. -/
def sentBytes (trace : List Signal) : List Byte :=
  trace.filterMap fun x =>
    match x with
    | .send b => some b
    | .txIntEnable => none
    | .txIntDisable => none
    | .timerStart => none
    | .timerStop => none

/-- The timer signals of a trace, in order. -/
def timerSignals (trace : List Signal) : List Signal :=
  trace.filter fun x => x == .timerStart || x == .timerStop

/-- The unassigned operation codes, 30_encoding.md R87. -/
def unassigned (op : Byte) : Bool :=
  let n := op.toNat
  (0x04 ≤ n && n ≤ 0x0F) || (0x15 ≤ n && n ≤ 0x17) || (0x1D ≤ n && n ≤ 0x1F) ||
    (0x22 ≤ n && n ≤ 0x2F) || (0x32 ≤ n && n ≤ 0x3F) || (0x45 ≤ n && n ≤ 0x4F) || 0x53 ≤ n

/-- `k` further steps of the poll context's operation in flight, with no other step between them. -/
def resumePollTimes : Nat → State → Result State
  | 0, s => .next s
  | k + 1, s =>
    match resumePoll s with
    | .next t => resumePollTimes k t
    | .fault e => .fault e
    | .refused r => .refused r

/-- `k` `TICK`s, with no other step between them. -/
def tickTimes : Nat → State → Result State
  | 0, s => .next s
  | k + 1, s =>
    match exec .tick s with
    | .next t => tickTimes k t
    | .fault e => .fault e
    | .refused r => .refused r

end Sys2Proof.Machine
end

