-- ==== Sys2Proof/Certificates/Slice0/Obligations.lean ====
section
/-! DEFINITION. The statements for the provers. A meaning's statement gives the whole next state, so it is
the operation's completion and says what it leaves unchanged as well; the frame statements say the latter
byte by byte for every next state an operation can answer. Three conventions are the model's and not the
spec's (DESIGN CHOICE): a primitive issued alone is issued by the agent `component` (log entry 7), a response is
appended to `answers` (log entry 6), and the schedule and the issuing agent stand in the state (log entry 1). -/

open Sys2Proof Sys2Proof.Machine

/-! ## Encoding -/

/-- Decoding the request of an operation gives the operation back, every operand at every value
(30_encoding.md R82 to R86). -/
def Obligations.DecodeOfEncode : Prop :=
  ∀ i : Instr, decode (encode i) = .ok i

/-- One request per unit, written out from 30_encoding.md R84 and R86, and the operation it names. -/
def Obligations.WrittenOutRequestsDecode : Prop :=
  decode ⟨0x00#8, 0#32, []⟩ = .ok .init ∧
  decode ⟨0x02#8, 0x000000D3#32, []⟩ = .ok (.onByteReceived 0xD3#8) ∧
  decode ⟨0x18#8, 0x00000011#32, []⟩ = .ok (.push .outbound 0x11#8) ∧
  decode ⟨0x11#8, 0#32, []⟩ = .ok (.pop .inbound) ∧
  decode ⟨0x20#8, 0x0000001E#32, []⟩ = .ok (.feed 0x1E#8) ∧
  decode ⟨0x30#8, 0x00000201#32, [0xAA#8, 0xBB#8]⟩ =
    .ok (.encodeAndEnqueue 0x01#8 2#16 [0xAA#8, 0xBB#8]) ∧
  decode ⟨0x40#8, 0x00000003#32, []⟩ = .ok (.enable 3#32) ∧
  decode ⟨0x52#8, 0x00000001#32, []⟩ = .ok (.getPayloadByte 1#16)

/-- 30_encoding.md R87: the listed codes are refused by a step, and every other code names an operation.
That `unassignedOp` is the refusal reported whatever else the state would refuse, an illegal capacity included, is
the model's order (DESIGN CHOICE, log entry 9). -/
def Obligations.UnassignedCodesRefused : Prop :=
  (∀ (s : State) (a : Agent) (r : Request) (rest : List Move), s.sched = .issue a r :: rest →
      unassigned r.op = true → step s = .refused (.unassignedOp r.op)) ∧
  (∀ r : Request, unassigned r.op = false → ∃ i, decode r = .ok i)

/-- A step takes the environment's next move (20_memory.md R58): an issued request that decodes to `i` runs
as `exec i` with the issuing agent noted and the move taken off the schedule; the other moves resume what is
in flight; with no move left nothing changes. The schedule is the model's own form of the inputs of R58 (log
entry 1). -/
def Obligations.StepRunsDecodedOperation : Prop :=
  (∀ (s : State) (a : Agent) (r : Request) (rest : List Move) (i : Instr),
      s.sched = .issue a r :: rest → decode r = .ok i →
      step s = exec i { s with sched := rest, issuer := a }) ∧
  (∀ (s : State) (rest : List Move), s.sched = .resumePoll :: rest →
      step s = resumePoll { s with sched := rest, issuer := .poll }) ∧
  (∀ (s : State) (rest : List Move), s.sched = .resumeCallback :: rest →
      step s = resumeCallback { s with sched := rest, issuer := .callback }) ∧
  (∀ (s : State) (v : Word) (rest : List Move), s.sched = .callbackReturn v :: rest →
      step s = callbackReturn v { s with sched := rest, issuer := .callback }) ∧
  (∀ s : State, s.sched = [] → step s = .next s)

/-! ## Reset and the right to issue -/

/-- 10_state.md R45, 44_io_bridge.md R185: what `INIT`, with its encoding, leaves; it emits no signal. -/
def Obligations.InitLeavesResetValues : Prop :=
  (∀ (arg : Word) (data : List Byte), decode ⟨0x00#8, arg, data⟩ = .ok .init) ∧
  ∀ s : State, s.InitMayIssue →
    exec .init s = .next
      { s with
        inbound := ⟨0#32, 1#32, []⟩
        outbound := ⟨0#32, 1#32, []⟩
        parser := ⟨.awaitCountLow, 0#8, 0#16, 0#16, 0#8, 0#16, 0xFFFF#16, 0#8, 0#16, false, []⟩
        sup := ⟨false, 0#32, 0#32, false⟩
        bridge := ⟨s.cfg.txIntAtInit, true⟩
        pollFlight := none
        cbFlight := none
        answers := s.answers ++ [⟨.poll, .ok, 0#32⟩] }

/-- 44_io_bridge.md R187, 10_state.md R39: whoever issues it, a second `INIT` is refused, and before the first
every other operation is. 00_scope.md R10: with a capacity below 2 there is no instance, and every operation,
`INIT` included, every resumption and every return of the callback is refused. That the refusal of R10 is made at
each of these is DEDUCED (log entry 20). -/
def Obligations.InitOnceAndFirst : Prop :=
  (∀ s : State, s.bridge.inited = true → ∃ r, exec .init s = .refused r) ∧
  (∀ (s : State) (i : Instr), s.bridge.inited = false → i ≠ .init → ∃ r, exec i s = .refused r) ∧
  ∀ s : State, s.cfg.capIn.toNat < 2 ∨ s.cfg.capOut.toNat < 2 →
    (∀ i : Instr, ∃ r, exec i s = .refused r) ∧ (∃ r, resumePoll s = .refused r) ∧
    (∃ r, resumeCallback s = .refused r) ∧ ∀ v : Word, ∃ r, callbackReturn v s = .refused r

/-- 30_encoding.md R88: an operation issued by an agent it does not belong to is refused.
That this name is the one reported is the model's order of refusals (DESIGN CHOICE, log entry 9); the agent of the
primitives is the model's (log entry 7). That the accessors belong to the callback and are refused to the poll
context, under which 00_scope.md R11 lists them, is DEDUCED (log entry 14). -/
def Obligations.WrongAgentRefused : Prop :=
  ∀ (s : State) (i : Instr), s.cfg.valid = true → belongsTo s.issuer i = false →
    exec i s = .refused (.wrongAgent s.issuer)

/-- 20_memory.md R68(a): a poll operation is refused while a poll operation is in flight. So is a `FEED` issued
alone outside `Complete` (10_state.md R37; DESIGN CHOICE, log entry 7), and so is an operation of the callback
while its own enqueue is in flight, an accessor as long as its frame can be read (00_scope.md R11, 10_state.md
R37; DEDUCED, log entry 16). That these names are the ones reported is the model's order of refusals (DESIGN
CHOICE, log entry 9). -/
def Obligations.PollDoesNotPreemptItself : Prop :=
  (∀ (s : State) (i : Instr), s.cfg.valid = true → s.issuer = .poll → s.bridge.inited = true →
    s.pollFlight ≠ none → belongsTo .poll i = true → i ≠ .init → exec i s = .refused .pollBusy) ∧
  (∀ (b : Byte) (s : State), s.PrimitiveMayIssue → s.pollFlight ≠ none → s.parser.st ≠ .complete →
    exec (.feed b) s = .refused .pollBusy) ∧
  ∀ (s : State) (i : Instr), s.cfg.valid = true → s.issuer = .callback → s.bridge.inited = true →
    waitsForCallback s.pollFlight → s.cbFlight ≠ none → belongsTo .callback i = true →
    s.parser.st = .complete ∨ belongsTo .poll i = true → exec i s = .refused .callbackBusy

/-! ## Invariants -/

/-- The reset state of every legal instance, the model's own among them, meets every invariant. That the
model starts after `INIT`, and with which parameters, is a DESIGN CHOICE (log entry 3). -/
def Obligations.ResetMeetsInvariants : Prop :=
  State.reset.Inv ∧
  ∀ c : Config, c.valid = true →
    (State.resetWith c).Inv ∧ (State.resetWith c).sup.Inv ∧ (State.resetWith c).MirrorsSignals

/-- `INIT` of an instance not yet initialised leaves a state that meets every invariant, but for a trace that
was not empty (44_io_bridge.md R185). -/
def Obligations.InitEstablishesInvariants : Prop :=
  ∀ s : State, s.InitMayIssue →
    ∃ t, exec .init s = .next t ∧ t.Inv ∧ t.sup.Inv ∧ (s.trace = [] → t.MirrorsSignals)

/-- Every step of every agent keeps the invariant of the block: indices in range (10_state.md R22), memories
canonical, every live byte with a value (40_ring_buffer.md R113), the parser's registers in step with each
other and with the stored payload and its CRC (41_frame_parser.md R123, R129), and the in-flight records in
step with the parser (10_state.md R37): in `Complete` an operation waits for the callback, and while one waits the
parser is in `Complete` or, after a `RESET` issued alone, in its initial state (log entry 25). -/
def Obligations.StepKeepsInvariant : Prop :=
  ∀ s t : State, s.Inv → step s = .next t → t.Inv

/-- From a state with the invariant no step faults: no rule indexes a memory outside its range (20_memory.md
R55) or reads a byte that holds no value (10_state.md R42, R43). -/
def Obligations.NoStepFaults : Prop :=
  ∀ (s : State) (e : Fault), s.Inv → step s ≠ .fault e

/-- 43_timeout_supervisor.md R177 and R172: no step of the whole block's environment breaks "running implies
armed", and the count of a running supervisor stays below the value whose increment would wrap. -/
def Obligations.StepKeepsSupervisorInvariant : Prop :=
  ∀ s t : State, s.sup.Inv → s.componentNext = false → step s = .next t → t.sup.Inv

/-- 10_state.md R35: `tx_int_en` is what the last enable or disable emitted says, and `running` what the last
start or stop says (60_exceptions.md R226); every step keeps it so. -/
def Obligations.StepKeepsSignalMirrors : Prop :=
  ∀ s t : State, s.MirrorsSignals → step s = .next t → t.MirrorsSignals

/-- 00_scope.md R9: a parameter never changes; and `inited` is never cleared (10_state.md R39). -/
def Obligations.ParametersNeverChange : Prop :=
  ∀ s t : State, step s = .next t →
    t.cfg = s.cfg ∧ (s.bridge.inited = true → t.bridge.inited = true)

/-- 41_frame_parser.md R140: the parser's state changes only as tabled. -/
def Obligations.ParserStatesNotSkipped : Prop :=
  ∀ s t : State, step s = .next t → s.parser.st.mayBecome t.parser.st = true

/-- 10_state.md R48, 41_frame_parser.md R137: an operation of the interrupt context never touches the parser,
the poll context's or the callback's record, the parameters, the armed flag or the budget. -/
def Obligations.InterruptsLeaveParserAlone : Prop :=
  ∀ s t : State, s.isrNext = true → step s = .next t →
    t.parser = s.parser ∧ t.pollFlight = s.pollFlight ∧ t.cbFlight = s.cbFlight ∧ t.cfg = s.cfg ∧
      t.sup.armed = s.sup.armed ∧ t.sup.tickBudget = s.sup.tickBudget

/-- 20_memory.md R64: the bytes sent so far followed by the bytes queued in `OUT` only ever grow at the end,
by at most one byte a step: nothing queued is lost, repeated or overtaken. -/
def Obligations.SentThenQueuedOnlyGrows : Prop :=
  ∀ s t : State, s.Inv → s.componentNext = false → step s = .next t →
    ∃ l : List Byte, l.length ≤ 1 ∧
      sentBytes t.trace ++ t.outbound.contents t.cfg.capOut =
        sentBytes s.trace ++ s.outbound.contents s.cfg.capOut ++ l

/-! ## The ring buffer -/

/-- 40_ring_buffer.md R100, R101: `PUSH` with its encoding; its full test holds exactly with `C - 1` live
bytes. -/
def Obligations.PushStoresOrReportsFull : Prop :=
  (∀ (arg : Word) (data : List Byte),
      decode ⟨0x10#8, arg, data⟩ = .ok (.push .inbound (arg.extractLsb' 0 8)) ∧
      decode ⟨0x18#8, arg, data⟩ = .ok (.push .outbound (arg.extractLsb' 0 8))) ∧
  ∀ (f : BufSel) (b : Byte) (s : State), s.PrimitiveMayIssue →
    ((s.ring f).wr = (s.ring f).rd →
      exec (.push f b) s = .next { s with answers := s.answers ++ [⟨.component, .full, 0#32⟩] }) ∧
    ((s.ring f).wr ≠ (s.ring f).rd → (s.ring f).wr.toNat < (s.cap f).toNat →
      exec (.push f b) s = .next
        { s.setRing f
            { rd := (s.ring f).rd
              wr := BitVec.ofNat 32 (((s.ring f).wr.toNat + 1) % (s.cap f).toNat)
              buf := (s.ring f).buf.write (s.ring f).wr.toNat b } with
          answers := s.answers ++ [⟨.component, .ok, 0#32⟩] }) ∧
    ((s.ring f).rd.toNat < (s.cap f).toNat → (s.ring f).wr.toNat < (s.cap f).toNat →
      ((s.ring f).wr = (s.ring f).rd ↔ (s.ring f).live (s.cap f) = (s.cap f).toNat - 1))

/-- 40_ring_buffer.md R103, R104: `POP` with its encoding; it advances and then reads; its empty test holds
exactly with no live byte. -/
def Obligations.PopAdvancesThenReads : Prop :=
  (∀ (arg : Word) (data : List Byte),
      decode ⟨0x11#8, arg, data⟩ = .ok (.pop .inbound) ∧
      decode ⟨0x19#8, arg, data⟩ = .ok (.pop .outbound)) ∧
  ∀ (f : BufSel) (s : State), s.PrimitiveMayIssue →
    let n : Word := BitVec.ofNat 32 (((s.ring f).rd.toNat + 1) % (s.cap f).toNat)
    (n = (s.ring f).wr →
      exec (.pop f) s = .next { s with answers := s.answers ++ [⟨.component, .empty, 0#32⟩] }) ∧
    (∀ b : Byte, n ≠ (s.ring f).wr → (s.ring f).buf.read n.toNat = some b →
      exec (.pop f) s = .next
        { s.setRing f { s.ring f with rd := n } with
          answers := s.answers ++ [⟨.component, .ok, b.setWidth 32⟩] }) ∧
    ((s.ring f).rd.toNat < (s.cap f).toNat → (s.ring f).wr.toNat < (s.cap f).toNat →
      (n = (s.ring f).wr ↔ (s.ring f).live (s.cap f) = 0))

/-- 40_ring_buffer.md R106, R107: the predicates, with their encodings. -/
def Obligations.PredicatesAnswer : Prop :=
  (∀ (arg : Word) (data : List Byte),
      decode ⟨0x12#8, arg, data⟩ = .ok (.isFull .inbound) ∧
      decode ⟨0x1A#8, arg, data⟩ = .ok (.isFull .outbound) ∧
      decode ⟨0x13#8, arg, data⟩ = .ok (.isEmpty .inbound) ∧
      decode ⟨0x1B#8, arg, data⟩ = .ok (.isEmpty .outbound)) ∧
  ∀ (f : BufSel) (s : State), s.PrimitiveMayIssue →
    exec (.isFull f) s = .next { s with answers := s.answers ++
      [⟨.component, .ok, if (s.ring f).wr = (s.ring f).rd then 1#32 else 0#32⟩] } ∧
    exec (.isEmpty f) s = .next { s with answers := s.answers ++
      [⟨.component, .ok,
        if BitVec.ofNat 32 (((s.ring f).rd.toNat + 1) % (s.cap f).toNat) = (s.ring f).wr
        then 1#32 else 0#32⟩] }

/-- 40_ring_buffer.md R109, R110: `FLUSH`, with its encoding; the array is not written, and no byte is live. -/
def Obligations.FlushEmpties : Prop :=
  (∀ (arg : Word) (data : List Byte),
      decode ⟨0x14#8, arg, data⟩ = .ok (.flush .inbound) ∧
      decode ⟨0x1C#8, arg, data⟩ = .ok (.flush .outbound)) ∧
  ∀ (f : BufSel) (s : State), s.PrimitiveMayIssue →
    exec (.flush f) s = .next
      { s.setRing f { rd := 0#32, wr := 1#32, buf := (s.ring f).buf } with
        answers := s.answers ++ [⟨.component, .ok, 0#32⟩] } ∧
    (s.ring f).flush.isEmpty (s.cap f) = true ∧ (s.ring f).flush.isFull = false ∧
    (s.ring f).flush.contents (s.cap f) = []

/-- 40_ring_buffer.md R108: the predicates agree with the operations, never both hold, and the other agent can
only move the buffer away from the failure. -/
def Obligations.PredicatesAgreeWithOperations : Prop :=
  ∀ (id : MemId) (c : Word) (b : Byte) (f : Ring), 2 ≤ c.toNat → f.rd.toNat < c.toNat →
    f.wr.toNat < c.toNat →
    (f.isFull = true ↔ f.push id c b = .ok none) ∧
    (f.isEmpty c = true ↔ f.pop id c = .ok none) ∧
    ¬ (f.isFull = true ∧ f.isEmpty c = true) ∧
    (∀ (v : Byte) (g : Ring), f.isFull = false → f.pop id c = .ok (some (v, g)) → g.isFull = false) ∧
    (∀ g : Ring, f.isEmpty c = false → f.push id c b = .ok (some g) → g.isEmpty c = false)

/-- 40_ring_buffer.md R116: the wrap is a compare-and-zero and the sum never overflows. -/
def Obligations.IndexWrapsByCompare : Prop :=
  ∀ c x : Word, x.toNat < c.toNat →
    (nextIndex c x).toNat = (if x.toNat = c.toNat - 1 then 0 else x.toNat + 1)

/-- 10_state.md R23, 40_ring_buffer.md R113, R115: a ring buffer is a queue of bounded length. With the
invariant, the contents have the live count as length, `PUSH` appends the byte at the end or, with `C - 1`
bytes queued, reports `Full`, `POP` takes the first byte or, with none, reports `Empty`, and neither faults. -/
def Obligations.RingRefinesBoundedQueue : Prop :=
  ∀ (id : MemId) (c : Word) (b : Byte) (f : Ring), 2 ≤ c.toNat → f.Inv c →
    (f.contents c).length = f.live c ∧
    (match f.push id c b with
     | .ok (some g) => g.Inv c ∧ f.live c < c.toNat - 1 ∧ g.contents c = f.contents c ++ [b]
     | .ok none => f.live c = c.toNat - 1
     | .error _ => False) ∧
    (match f.pop id c with
     | .ok (some (v, g)) => g.Inv c ∧ f.contents c = v :: g.contents c
     | .ok none => f.contents c = []
     | .error _ => False)

/-- 40_ring_buffer.md R112: with no pop between, exactly `C - 1 - n` pushes succeed, `n` the bytes queued
before, and the next answers `Full`; from the flushed state the `C - 1` pushes fill the slots `1, …, C - 1` in
order and leave both indices 0. -/
def Obligations.UsableCapacityIsOneLess : Prop :=
  (∀ (id : MemId) (c : Word) (f : Ring) (bytes : List Byte), 2 ≤ c.toNat → f.Inv c →
    (f.live c + bytes.length ≤ c.toNat - 1 →
      ∃ g, f.pushAll id c bytes = .ok (some g) ∧ g.contents c = f.contents c ++ bytes) ∧
    (c.toNat - 1 < f.live c + bytes.length → f.pushAll id c bytes = .ok none)) ∧
  ∀ (id : MemId) (c : Word) (f : Ring) (bytes : List Byte), 2 ≤ c.toNat → f.buf.wf c.toNat →
    (bytes.length = c.toNat - 1 →
      ∃ g, f.flush.pushAll id c bytes = .ok (some g) ∧ g.rd = 0#32 ∧ g.wr = 0#32 ∧
        ∀ k < bytes.length, g.buf.read (k + 1) = bytes[k]?) ∧
    (c.toNat - 1 < bytes.length → f.flush.pushAll id c bytes = .ok none)

/-- 40_ring_buffer.md R114: a freshly flushed buffer is empty; after one push exactly one pop succeeds and
returns the byte. -/
def Obligations.OnePushOnePop : Prop :=
  ∀ (id : MemId) (c : Word) (b : Byte) (f : Ring), 2 ≤ c.toNat →
    f.flush.pop id c = .ok none ∧
    ∃ g h, f.flush.push id c b = .ok (some g) ∧ g.buf.read 1 = some b ∧
      g.wr.toNat = (if c.toNat = 2 then 0 else 2) ∧
      g.pop id c = .ok (some (b, h)) ∧ h.rd = 1#32 ∧ h.pop id c = .ok none

/-- What the ring-buffer primitives leave unchanged (10_state.md R48, 40_ring_buffer.md R101, R104, R110):
everything but the buffer they name and the log of responses; `PUSH` stores only at the write index, the
others store nothing; `PUSH` keeps `rd`, `POP` keeps `wr`. -/
def Obligations.RingPrimitivesFrame : Prop :=
  ∀ (f : BufSel) (b : Byte) (s t : State),
    (exec (.push f b) s = .next t →
      t = { s with inbound := t.inbound, outbound := t.outbound, answers := t.answers } ∧
      (∀ g, g ≠ f → t.ring g = s.ring g) ∧ (t.ring f).rd = (s.ring f).rd ∧
      ∀ (m : MemId) (i : Nat), ¬ (m = bufMem f ∧ i = (s.ring f).wr.toNat) →
        t.byteAt m i = s.byteAt m i) ∧
    (exec (.pop f) s = .next t →
      t = { s with inbound := t.inbound, outbound := t.outbound, answers := t.answers } ∧
      (∀ g, g ≠ f → t.ring g = s.ring g) ∧ (t.ring f).wr = (s.ring f).wr ∧
      ∀ (m : MemId) (i : Nat), t.byteAt m i = s.byteAt m i) ∧
    (exec (.flush f) s = .next t →
      t = { s with inbound := t.inbound, outbound := t.outbound, answers := t.answers } ∧
      (∀ g, g ≠ f → t.ring g = s.ring g) ∧
      ∀ (m : MemId) (i : Nat), t.byteAt m i = s.byteAt m i) ∧
    (exec (.isFull f) s = .next t → t = { s with answers := t.answers }) ∧
    (exec (.isEmpty f) s = .next t → t = { s with answers := t.answers })

/-! ## The parser -/

/-- 41_frame_parser.md R124, R125, R126: `FEED`, with its encoding, of the two ByteCount bytes. A zero count ends
in `ByteCountError` with the parser reset and the supervisor stopped; a count of 1 or 2 wraps. -/
def Obligations.FeedCountBytes : Prop :=
  (∀ (arg : Word) (data : List Byte),
      decode ⟨0x20#8, arg, data⟩ = .ok (.feed (arg.extractLsb' 0 8))) ∧
  ∀ (b : Byte) (s : State), s.ComponentMayIssue →
    (s.parser.st = .awaitCountLow →
      exec (.feed b) s = .next { s with
        parser := { s.parser with countLo := b, st := .awaitCountHigh }
        answers := s.answers ++ [⟨.component, .inProgress, 0#32⟩] }) ∧
    (s.parser.st = .awaitCountHigh → b ++ s.parser.countLo ≠ 0#16 →
      exec (.feed b) s = .next { s with
        parser := { s.parser with
          count := b ++ s.parser.countLo
          payloadLen := (b ++ s.parser.countLo) - 3#16
          st := .awaitFuncCode }
        answers := s.answers ++ [⟨.component, .inProgress, 0#32⟩] }) ∧
    (s.parser.st = .awaitCountHigh → b ++ s.parser.countLo = 0#16 →
      exec (.feed b) s = .next { s with
        parser := FrameParser.initial
        sup := { s.sup with running := false }
        trace := if s.sup.running then s.trace ++ [.timerStop] else s.trace
        answers := s.answers ++ [⟨.component, .byteCountError, 0#32⟩] })

/-- 41_frame_parser.md R127: the function code, folded once; an empty payload is skipped. -/
def Obligations.FeedFuncCode : Prop :=
  ∀ (b : Byte) (s : State), s.ComponentMayIssue → s.parser.st = .awaitFuncCode →
    (s.parser.payloadLen = 0#16 →
      exec (.feed b) s = .next { s with
        parser := { s.parser with
          funcCode := b, crcAcc := crcStep s.parser.crcAcc b, st := .awaitCrcLow }
        answers := s.answers ++ [⟨.component, .inProgress, 0#32⟩] }) ∧
    (s.parser.payloadLen ≠ 0#16 →
      exec (.feed b) s = .next { s with
        parser := { s.parser with
          funcCode := b, crcAcc := crcStep s.parser.crcAcc b, pbufLive := true, st := .awaitPayload }
        answers := s.answers ++ [⟨.component, .inProgress, 0#32⟩] })

/-- 41_frame_parser.md R129: a payload byte is stored at the cursor and folded; the end is tested after the
increment. -/
def Obligations.FeedPayloadByte : Prop :=
  ∀ (b : Byte) (s : State), s.ComponentMayIssue → s.parser.st = .awaitPayload →
    s.parser.cursor.toNat < 65535 →
    exec (.feed b) s = .next { s with
      parser := { s.parser with
        pbuf := s.parser.pbuf.write s.parser.cursor.toNat b
        crcAcc := crcStep s.parser.crcAcc b
        cursor := s.parser.cursor + 1#16
        st := if s.parser.cursor + 1#16 = s.parser.payloadLen then .awaitCrcLow else .awaitPayload }
      answers := s.answers ++ [⟨.component, .inProgress, 0#32⟩] }

/-- 41_frame_parser.md R130 to R133 (first part), R135: the two CRC bytes. A mismatch ends in `CrcError`, a
match enters `Complete` and calls the callback. A `FEED` on `Complete` is refused, whatever is in flight, in
particular while the callback runs; that `feedInComplete` is then reported and not `pollBusy` is the model's order
(DESIGN CHOICE, log entry 9). The record in which a
`FEED` issued alone waits for the callback is the model's (DESIGN CHOICE, log entry 8). -/
def Obligations.FeedCrcBytes : Prop :=
  (∀ (b : Byte) (s : State), s.ComponentMayIssue →
    (s.parser.st = .awaitCrcLow →
      exec (.feed b) s = .next { s with
        parser := { s.parser with crcInLo := b, st := .awaitCrcHigh }
        answers := s.answers ++ [⟨.component, .inProgress, 0#32⟩] }) ∧
    (s.parser.st = .awaitCrcHigh → b ++ s.parser.crcInLo ≠ s.parser.crcAcc →
      exec (.feed b) s = .next { s with
        parser := FrameParser.initial
        sup := { s.sup with running := false }
        trace := if s.sup.running then s.trace ++ [.timerStop] else s.trace
        answers := s.answers ++ [⟨.component, .crcError, 0#32⟩] }) ∧
    (s.parser.st = .awaitCrcHigh → b ++ s.parser.crcInLo = s.parser.crcAcc →
      exec (.feed b) s = .next { s with
        parser := { s.parser with crcIn := b ++ s.parser.crcInLo, st := .complete }
        pollFlight := some .feedInCallback })) ∧
  ∀ (b : Byte) (s : State), s.PrimitiveMayIssue → s.parser.st = .complete →
    exec (.feed b) s = .refused .feedInComplete

/-- 41_frame_parser.md R138: `RESET`, with its encoding, from any state of the parser, `Complete` included, and
with whatever in flight; what is in flight stays (in `Complete` a DESIGN CHOICE, log entry 25). -/
def Obligations.ResetClearsParser : Prop :=
  (∀ (arg : Word) (data : List Byte), decode ⟨0x21#8, arg, data⟩ = .ok .reset) ∧
  ∀ s : State, s.PrimitiveMayIssue →
    exec .reset s = .next { s with
      parser := ⟨.awaitCountLow, 0#8, 0#16, 0#16, 0#8, 0#16, 0xFFFF#16, 0#8, 0#16, false, []⟩
      answers := s.answers ++ [⟨.component, .ok, 0#32⟩] }

/-- What `FEED` and `RESET` leave unchanged: `FEED` writes the parser, the running flag, the trace and the
record that waits for the callback, and stores at most the byte at the cursor of `pbuf`, unless the frame ends
in an error, where `pbuf` is released; `RESET` writes the parser alone. Neither touches a ring buffer. -/
def Obligations.ParserPrimitivesFrame : Prop :=
  ∀ (b : Byte) (s t : State),
    (exec (.feed b) s = .next t →
      t = { s with
        parser := t.parser, sup := { s.sup with running := t.sup.running }, trace := t.trace
        pollFlight := t.pollFlight, answers := t.answers } ∧
      (t.parser = FrameParser.initial ∨
        ∀ i : Nat, ¬ (s.parser.st = .awaitPayload ∧ i = s.parser.cursor.toNat) →
          t.byteAt .pbuf i = s.byteAt .pbuf i) ∧
      ∀ i : Nat, t.byteAt .inBuf i = s.byteAt .inBuf i ∧ t.byteAt .outBuf i = s.byteAt .outBuf i) ∧
    (exec .reset s = .next t →
      t = { s with parser := t.parser, answers := t.answers } ∧
      ∀ i : Nat, t.byteAt .inBuf i = s.byteAt .inBuf i ∧ t.byteAt .outBuf i = s.byteAt .outBuf i)

/-- 41_frame_parser.md R141, R142, 30_encoding.md R76: from the reset parser, two ByteCount bytes other than
zero, a function code, exactly `count - 3` (modulo 2^16) payload bytes and one CRC byte are each answered
`InProgress`; the parser then holds the function code and the payload, and the next byte ends the frame: it is
valid exactly when the CRC bytes are the CRC of the function code and the payload. Two zero bytes end in
`ByteCountError`. -/
def Obligations.ParserMeasuresAndChecksFrames : Prop :=
  (∀ (lo hi fc c0 c1 : Byte) (payload : List Byte), hi ++ lo ≠ 0#16 →
    payload.length = ((hi ++ lo) - 3#16).toNat →
    ∃ q : FrameParser,
      FrameParser.initial.feedAll ([lo, hi, fc] ++ payload ++ [c0]) = some q ∧
      q.st = .awaitCrcHigh ∧ q.funcCode = fc ∧ q.payloadLen = (hi ++ lo) - 3#16 ∧
      q.pbuf.map Prod.snd = payload ∧
      (c1 ++ c0 = crc16 (fc :: payload) →
        q.feed c1 = .crcMatch { q with crcIn := c1 ++ c0, st := .complete }) ∧
      (c1 ++ c0 ≠ crc16 (fc :: payload) → q.feed c1 = .crcError { q with crcIn := c1 ++ c0 })) ∧
  ∃ q : FrameParser, FrameParser.initial.feedAll [0#8] = some q ∧
    q.feed 0#8 = .byteCountError { q with count := 0#16 }

/-- 41_frame_parser.md R141 (encode-then-parse round trip): for every function code and every payload the
encoder takes, the parser answers `InProgress` to every byte of the frame but the last and finds the frame
valid at the last, with the same function code, payload length and payload. -/
def Obligations.EncodeThenParseRoundTrip : Prop :=
  ∀ (fc : Byte) (payload : List Byte), payload.length ≤ 65532 →
    ∃ (body : List Byte) (last : Byte) (q p : FrameParser),
      frameBytes fc payload = body ++ [last] ∧
      FrameParser.initial.feedAll body = some q ∧ q.feed last = .crcMatch p ∧
      p.st = .complete ∧ p.funcCode = fc ∧ p.payloadLen.toNat = payload.length ∧
      p.pbuf = (List.range payload.length).zip payload

/-! ## The encoder -/

/-- 42_frame_encoder.md R151, 30_encoding.md R75: the layout of a frame. -/
def Obligations.FrameLayout : Prop :=
  ∀ (fc : Byte) (payload : List Byte), payload.length ≤ 65532 →
    ∃ n0 n1 c0 c1 : Byte,
      frameBytes fc payload = [n0, n1, fc] ++ payload ++ [c0, c1] ∧
      (n1 ++ n0 : Half).toNat = 3 + payload.length ∧ (c1 ++ c0 : Half) = crc16 (fc :: payload) ∧
      (frameBytes fc payload).length = payload.length + 5

/-- 42_frame_encoder.md R155: a payload longer than 65532 bytes, or of another length than `L`, is refused.
That `payloadTooLong` is the one reported where both refusals hold is the model's order (DESIGN CHOICE, log
entry 9), so the second clause takes `L` up to 65532. -/
def Obligations.EncodeRefusesBadPayload : Prop :=
  ∀ (fc : Byte) (len : Half) (payload : List Byte) (s : State), s.EnqueueMayIssue →
    (65532 < len.toNat → exec (.encodeAndEnqueue fc len payload) s = .refused .payloadTooLong) ∧
    (len.toNat ≤ 65532 → payload.length ≠ len.toNat →
      exec (.encodeAndEnqueue fc len payload) s = .refused .payloadLengthMismatch)

/-- 42_frame_encoder.md R152, R153: the first step of `ENCODE_AND_ENQUEUE`, by the poll context or the
callback, with its encoding: the frame is taken when the operation is issued and its first byte is pushed; a
`Full` is remembered. `OUT` alone is written, at the write index. That the frame is taken in the step of the
first push is DEDUCED (log entry 15). -/
def Obligations.EncodePushesFirstByte : Prop :=
  (∀ (arg : Word) (data : List Byte), decode ⟨0x30#8, arg, data⟩ =
      .ok (.encodeAndEnqueue (arg.extractLsb' 0 8) (arg.extractLsb' 8 16) data)) ∧
  ∀ (fc : Byte) (len : Half) (payload : List Byte) (s : State), s.EnqueueMayIssue →
    len.toNat ≤ 65532 → payload.length = len.toNat →
    (s.outbound.wr = s.outbound.rd →
      exec (.encodeAndEnqueue fc len payload) s =
        .next (s.setEnq s.issuer (some (.encode 0 (frameBytes fc payload) true)))) ∧
    (s.outbound.wr ≠ s.outbound.rd → s.outbound.wr.toNat < s.cfg.capOut.toNat →
      ∃ b, (frameBytes fc payload)[0]? = some b ∧
      exec (.encodeAndEnqueue fc len payload) s = .next
        (State.setEnq s.issuer (some (.encode 1 (frameBytes fc payload) false))
          { s with outbound :=
              { rd := s.outbound.rd
                wr := BitVec.ofNat 32 ((s.outbound.wr.toNat + 1) % s.cfg.capOut.toNat)
                buf := s.outbound.buf.write s.outbound.wr.toNat b } }))

/-- 42_frame_encoder.md R152 to R154, 20_memory.md R60: the later steps of `ENCODE_AND_ENQUEUE`, by the poll
context and by the callback: one push a step in order; after a failed push nothing more is pushed; after a
failed push or the last byte the last step emits `tx_int_enable` once, sets `tx_int_en` and ends with `FifoFull`
or `Ok`. -/
def Obligations.EncodeLaterSteps : Prop :=
  ∀ (a : Agent) (i : Nat) (bytes : List Byte) (failed : Bool) (s : State), s.cfg.valid = true →
    (a = .poll ∧ s.pollFlight = some (.enq (.encode i bytes failed)) ∨
      a = .callback ∧ s.cbFlight = some (.encode i bytes failed)) →
    let go := if a = .callback then resumeCallback s else resumePoll s
    (failed = true ∨ bytes.length ≤ i →
      go = .next { State.setEnq a none s with
        bridge := { s.bridge with txIntEn := true }
        trace := s.trace ++ [.txIntEnable]
        answers := s.answers ++ [⟨a, if failed then .fifoFull else .ok, 0#32⟩] }) ∧
    (∀ b, failed = false → bytes[i]? = some b → s.outbound.wr = s.outbound.rd →
      go = .next (s.setEnq a (some (.encode i bytes true)))) ∧
    (∀ b, failed = false → bytes[i]? = some b → s.outbound.wr ≠ s.outbound.rd →
      s.outbound.wr.toNat < s.cfg.capOut.toNat →
      go = .next (State.setEnq a (some (.encode (i + 1) bytes false))
        { s with outbound :=
            { rd := s.outbound.rd
              wr := BitVec.ofNat 32 ((s.outbound.wr.toNat + 1) % s.cfg.capOut.toNat)
              buf := s.outbound.buf.write s.outbound.wr.toNat b } }))

/-- 42_frame_encoder.md R157: with at least `L + 5` free slots in `OUT` and no interrupt operation between the
steps, `ENCODE_AND_ENQUEUE` queues the whole frame behind what was queued, and ends with `Ok`. -/
def Obligations.EncodeQueuesWholeFrame : Prop :=
  ∀ (fc : Byte) (len : Half) (payload : List Byte) (s : State), s.PollMayIssue →
    s.outbound.Inv s.cfg.capOut → len.toNat ≤ 65532 → payload.length = len.toNat →
    payload.length + 5 ≤ s.cfg.capOut.toNat - 1 - s.outbound.live s.cfg.capOut →
    ∃ t u : State, exec (.encodeAndEnqueue fc len payload) s = .next t ∧
      resumePollTimes (payload.length + 5) t = .next u ∧
      u.outbound.contents s.cfg.capOut =
        s.outbound.contents s.cfg.capOut ++ frameBytes fc payload ∧
      u = { s with
        outbound := u.outbound
        bridge := { s.bridge with txIntEn := true }
        trace := s.trace ++ [.txIntEnable]
        answers := s.answers ++ [⟨.poll, .ok, 0#32⟩] }

/-- 42_frame_encoder.md R156: the two steps of `ENQUEUE_BYTE`, by the poll context or the callback, with its
encoding. -/
def Obligations.EnqueueByteSteps : Prop :=
  (∀ (arg : Word) (data : List Byte),
      decode ⟨0x31#8, arg, data⟩ = .ok (.enqueueByte (arg.extractLsb' 0 8))) ∧
  (∀ (b : Byte) (s : State), s.EnqueueMayIssue →
    (s.outbound.wr = s.outbound.rd →
      exec (.enqueueByte b) s = .next (s.setEnq s.issuer (some (.enqueueByte .full)))) ∧
    (s.outbound.wr ≠ s.outbound.rd → s.outbound.wr.toNat < s.cfg.capOut.toNat →
      exec (.enqueueByte b) s = .next
        (State.setEnq s.issuer (some (.enqueueByte .ok))
          { s with outbound :=
              { rd := s.outbound.rd
                wr := BitVec.ofNat 32 ((s.outbound.wr.toNat + 1) % s.cfg.capOut.toNat)
                buf := s.outbound.buf.write s.outbound.wr.toNat b } }))) ∧
  ∀ (a : Agent) (p : PushStatus) (s : State), s.cfg.valid = true →
    (a = .poll ∧ s.pollFlight = some (.enq (.enqueueByte p)) ∨
      a = .callback ∧ s.cbFlight = some (.enqueueByte p)) →
    (if a = .callback then resumeCallback s else resumePoll s) = .next
      { State.setEnq a none s with
        bridge := { s.bridge with txIntEn := true }
        trace := s.trace ++ [.txIntEnable]
        answers := s.answers ++ [⟨a, if p = .full then .fifoFull else .ok, 0#32⟩] }

/-- What the first steps of the two enqueue operations leave unchanged (10_state.md R48): everything but `OUT`
and the record in flight; `OUT.rd` is kept and only the byte at the write index of `OUT.buf` may change. -/
def Obligations.EncoderFrame : Prop :=
  ∀ (i : Instr) (s t : State),
    ((∃ fc len payload, i = .encodeAndEnqueue fc len payload) ∨ ∃ b, i = .enqueueByte b) →
    exec i s = .next t →
      t = { s with outbound := t.outbound, pollFlight := t.pollFlight, cbFlight := t.cbFlight } ∧
      t.outbound.rd = s.outbound.rd ∧
      ∀ (m : MemId) (k : Nat), ¬ (m = .outBuf ∧ k = s.outbound.wr.toNat) →
        t.byteAt m k = s.byteAt m k

/-! ## The supervisor -/

/-- 43_timeout_supervisor.md R166: `ENABLE`, with its encoding, arms and sets the budget, nothing else. -/
def Obligations.EnableArms : Prop :=
  (∀ (arg : Word) (data : List Byte), decode ⟨0x40#8, arg, data⟩ = .ok (.enable arg)) ∧
  ∀ (n : Word) (s : State), s.PollMayIssue →
    exec (.enable n) s = .next { s with
      sup := { s.sup with armed := true, tickBudget := n }
      answers := s.answers ++ [⟨.poll, .ok, 0#32⟩] }

/-- 43_timeout_supervisor.md R174: `DISABLE`, with its encoding, stops and disarms; the parser, the budget and
the count stay. -/
def Obligations.DisableStopsAndDisarms : Prop :=
  (∀ (arg : Word) (data : List Byte), decode ⟨0x41#8, arg, data⟩ = .ok .disable) ∧
  ∀ s : State, s.PollMayIssue →
    exec .disable s = .next { s with
      sup := { s.sup with running := false, armed := false }
      trace := if s.sup.running then s.trace ++ [.timerStop] else s.trace
      answers := s.answers ++ [⟨.poll, .ok, 0#32⟩] }

/-- 43_timeout_supervisor.md R170 to R173: `TICK`, with its encoding: ignored while disarmed or stopped,
counted below the budget, and at the budget the supervisor stops and the parser is reset; always `Ok`. -/
def Obligations.TickCountsAndExpires : Prop :=
  (∀ (arg : Word) (data : List Byte), decode ⟨0x42#8, arg, data⟩ = .ok .tick) ∧
  ∀ s : State, s.PollMayIssue →
    (s.sup.armed = false ∨ s.sup.running = false →
      exec .tick s = .next { s with answers := s.answers ++ [⟨.poll, .ok, 0#32⟩] }) ∧
    (s.sup.armed = true → s.sup.running = true →
      (s.sup.tickCount + 1#32).toNat < s.sup.tickBudget.toNat →
      exec .tick s = .next { s with
        sup := { s.sup with tickCount := s.sup.tickCount + 1#32 }
        answers := s.answers ++ [⟨.poll, .ok, 0#32⟩] }) ∧
    (s.sup.armed = true → s.sup.running = true →
      s.sup.tickBudget.toNat ≤ (s.sup.tickCount + 1#32).toNat →
      exec .tick s = .next { s with
        sup := { s.sup with tickCount := s.sup.tickCount + 1#32, running := false }
        parser := FrameParser.initial
        trace := s.trace ++ [.timerStop]
        answers := s.answers ++ [⟨.poll, .ok, 0#32⟩] })

/-- 43_timeout_supervisor.md R167: `ON_FRAME_START`, with its encoding, starts or restarts. -/
def Obligations.FrameStartRestarts : Prop :=
  (∀ (arg : Word) (data : List Byte), decode ⟨0x43#8, arg, data⟩ = .ok .onFrameStart) ∧
  ∀ s : State, s.PrimitiveMayIssue →
    exec .onFrameStart s = .next { s with
      sup := { s.sup with running := true, tickCount := 0#32 }
      trace := if s.sup.running then s.trace else s.trace ++ [.timerStart]
      answers := s.answers ++ [⟨.component, .ok, 0#32⟩] }

/-- 43_timeout_supervisor.md R169: `SUP_STOP`, with its encoding, stops and says so only on the change. -/
def Obligations.SupStopStops : Prop :=
  (∀ (arg : Word) (data : List Byte), decode ⟨0x44#8, arg, data⟩ = .ok .supStop) ∧
  ∀ s : State, s.PrimitiveMayIssue →
    exec .supStop s = .next { s with
      sup := { s.sup with running := false }
      trace := if s.sup.running then s.trace ++ [.timerStop] else s.trace
      answers := s.answers ++ [⟨.component, .ok, 0#32⟩] }

/-- 43_timeout_supervisor.md R176: after the count was zeroed, fewer than `tick_budget` ticks leave the parser
as it is, and the `tick_budget`-th resets it and stops the supervisor, whatever the parser was doing. -/
def Obligations.TimeoutRecovery : Prop :=
  ∀ s : State, s.PollMayIssue → s.sup.armed = true → s.sup.running = true → s.sup.tickCount = 0#32 →
    (∀ k : Nat, k < s.sup.tickBudget.toNat →
      ∃ t, tickTimes k s = .next t ∧ t.parser = s.parser ∧
        t.sup = { s.sup with tickCount := BitVec.ofNat 32 k } ∧ t.trace = s.trace) ∧
    (0 < s.sup.tickBudget.toNat →
      ∃ t, tickTimes s.sup.tickBudget.toNat s = .next t ∧ t.parser = FrameParser.initial ∧
        t.sup = { s.sup with tickCount := s.sup.tickBudget, running := false } ∧
        t.trace = s.trace ++ [.timerStop] ∧ t.inbound = s.inbound)

/-- 43_timeout_supervisor.md R175: while the supervisor is disarmed and stopped, no step of the whole block's
environment starts it or emits a timer signal. -/
def Obligations.InertUntilEnabled : Prop :=
  ∀ s t : State, s.sup.armed = false → s.sup.running = false → s.componentNext = false →
    step s = .next t → t.sup.running = false ∧ timerSignals t.trace = timerSignals s.trace

/-- What the five supervisor operations leave unchanged: the ring buffers, the bridge, the records in flight,
and all memory, but that an expiring `TICK` resets the parser. -/
def Obligations.SupervisorFrame : Prop :=
  ∀ (i : Instr) (s t : State),
    ((∃ n, i = .enable n) ∨ i = .disable ∨ i = .tick ∨ i = .onFrameStart ∨ i = .supStop) →
    exec i s = .next t →
      t = { s with sup := t.sup, parser := t.parser, trace := t.trace, answers := t.answers } ∧
      (t.parser = s.parser ∨ i = .tick ∧ t.parser = FrameParser.initial) ∧
      ∀ k : Nat, t.byteAt .inBuf k = s.byteAt .inBuf k ∧ t.byteAt .outBuf k = s.byteAt .outBuf k

/-! ## The bridge -/

/-- 44_io_bridge.md R188, R189: `ON_BYTE_RECEIVED`, with its encoding: the supervisor is started or restarted
first if armed, and then the byte is queued in `IN` or `FifoFull` is returned. -/
def Obligations.ByteReceivedIsQueued : Prop :=
  (∀ (arg : Word) (data : List Byte),
      decode ⟨0x02#8, arg, data⟩ = .ok (.onByteReceived (arg.extractLsb' 0 8))) ∧
  ∀ (b : Byte) (s : State), s.IsrMayIssue →
    let sup := if s.sup.armed then { s.sup with running := true, tickCount := 0#32 } else s.sup
    let trace := if s.sup.armed && !s.sup.running then s.trace ++ [.timerStart] else s.trace
    (s.inbound.wr = s.inbound.rd →
      exec (.onByteReceived b) s = .next { s with
        sup := sup, trace := trace, answers := s.answers ++ [⟨.isr, .fifoFull, 0#32⟩] }) ∧
    (s.inbound.wr ≠ s.inbound.rd → s.inbound.wr.toNat < s.cfg.capIn.toNat →
      exec (.onByteReceived b) s = .next { s with
        inbound :=
          { rd := s.inbound.rd
            wr := BitVec.ofNat 32 ((s.inbound.wr.toNat + 1) % s.cfg.capIn.toNat)
            buf := s.inbound.buf.write s.inbound.wr.toNat b }
        sup := sup, trace := trace, answers := s.answers ++ [⟨.isr, .ok, 0#32⟩] })

/-- 44_io_bridge.md R192, R193: `ON_TRANSMIT_READY`, with its encoding: it sends the oldest byte of `OUT`, or,
with `OUT` empty, disables the transmit interrupt; while `tx_int_en = 0` 60_exceptions.md R218 gives it no move,
and that this is a refusal by name is the model's reading (DEDUCED, log entry 13). -/
def Obligations.TransmitReadySends : Prop :=
  (∀ (arg : Word) (data : List Byte), decode ⟨0x03#8, arg, data⟩ = .ok .onTransmitReady) ∧
  (∀ s : State, s.IsrMayIssue → s.bridge.txIntEn = true →
    let n : Word := BitVec.ofNat 32 ((s.outbound.rd.toNat + 1) % s.cfg.capOut.toNat)
    (n = s.outbound.wr →
      exec .onTransmitReady s = .next { s with
        bridge := { s.bridge with txIntEn := false }
        trace := s.trace ++ [.txIntDisable]
        answers := s.answers ++ [⟨.isr, .outFifoEmpty, 0#32⟩] }) ∧
    (∀ b : Byte, n ≠ s.outbound.wr → s.outbound.buf.read n.toNat = some b →
      exec .onTransmitReady s = .next { s with
        outbound := { s.outbound with rd := n }
        trace := s.trace ++ [.send b]
        answers := s.answers ++ [⟨.isr, .ok, 0#32⟩] })) ∧
  ∀ s : State, s.IsrMayIssue → s.bridge.txIntEn = false →
    exec .onTransmitReady s = .refused .transmitInterruptOff

/-- 44_io_bridge.md R195, R196, 20_memory.md R60: step 1 of `PROCESS_STEP`, with its encoding: the oldest byte
of `IN` is popped and held in flight, or `FifoEmpty` is returned. -/
def Obligations.ProcessStepPops : Prop :=
  (∀ (arg : Word) (data : List Byte), decode ⟨0x01#8, arg, data⟩ = .ok .processStep) ∧
  ∀ s : State, s.PollMayIssue →
    let n : Word := BitVec.ofNat 32 ((s.inbound.rd.toNat + 1) % s.cfg.capIn.toNat)
    (n = s.inbound.wr →
      exec .processStep s = .next { s with
        answers := s.answers ++ [⟨.poll, .fifoEmpty, 0#32⟩] }) ∧
    (∀ b : Byte, n ≠ s.inbound.wr → s.inbound.buf.read n.toNat = some b →
      exec .processStep s = .next { s with
        inbound := { s.inbound with rd := n }, pollFlight := some (.popped b) })

/-- 20_memory.md R60, 41_frame_parser.md R136: step 2 of `PROCESS_STEP`: `FEED` of the popped byte. A
non-terminal outcome ends the operation; a framing error resets the parser, stops the supervisor and ends the
operation with its status; a valid frame enters `Complete` and waits for the callback. -/
def Obligations.ProcessStepFeeds : Prop :=
  ∀ (b : Byte) (s : State), s.cfg.valid = true → s.pollFlight = some (.popped b) →
    (∀ p, s.parser.feed b = .inProgress p →
      resumePoll s = .next { s with
        parser := p, pollFlight := none, answers := s.answers ++ [⟨.poll, .inProgress, 0#32⟩] }) ∧
    (∀ p, s.parser.feed b = .byteCountError p →
      resumePoll s = .next { s with
        parser := FrameParser.initial
        sup := { s.sup with running := false }
        trace := if s.sup.running then s.trace ++ [.timerStop] else s.trace
        pollFlight := none, answers := s.answers ++ [⟨.poll, .byteCountError, 0#32⟩] }) ∧
    (∀ p, s.parser.feed b = .crcError p →
      resumePoll s = .next { s with
        parser := FrameParser.initial
        sup := { s.sup with running := false }
        trace := if s.sup.running then s.trace ++ [.timerStop] else s.trace
        pollFlight := none, answers := s.answers ++ [⟨.poll, .crcError, 0#32⟩] }) ∧
    (∀ p, s.parser.feed b = .crcMatch p →
      p.st = .complete ∧
      resumePoll s = .next { s with parser := p, pollFlight := some .inCallback })

/-- 41_frame_parser.md R133, 44_io_bridge.md R199: step 3: the callback's return, for every value `r`, resets
the parser, stops the supervisor and ends the operation with `Parsed(r)`. That a `FEED` issued alone may be the
one that waits is a DESIGN CHOICE (log entry 8), and that the return ends it after a `RESET` issued alone as well
is another (log entry 25); that the callback returns with no enqueue of its own in flight is DEDUCED (log entry 16). -/
def Obligations.CallbackReturnEndsFrame : Prop :=
  ∀ (r : Word) (s : State), s.cfg.valid = true → s.cbFlight = none → waitsForCallback s.pollFlight →
    callbackReturn r s = .next { s with
      parser := FrameParser.initial
      sup := { s.sup with running := false }
      trace := if s.sup.running then s.trace ++ [.timerStop] else s.trace
      pollFlight := none
      answers := s.answers ++
        [⟨if s.pollFlight = some .inCallback then .poll else .component, .parsed, r⟩] }

/-- What the two interrupt operations and step 1 of `PROCESS_STEP` leave unchanged (10_state.md R48): the
parser and the other ring buffer; `ON_BYTE_RECEIVED` stores only at the write index of `IN` and keeps `IN.rd`;
the other two store nothing and keep the write index. -/
def Obligations.BridgeFrame : Prop :=
  ∀ (b : Byte) (s t : State),
    (exec (.onByteReceived b) s = .next t →
      t = { s with
        inbound := t.inbound
        sup := { s.sup with running := t.sup.running, tickCount := t.sup.tickCount }
        trace := t.trace, answers := t.answers } ∧
      t.inbound.rd = s.inbound.rd ∧
      ∀ (m : MemId) (k : Nat), ¬ (m = .inBuf ∧ k = s.inbound.wr.toNat) →
        t.byteAt m k = s.byteAt m k) ∧
    (exec .onTransmitReady s = .next t →
      t = { s with
        outbound := t.outbound, bridge := { s.bridge with txIntEn := t.bridge.txIntEn }
        trace := t.trace, answers := t.answers } ∧
      t.outbound.wr = s.outbound.wr ∧
      ∀ (m : MemId) (k : Nat), t.byteAt m k = s.byteAt m k) ∧
    (exec .processStep s = .next t →
      t = { s with inbound := t.inbound, pollFlight := t.pollFlight, answers := t.answers } ∧
      t.inbound.wr = s.inbound.wr ∧
      ∀ (m : MemId) (k : Nat), t.byteAt m k = s.byteAt m k)

/-! ## The accessors -/

/-- 44_io_bridge.md R201, R202: the accessors of the function code and the payload length, with their
encodings. -/
def Obligations.FrameHeaderAccessors : Prop :=
  (∀ (arg : Word) (data : List Byte),
      decode ⟨0x50#8, arg, data⟩ = .ok .getFuncCode ∧
      decode ⟨0x51#8, arg, data⟩ = .ok .getPayloadLen) ∧
  ∀ s : State, s.CallbackMayIssue →
    exec .getFuncCode s = .next { s with
      answers := s.answers ++ [⟨.callback, .ok, s.parser.funcCode.setWidth 32⟩] } ∧
    exec .getPayloadLen s = .next { s with
      answers := s.answers ++ [⟨.callback, .ok, s.parser.payloadLen.setWidth 32⟩] }

/-- 44_io_bridge.md R203: `GET_PAYLOAD_BYTE`, with its encoding: it answers the byte, and an index not below
`payload_len` is refused. -/
def Obligations.PayloadByteAccessor : Prop :=
  (∀ (arg : Word) (data : List Byte),
      decode ⟨0x52#8, arg, data⟩ = .ok (.getPayloadByte (arg.extractLsb' 0 16))) ∧
  ∀ (i : Half) (s : State), s.CallbackMayIssue →
    (s.parser.payloadLen.toNat ≤ i.toNat →
      exec (.getPayloadByte i) s = .refused .payloadIndexOutOfRange) ∧
    (∀ b : Byte, i.toNat < s.parser.payloadLen.toNat → s.parser.pbuf.read i.toNat = some b →
      exec (.getPayloadByte i) s = .next { s with
        answers := s.answers ++ [⟨.callback, .ok, b.setWidth 32⟩] })

/-- 44_io_bridge.md R203, R204, 10_state.md R43: in a state with the invariant, while the callback runs every
index below `payload_len` is answered; outside it every accessor is refused. That `outsideCallback` is the name
reported where another refusal holds as well (an index out of range, an enqueue of the callback's own in flight) is
the model's order (DESIGN CHOICE, log entry 9). -/
def Obligations.AccessorsOnlyInCallback : Prop :=
  ∀ (s : State) (i : Half), s.Inv → s.issuer = .callback →
    (s.parser.st = .complete → s.cbFlight = none → i.toNat < s.parser.payloadLen.toNat →
      ∃ b, s.byteAt .pbuf i.toNat = some b ∧ exec (.getPayloadByte i) s = .next { s with
        answers := s.answers ++ [⟨.callback, .ok, b.setWidth 32⟩] }) ∧
    (s.parser.st ≠ .complete →
      exec .getFuncCode s = .refused .outsideCallback ∧
      exec .getPayloadLen s = .refused .outsideCallback ∧
      exec (.getPayloadByte i) s = .refused .outsideCallback)
end

