-- ==== Sys2Proof/Laws/State.lean ====
section
/-! SUPPORT. One lemma per field per named update of the state. -/

namespace Sys2Proof.Machine

variable (s : State)

/-! emit -/

@[simp] theorem State.emit_cfg (x : Signal) : (s.emit x).cfg = s.cfg := rfl
@[simp] theorem State.emit_inbound (x : Signal) : (s.emit x).inbound = s.inbound := rfl
@[simp] theorem State.emit_outbound (x : Signal) : (s.emit x).outbound = s.outbound := rfl
@[simp] theorem State.emit_parser (x : Signal) : (s.emit x).parser = s.parser := rfl
@[simp] theorem State.emit_sup (x : Signal) : (s.emit x).sup = s.sup := rfl
@[simp] theorem State.emit_bridge (x : Signal) : (s.emit x).bridge = s.bridge := rfl
@[simp] theorem State.emit_pollFlight (x : Signal) : (s.emit x).pollFlight = s.pollFlight := rfl
@[simp] theorem State.emit_cbFlight (x : Signal) : (s.emit x).cbFlight = s.cbFlight := rfl
@[simp] theorem State.emit_issuer (x : Signal) : (s.emit x).issuer = s.issuer := rfl
@[simp] theorem State.emit_sched (x : Signal) : (s.emit x).sched = s.sched := rfl
@[simp] theorem State.emit_trace (x : Signal) : (s.emit x).trace = s.trace ++ [x] := rfl
@[simp] theorem State.emit_answers (x : Signal) : (s.emit x).answers = s.answers := rfl

/-! answer -/

@[simp] theorem State.answer_cfg (a : Agent) (st : Status) (v : Word) : (s.answer a st v).cfg = s.cfg := rfl
@[simp] theorem State.answer_inbound (a : Agent) (st : Status) (v : Word) : (s.answer a st v).inbound = s.inbound := rfl
@[simp] theorem State.answer_outbound (a : Agent) (st : Status) (v : Word) : (s.answer a st v).outbound = s.outbound := rfl
@[simp] theorem State.answer_parser (a : Agent) (st : Status) (v : Word) : (s.answer a st v).parser = s.parser := rfl
@[simp] theorem State.answer_sup (a : Agent) (st : Status) (v : Word) : (s.answer a st v).sup = s.sup := rfl
@[simp] theorem State.answer_bridge (a : Agent) (st : Status) (v : Word) : (s.answer a st v).bridge = s.bridge := rfl
@[simp] theorem State.answer_pollFlight (a : Agent) (st : Status) (v : Word) : (s.answer a st v).pollFlight = s.pollFlight := rfl
@[simp] theorem State.answer_cbFlight (a : Agent) (st : Status) (v : Word) : (s.answer a st v).cbFlight = s.cbFlight := rfl
@[simp] theorem State.answer_issuer (a : Agent) (st : Status) (v : Word) : (s.answer a st v).issuer = s.issuer := rfl
@[simp] theorem State.answer_sched (a : Agent) (st : Status) (v : Word) : (s.answer a st v).sched = s.sched := rfl
@[simp] theorem State.answer_trace (a : Agent) (st : Status) (v : Word) : (s.answer a st v).trace = s.trace := rfl
@[simp] theorem State.answer_answers (a : Agent) (st : Status) (v : Word) : (s.answer a st v).answers = s.answers ++ [⟨a, st, v⟩] := rfl

/-! parserReset -/

@[simp] theorem State.parserReset_cfg  : (s.parserReset).cfg = s.cfg := rfl
@[simp] theorem State.parserReset_inbound  : (s.parserReset).inbound = s.inbound := rfl
@[simp] theorem State.parserReset_outbound  : (s.parserReset).outbound = s.outbound := rfl
@[simp] theorem State.parserReset_parser  : (s.parserReset).parser = FrameParser.initial := rfl
@[simp] theorem State.parserReset_sup  : (s.parserReset).sup = s.sup := rfl
@[simp] theorem State.parserReset_bridge  : (s.parserReset).bridge = s.bridge := rfl
@[simp] theorem State.parserReset_pollFlight  : (s.parserReset).pollFlight = s.pollFlight := rfl
@[simp] theorem State.parserReset_cbFlight  : (s.parserReset).cbFlight = s.cbFlight := rfl
@[simp] theorem State.parserReset_issuer  : (s.parserReset).issuer = s.issuer := rfl
@[simp] theorem State.parserReset_sched  : (s.parserReset).sched = s.sched := rfl
@[simp] theorem State.parserReset_trace  : (s.parserReset).trace = s.trace := rfl
@[simp] theorem State.parserReset_answers  : (s.parserReset).answers = s.answers := rfl

/-! takeMove -/

@[simp] theorem State.takeMove_cfg (a : Agent) (rest : List Move) : (s.takeMove a rest).cfg = s.cfg := rfl
@[simp] theorem State.takeMove_inbound (a : Agent) (rest : List Move) : (s.takeMove a rest).inbound = s.inbound := rfl
@[simp] theorem State.takeMove_outbound (a : Agent) (rest : List Move) : (s.takeMove a rest).outbound = s.outbound := rfl
@[simp] theorem State.takeMove_parser (a : Agent) (rest : List Move) : (s.takeMove a rest).parser = s.parser := rfl
@[simp] theorem State.takeMove_sup (a : Agent) (rest : List Move) : (s.takeMove a rest).sup = s.sup := rfl
@[simp] theorem State.takeMove_bridge (a : Agent) (rest : List Move) : (s.takeMove a rest).bridge = s.bridge := rfl
@[simp] theorem State.takeMove_pollFlight (a : Agent) (rest : List Move) : (s.takeMove a rest).pollFlight = s.pollFlight := rfl
@[simp] theorem State.takeMove_cbFlight (a : Agent) (rest : List Move) : (s.takeMove a rest).cbFlight = s.cbFlight := rfl
@[simp] theorem State.takeMove_issuer (a : Agent) (rest : List Move) : (s.takeMove a rest).issuer = a := rfl
@[simp] theorem State.takeMove_sched (a : Agent) (rest : List Move) : (s.takeMove a rest).sched = rest := rfl
@[simp] theorem State.takeMove_trace (a : Agent) (rest : List Move) : (s.takeMove a rest).trace = s.trace := rfl
@[simp] theorem State.takeMove_answers (a : Agent) (rest : List Move) : (s.takeMove a rest).answers = s.answers := rfl

/-! setRing -/

@[simp] theorem State.setRing_cfg (f : BufSel) (r : Ring) : (s.setRing f r).cfg = s.cfg := by cases f <;> rfl
@[simp] theorem State.setRing_parser (f : BufSel) (r : Ring) : (s.setRing f r).parser = s.parser := by cases f <;> rfl
@[simp] theorem State.setRing_sup (f : BufSel) (r : Ring) : (s.setRing f r).sup = s.sup := by cases f <;> rfl
@[simp] theorem State.setRing_bridge (f : BufSel) (r : Ring) : (s.setRing f r).bridge = s.bridge := by cases f <;> rfl
@[simp] theorem State.setRing_pollFlight (f : BufSel) (r : Ring) : (s.setRing f r).pollFlight = s.pollFlight := by cases f <;> rfl
@[simp] theorem State.setRing_cbFlight (f : BufSel) (r : Ring) : (s.setRing f r).cbFlight = s.cbFlight := by cases f <;> rfl
@[simp] theorem State.setRing_issuer (f : BufSel) (r : Ring) : (s.setRing f r).issuer = s.issuer := by cases f <;> rfl
@[simp] theorem State.setRing_sched (f : BufSel) (r : Ring) : (s.setRing f r).sched = s.sched := by cases f <;> rfl
@[simp] theorem State.setRing_trace (f : BufSel) (r : Ring) : (s.setRing f r).trace = s.trace := by cases f <;> rfl
@[simp] theorem State.setRing_answers (f : BufSel) (r : Ring) : (s.setRing f r).answers = s.answers := by cases f <;> rfl

@[simp] theorem State.setRing_inbound (r : Ring) : s.setRing .inbound r = { s with inbound := r } := rfl
@[simp] theorem State.setRing_outbound (r : Ring) : s.setRing .outbound r = { s with outbound := r } := rfl
@[simp] theorem State.ring_setRing (f : BufSel) (r : Ring) : (s.setRing f r).ring f = r := by cases f <;> rfl
@[simp] theorem State.ring_setRing_inbound_outbound (r : Ring) :
    (s.setRing .inbound r).ring .outbound = s.ring .outbound := rfl
@[simp] theorem State.ring_setRing_outbound_inbound (r : Ring) :
    (s.setRing .outbound r).ring .inbound = s.ring .inbound := rfl
@[simp] theorem State.ring_inbound : s.ring .inbound = s.inbound := rfl
@[simp] theorem State.ring_outbound : s.ring .outbound = s.outbound := rfl
@[simp] theorem State.cap_inbound : s.cap .inbound = s.cfg.capIn := rfl
@[simp] theorem State.cap_outbound : s.cap .outbound = s.cfg.capOut := rfl

/-! setEnq -/

@[simp] theorem State.setEnq_cfg (a : Agent) (e : Option EnqRecord) : (s.setEnq a e).cfg = s.cfg := by unfold State.setEnq; split <;> rfl
@[simp] theorem State.setEnq_inbound (a : Agent) (e : Option EnqRecord) : (s.setEnq a e).inbound = s.inbound := by unfold State.setEnq; split <;> rfl
@[simp] theorem State.setEnq_outbound (a : Agent) (e : Option EnqRecord) : (s.setEnq a e).outbound = s.outbound := by unfold State.setEnq; split <;> rfl
@[simp] theorem State.setEnq_parser (a : Agent) (e : Option EnqRecord) : (s.setEnq a e).parser = s.parser := by unfold State.setEnq; split <;> rfl
@[simp] theorem State.setEnq_sup (a : Agent) (e : Option EnqRecord) : (s.setEnq a e).sup = s.sup := by unfold State.setEnq; split <;> rfl
@[simp] theorem State.setEnq_bridge (a : Agent) (e : Option EnqRecord) : (s.setEnq a e).bridge = s.bridge := by unfold State.setEnq; split <;> rfl
@[simp] theorem State.setEnq_issuer (a : Agent) (e : Option EnqRecord) : (s.setEnq a e).issuer = s.issuer := by unfold State.setEnq; split <;> rfl
@[simp] theorem State.setEnq_sched (a : Agent) (e : Option EnqRecord) : (s.setEnq a e).sched = s.sched := by unfold State.setEnq; split <;> rfl
@[simp] theorem State.setEnq_trace (a : Agent) (e : Option EnqRecord) : (s.setEnq a e).trace = s.trace := by unfold State.setEnq; split <;> rfl
@[simp] theorem State.setEnq_answers (a : Agent) (e : Option EnqRecord) : (s.setEnq a e).answers = s.answers := by unfold State.setEnq; split <;> rfl

@[simp] theorem State.setEnq_poll (e : Option EnqRecord) :
    s.setEnq .poll e = { s with pollFlight := e.map .enq } := rfl
@[simp] theorem State.setEnq_callback (e : Option EnqRecord) :
    s.setEnq .callback e = { s with cbFlight := e } := rfl

/-! frameStart -/

@[simp] theorem State.frameStart_cfg  : (s.frameStart).cfg = s.cfg := by
  unfold State.frameStart; split <;> rfl
@[simp] theorem State.frameStart_inbound  : (s.frameStart).inbound = s.inbound := by
  unfold State.frameStart; split <;> rfl
@[simp] theorem State.frameStart_outbound  : (s.frameStart).outbound = s.outbound := by
  unfold State.frameStart; split <;> rfl
@[simp] theorem State.frameStart_parser  : (s.frameStart).parser = s.parser := by
  unfold State.frameStart; split <;> rfl
@[simp] theorem State.frameStart_bridge  : (s.frameStart).bridge = s.bridge := by
  unfold State.frameStart; split <;> rfl
@[simp] theorem State.frameStart_pollFlight  : (s.frameStart).pollFlight = s.pollFlight := by
  unfold State.frameStart; split <;> rfl
@[simp] theorem State.frameStart_cbFlight  : (s.frameStart).cbFlight = s.cbFlight := by
  unfold State.frameStart; split <;> rfl
@[simp] theorem State.frameStart_issuer  : (s.frameStart).issuer = s.issuer := by
  unfold State.frameStart; split <;> rfl
@[simp] theorem State.frameStart_sched  : (s.frameStart).sched = s.sched := by
  unfold State.frameStart; split <;> rfl
@[simp] theorem State.frameStart_answers  : (s.frameStart).answers = s.answers := by
  unfold State.frameStart; split <;> rfl

/-! noteArrival -/

@[simp] theorem State.noteArrival_cfg  : (s.noteArrival).cfg = s.cfg := by
  unfold State.noteArrival; split <;> simp
@[simp] theorem State.noteArrival_inbound  : (s.noteArrival).inbound = s.inbound := by
  unfold State.noteArrival; split <;> simp
@[simp] theorem State.noteArrival_outbound  : (s.noteArrival).outbound = s.outbound := by
  unfold State.noteArrival; split <;> simp
@[simp] theorem State.noteArrival_parser  : (s.noteArrival).parser = s.parser := by
  unfold State.noteArrival; split <;> simp
@[simp] theorem State.noteArrival_bridge  : (s.noteArrival).bridge = s.bridge := by
  unfold State.noteArrival; split <;> simp
@[simp] theorem State.noteArrival_pollFlight  : (s.noteArrival).pollFlight = s.pollFlight := by
  unfold State.noteArrival; split <;> simp
@[simp] theorem State.noteArrival_cbFlight  : (s.noteArrival).cbFlight = s.cbFlight := by
  unfold State.noteArrival; split <;> simp
@[simp] theorem State.noteArrival_issuer  : (s.noteArrival).issuer = s.issuer := by
  unfold State.noteArrival; split <;> simp
@[simp] theorem State.noteArrival_sched  : (s.noteArrival).sched = s.sched := by
  unfold State.noteArrival; split <;> simp
@[simp] theorem State.noteArrival_answers  : (s.noteArrival).answers = s.answers := by
  unfold State.noteArrival; split <;> simp

/-! supStop -/

@[simp] theorem State.supStop_cfg  : (s.supStop).cfg = s.cfg := by
  unfold State.supStop; split <;> rfl
@[simp] theorem State.supStop_inbound  : (s.supStop).inbound = s.inbound := by
  unfold State.supStop; split <;> rfl
@[simp] theorem State.supStop_outbound  : (s.supStop).outbound = s.outbound := by
  unfold State.supStop; split <;> rfl
@[simp] theorem State.supStop_parser  : (s.supStop).parser = s.parser := by
  unfold State.supStop; split <;> rfl
@[simp] theorem State.supStop_bridge  : (s.supStop).bridge = s.bridge := by
  unfold State.supStop; split <;> rfl
@[simp] theorem State.supStop_pollFlight  : (s.supStop).pollFlight = s.pollFlight := by
  unfold State.supStop; split <;> rfl
@[simp] theorem State.supStop_cbFlight  : (s.supStop).cbFlight = s.cbFlight := by
  unfold State.supStop; split <;> rfl
@[simp] theorem State.supStop_issuer  : (s.supStop).issuer = s.issuer := by
  unfold State.supStop; split <;> rfl
@[simp] theorem State.supStop_sched  : (s.supStop).sched = s.sched := by
  unfold State.supStop; split <;> rfl
@[simp] theorem State.supStop_answers  : (s.supStop).answers = s.answers := by
  unfold State.supStop; split <;> rfl

/-! terminate -/

@[simp] theorem State.terminate_cfg  : (s.terminate).cfg = s.cfg := by
  unfold State.terminate; simp
@[simp] theorem State.terminate_inbound  : (s.terminate).inbound = s.inbound := by
  unfold State.terminate; simp
@[simp] theorem State.terminate_outbound  : (s.terminate).outbound = s.outbound := by
  unfold State.terminate; simp
@[simp] theorem State.terminate_parser  : (s.terminate).parser = FrameParser.initial := by
  unfold State.terminate; simp
@[simp] theorem State.terminate_bridge  : (s.terminate).bridge = s.bridge := by
  unfold State.terminate; simp
@[simp] theorem State.terminate_pollFlight  : (s.terminate).pollFlight = s.pollFlight := by
  unfold State.terminate; simp
@[simp] theorem State.terminate_cbFlight  : (s.terminate).cbFlight = s.cbFlight := by
  unfold State.terminate; simp
@[simp] theorem State.terminate_issuer  : (s.terminate).issuer = s.issuer := by
  unfold State.terminate; simp
@[simp] theorem State.terminate_sched  : (s.terminate).sched = s.sched := by
  unfold State.terminate; simp
@[simp] theorem State.terminate_answers  : (s.terminate).answers = s.answers := by
  unfold State.terminate; simp

/-! disarm -/

@[simp] theorem State.disarm_cfg  : (s.disarm).cfg = s.cfg := by
  unfold State.disarm; simp
@[simp] theorem State.disarm_inbound  : (s.disarm).inbound = s.inbound := by
  unfold State.disarm; simp
@[simp] theorem State.disarm_outbound  : (s.disarm).outbound = s.outbound := by
  unfold State.disarm; simp
@[simp] theorem State.disarm_parser  : (s.disarm).parser = s.parser := by
  unfold State.disarm; simp
@[simp] theorem State.disarm_bridge  : (s.disarm).bridge = s.bridge := by
  unfold State.disarm; simp
@[simp] theorem State.disarm_pollFlight  : (s.disarm).pollFlight = s.pollFlight := by
  unfold State.disarm; simp
@[simp] theorem State.disarm_cbFlight  : (s.disarm).cbFlight = s.cbFlight := by
  unfold State.disarm; simp
@[simp] theorem State.disarm_issuer  : (s.disarm).issuer = s.issuer := by
  unfold State.disarm; simp
@[simp] theorem State.disarm_sched  : (s.disarm).sched = s.sched := by
  unfold State.disarm; simp
@[simp] theorem State.disarm_answers  : (s.disarm).answers = s.answers := by
  unfold State.disarm; simp

/-! countTick -/

@[simp] theorem State.countTick_cfg  : (s.countTick).cfg = s.cfg := by
  unfold State.countTick; split <;> [rfl; (dsimp only; split <;> simp)]
@[simp] theorem State.countTick_inbound  : (s.countTick).inbound = s.inbound := by
  unfold State.countTick; split <;> [rfl; (dsimp only; split <;> simp)]
@[simp] theorem State.countTick_outbound  : (s.countTick).outbound = s.outbound := by
  unfold State.countTick; split <;> [rfl; (dsimp only; split <;> simp)]
@[simp] theorem State.countTick_bridge  : (s.countTick).bridge = s.bridge := by
  unfold State.countTick; split <;> [rfl; (dsimp only; split <;> simp)]
@[simp] theorem State.countTick_pollFlight  : (s.countTick).pollFlight = s.pollFlight := by
  unfold State.countTick; split <;> [rfl; (dsimp only; split <;> simp)]
@[simp] theorem State.countTick_cbFlight  : (s.countTick).cbFlight = s.cbFlight := by
  unfold State.countTick; split <;> [rfl; (dsimp only; split <;> simp)]
@[simp] theorem State.countTick_issuer  : (s.countTick).issuer = s.issuer := by
  unfold State.countTick; split <;> [rfl; (dsimp only; split <;> simp)]
@[simp] theorem State.countTick_sched  : (s.countTick).sched = s.sched := by
  unfold State.countTick; split <;> [rfl; (dsimp only; split <;> simp)]
@[simp] theorem State.countTick_answers  : (s.countTick).answers = s.answers := by
  unfold State.countTick; split <;> [rfl; (dsimp only; split <;> simp)]

/-! finishEnq -/

@[simp] theorem State.finishEnq_cfg (a : Agent) (st : Status) : (s.finishEnq a st).cfg = s.cfg := by
  simp [State.finishEnq]
@[simp] theorem State.finishEnq_inbound (a : Agent) (st : Status) : (s.finishEnq a st).inbound = s.inbound := by
  simp [State.finishEnq]
@[simp] theorem State.finishEnq_outbound (a : Agent) (st : Status) : (s.finishEnq a st).outbound = s.outbound := by
  simp [State.finishEnq]
@[simp] theorem State.finishEnq_parser (a : Agent) (st : Status) : (s.finishEnq a st).parser = s.parser := by
  simp [State.finishEnq]
@[simp] theorem State.finishEnq_sup (a : Agent) (st : Status) : (s.finishEnq a st).sup = s.sup := by
  simp [State.finishEnq]
@[simp] theorem State.finishEnq_bridge (a : Agent) (st : Status) : (s.finishEnq a st).bridge = { s.bridge with txIntEn := true } := by
  simp [State.finishEnq]
@[simp] theorem State.finishEnq_issuer (a : Agent) (st : Status) : (s.finishEnq a st).issuer = s.issuer := by
  simp [State.finishEnq]
@[simp] theorem State.finishEnq_sched (a : Agent) (st : Status) : (s.finishEnq a st).sched = s.sched := by
  simp [State.finishEnq]
@[simp] theorem State.finishEnq_trace (a : Agent) (st : Status) : (s.finishEnq a st).trace = s.trace ++ [.txIntEnable] := by
  simp [State.finishEnq]
@[simp] theorem State.finishEnq_answers (a : Agent) (st : Status) : (s.finishEnq a st).answers = s.answers ++ [⟨a, st, 0#32⟩] := by
  simp [State.finishEnq]

/-! finishCallback -/

@[simp] theorem State.finishCallback_cfg (a : Agent) (r : Word) : (s.finishCallback a r).cfg = s.cfg := by
  simp [State.finishCallback]
@[simp] theorem State.finishCallback_inbound (a : Agent) (r : Word) : (s.finishCallback a r).inbound = s.inbound := by
  simp [State.finishCallback]
@[simp] theorem State.finishCallback_outbound (a : Agent) (r : Word) : (s.finishCallback a r).outbound = s.outbound := by
  simp [State.finishCallback]
@[simp] theorem State.finishCallback_parser (a : Agent) (r : Word) : (s.finishCallback a r).parser = FrameParser.initial := by
  simp [State.finishCallback]
@[simp] theorem State.finishCallback_bridge (a : Agent) (r : Word) : (s.finishCallback a r).bridge = s.bridge := by
  simp [State.finishCallback]
@[simp] theorem State.finishCallback_pollFlight (a : Agent) (r : Word) : (s.finishCallback a r).pollFlight = none := by
  simp [State.finishCallback]
@[simp] theorem State.finishCallback_cbFlight (a : Agent) (r : Word) : (s.finishCallback a r).cbFlight = s.cbFlight := by
  simp [State.finishCallback]
@[simp] theorem State.finishCallback_issuer (a : Agent) (r : Word) : (s.finishCallback a r).issuer = s.issuer := by
  simp [State.finishCallback]
@[simp] theorem State.finishCallback_sched (a : Agent) (r : Word) : (s.finishCallback a r).sched = s.sched := by
  simp [State.finishCallback]
@[simp] theorem State.finishCallback_answers (a : Agent) (r : Word) : (s.finishCallback a r).answers = s.answers ++ [⟨a, .parsed, r⟩] := by
  simp [State.finishCallback]

/-! What the supervisor operations write. -/

@[simp] theorem State.frameStart_sup :
    s.frameStart.sup = { s.sup with running := true, tickCount := 0#32 } := by
  unfold State.frameStart; split <;> simp [*]

@[simp] theorem State.frameStart_trace :
    s.frameStart.trace = if s.sup.running then s.trace else s.trace ++ [.timerStart] := by
  unfold State.frameStart; split <;> simp [*]

@[simp] theorem State.supStop_sup : s.supStop.sup = { s.sup with running := false } := by
  unfold State.supStop
  split
  · rfl
  · rename_i h; simp only [Bool.not_eq_true] at h; rw [← h]

@[simp] theorem State.supStop_trace :
    s.supStop.trace = if s.sup.running then s.trace ++ [.timerStop] else s.trace := by
  unfold State.supStop; split <;> simp [*]

@[simp] theorem State.terminate_sup : s.terminate.sup = { s.sup with running := false } := by
  simp [State.terminate]

@[simp] theorem State.terminate_trace :
    s.terminate.trace = if s.sup.running then s.trace ++ [.timerStop] else s.trace := 
  State.supStop_trace s.parserReset

@[simp] theorem State.disarm_sup :
    s.disarm.sup = { s.sup with running := false, armed := false } := by
  simp [State.disarm]

@[simp] theorem State.disarm_trace :
    s.disarm.trace = if s.sup.running then s.trace ++ [.timerStop] else s.trace := by
  simp [State.disarm]

/-! The signal-emitting operations as one record update each. -/

/-- Everything `SUP_STOP` does (43_timeout_supervisor.md R169). -/
theorem State.supStop_eq : s.supStop = { s with
    sup := { s.sup with running := false }
    trace := if s.sup.running then s.trace ++ [.timerStop] else s.trace } := by
  unfold State.supStop State.emit
  cases hr : s.sup with
  | mk a b c r =>
    cases r <;> simp
    cases s; simp_all

/-- Everything `ON_FRAME_START` does (43_timeout_supervisor.md R167). -/
theorem State.frameStart_eq : s.frameStart = { s with
    sup := { s.sup with running := true, tickCount := 0#32 }
    trace := if s.sup.running then s.trace else s.trace ++ [.timerStart] } := by
  unfold State.frameStart State.emit
  cases hr : s.sup.running
  · simp
  · simp; rw [← hr]

/-- Everything `TERMINATE` does (41_frame_parser.md R136). -/
theorem State.terminate_eq : s.terminate = { s with
    parser := FrameParser.initial
    sup := { s.sup with running := false }
    trace := if s.sup.running then s.trace ++ [.timerStop] else s.trace } := by
  rw [State.terminate, State.supStop_eq]; rfl

/-- Everything the first line of `ON_BYTE_RECEIVED` does (44_io_bridge.md R188). -/
theorem State.noteArrival_eq : s.noteArrival = { s with
    sup := if s.sup.armed then { s.sup with running := true, tickCount := 0#32 } else s.sup
    trace := if s.sup.armed && !s.sup.running then s.trace ++ [.timerStart] else s.trace } := by
  unfold State.noteArrival
  rw [State.frameStart_eq]
  cases hs : s.sup with
  | mk a b c r => cases a <;> cases r <;> simp <;> (cases s; simp_all)

end Sys2Proof.Machine
end

