-- ==== Sys2Proof/Laws/Memory.lean ====
section
/-! SUPPORT. The laws of a byte memory: a read after a write, and that a write keeps the canonical form. -/

namespace Sys2Proof.Machine

@[simp] theorem Memory.read_nil (i : Nat) : Memory.read [] i = none := rfl

theorem Memory.read_write_same (m : Memory) (i : Nat) (b : Byte) : (m.write i b).read i = some b := by
  induction m with
  | nil => simp [Memory.write, Memory.read]
  | cons c rest ih =>
    obtain ⟨k, v⟩ := c
    simp only [Memory.write]
    split
    · simp [Memory.read]
    · split
      · simp [Memory.read]
      · rename_i h1 h2; simp [Memory.read, h2, ih]

theorem Memory.read_write_other (m : Memory) {i j : Nat} (b : Byte) (h : j ≠ i) :
    (m.write i b).read j = m.read j := by
  induction m with
  | nil => simp [Memory.write, Memory.read, h]
  | cons c rest ih =>
    obtain ⟨k, v⟩ := c
    simp only [Memory.write]
    split
    · simp [Memory.read, h]
    · split
      · rename_i h1 h2; subst h2; simp [Memory.read, h]
      · simp only [Memory.read, ih]

theorem Memory.read_write (m : Memory) (i j : Nat) (b : Byte) :
    (m.write i b).read j = if j = i then some b else m.read j := by
  split
  · rename_i h; rw [h, Memory.read_write_same]
  · rename_i h; exact Memory.read_write_other m b h

/-- A write lists the written index and what was listed before, nothing else. -/
theorem Memory.mem_write {m : Memory} {i : Nat} {b : Byte} {c : Host.Cell} (h : c ∈ m.write i b) :
    c = (i, b) ∨ c ∈ m := by
  induction m with
  | nil => simp [Memory.write] at h; exact .inl h
  | cons d rest ih =>
    obtain ⟨k, v⟩ := d
    simp only [Memory.write] at h
    split at h
    · simpa using h
    · split at h
      · rcases List.mem_cons.1 h with h | h
        · exact .inl h
        · exact .inr (List.mem_cons_of_mem _ h)
      · rcases List.mem_cons.1 h with h | h
        · exact .inr (h ▸ List.mem_cons_self)
        · rcases ih h with h | h
          · exact .inl h
          · exact .inr (List.mem_cons_of_mem _ h)

theorem Memory.rising_write {m : Memory} (i : Nat) (b : Byte)
    (h : m.Pairwise fun x y => x.1 < y.1) : (m.write i b).Pairwise fun x y => x.1 < y.1 := by
  induction m with
  | nil => simp [Memory.write]
  | cons d rest ih =>
    obtain ⟨k, v⟩ := d
    obtain ⟨hk, hr⟩ := List.pairwise_cons.1 h
    simp only [Memory.write]
    split
    · rename_i hlt
      refine List.pairwise_cons.2 ⟨?_, h⟩
      intro c hc
      rcases List.mem_cons.1 hc with hc | hc
      · rw [hc]; exact hlt
      · exact Nat.lt_trans hlt (hk c hc)
    · split
      · rename_i h1 h2; subst h2; exact List.pairwise_cons.2 ⟨hk, hr⟩
      · rename_i h1 h2
        refine List.pairwise_cons.2 ⟨?_, ih hr⟩
        intro c hc
        rcases Memory.mem_write hc with hc | hc
        · rw [hc]; show k < i; omega
        · exact hk c hc

/-- A write inside the memory keeps the canonical form. -/
theorem Memory.wf_write {m : Memory} {size i : Nat} {b : Byte} (h : m.wf size) (hi : i < size) :
    (m.write i b).wf size := by
  refine ⟨Memory.rising_write i b h.1, ?_⟩
  intro c hc
  rcases Memory.mem_write hc with hc | hc
  · rw [hc]; exact hi
  · exact h.2 c hc

theorem Memory.wf_nil (size : Nat) : Memory.wf [] size := by simp [Memory.wf]

/-- Everything `memWrite` can do: it stores inside the memory and faults outside. -/
theorem memWrite_eq_ok_iff {id : MemId} {size : Nat} {m m' : Memory} {i : Nat} {b : Byte} :
    memWrite id size m i b = .ok m' ↔ i < size ∧ m' = m.write i b := by
  unfold memWrite; split <;> simp [*, eq_comm]

/-- Everything `memRead` can do: it answers a byte that holds a value inside the memory. -/
theorem memRead_eq_ok_iff {id : MemId} {size : Nat} {m : Memory} {i : Nat} {b : Byte} :
    memRead id size m i = .ok b ↔ i < size ∧ m.read i = some b := by
  unfold memRead
  split
  · split <;> simp_all
  · simp_all

/-- The canonical form keeps through a store of `memWrite`. -/
theorem memWrite_wf {id : MemId} {size : Nat} {m m' : Memory} {i : Nat} {b : Byte}
    (h : m.wf size) (hw : memWrite id size m i b = .ok m') : m'.wf size := by
  obtain ⟨hi, rfl⟩ := memWrite_eq_ok_iff.1 hw
  exact Memory.wf_write h hi

/-- A memory whose listed indices are `0, …, n - 1` is extended by a store at `n`. -/
theorem Memory.write_at_end {m : Memory} {n : Nat} (b : Byte)
    (h : m.map Prod.fst = List.range n) : m.write n b = m ++ [(n, b)] := by
  have key : ∀ (m : Memory), (∀ c ∈ m, c.1 < n) → m.write n b = m ++ [(n, b)] := by
    intro m
    induction m with
    | nil => intro _; rfl
    | cons c rest ih =>
      intro hm
      obtain ⟨k, v⟩ := c
      have hk : k < n := hm _ List.mem_cons_self
      simp only [Memory.write]
      rw [if_neg (by omega), if_neg (by omega), ih fun c hc => hm c (List.mem_cons_of_mem _ hc)]
      rfl
  apply key
  intro c hc
  have : c.1 ∈ m.map Prod.fst := List.mem_map_of_mem hc
  rw [h] at this
  exact List.mem_range.1 this

/-- A memory whose listed indices are `0, …, n - 1` holds a value exactly below `n`. -/
theorem Memory.read_isSome_of_range {m : Memory} {n : Nat} (h : m.map Prod.fst = List.range n)
    {i : Nat} (hi : i < n) : (m.read i).isSome = true := by
  have key : ∀ (m : Memory), i ∈ m.map Prod.fst → (m.read i).isSome = true := by
    intro m
    induction m with
    | nil => intro hm; simp at hm
    | cons c rest ih =>
      intro hm
      obtain ⟨k, v⟩ := c
      simp only [Memory.read]
      split
      · rfl
      · rename_i hne
        rcases List.mem_cons.1 hm with hm | hm
        · exact absurd hm hne
        · exact ih hm
  apply key
  rw [h]
  exact List.mem_range.2 hi

end Sys2Proof.Machine
end

