-- ==== Sys2Proof/Laws/Ring.lean ====
section
/-! SUPPORT. The laws of one ring buffer: what `PUSH`, `POP` and `FLUSH` can do, and that they keep its
invariant. -/

namespace Sys2Proof.Machine

theorem nextIndex_toNat (c x : Word) (hc : 0 < c.toNat) :
    (nextIndex c x).toNat = (x.toNat + 1) % c.toNat := by
  have h1 : (x.toNat + 1) % c.toNat < c.toNat := Nat.mod_lt _ hc
  have h2 := c.isLt
  rw [nextIndex, BitVec.toNat_ofNat, Nat.mod_eq_of_lt (by omega)]

theorem nextIndex_lt (c x : Word) (hc : 0 < c.toNat) : (nextIndex c x).toNat < c.toNat := by
  rw [nextIndex_toNat c x hc]; exact Nat.mod_lt _ hc

/-- The wrap is a compare-and-zero (40_ring_buffer.md R116). -/
theorem nextIndex_eq (c x : Word) (hx : x.toNat < c.toNat) :
    (nextIndex c x).toNat = if x.toNat + 1 = c.toNat then 0 else x.toNat + 1 := by
  rw [nextIndex_toNat c x (by omega)]
  split
  · rename_i h; rw [h, Nat.mod_self]
  · exact Nat.mod_eq_of_lt (by omega)

/-- Everything `PUSH` can do when it stores. -/
theorem Ring.push_eq_some_iff {id : MemId} {c : Word} {b : Byte} {f g : Ring} :
    f.push id c b = .ok (some g) ↔ f.wr ≠ f.rd ∧ f.wr.toNat < c.toNat ∧
      g = { f with buf := f.buf.write f.wr.toNat b, wr := nextIndex c f.wr } := by
  unfold Ring.push Ring.isFull
  by_cases h : f.wr = f.rd
  · simp [h]
  · simp only [beq_iff_eq, h, if_false, ne_eq, not_false_eq_true, true_and]
    unfold memWrite
    by_cases h2 : f.wr.toNat < c.toNat <;> simp [h2, eq_comm]

/-- `PUSH` answers `Full` exactly when the indices are equal. -/
theorem Ring.push_eq_none_iff {id : MemId} {c : Word} {b : Byte} {f : Ring} :
    f.push id c b = .ok none ↔ f.wr = f.rd := by
  unfold Ring.push Ring.isFull memWrite
  by_cases h : f.wr = f.rd
  · simp [h]
  · simp only [beq_iff_eq, h, if_false]
    split <;> simp_all

/-- `PUSH` faults only with its write index outside the array. -/
theorem Ring.push_eq_error_iff {id : MemId} {c : Word} {b : Byte} {f : Ring} {e : Fault} :
    f.push id c b = .error e ↔
      f.wr ≠ f.rd ∧ c.toNat ≤ f.wr.toNat ∧ e = .noSuchIndex id f.wr.toNat := by
  unfold Ring.push Ring.isFull memWrite
  by_cases h : f.wr = f.rd
  · simp [h]
  · simp only [beq_iff_eq, h, if_false]
    by_cases h2 : f.wr.toNat < c.toNat
    · simp [h2]
    · simp [h2, h, eq_comm, Nat.not_lt.1 h2]

/-- Everything `POP` can do when it answers a byte. -/
theorem Ring.pop_eq_some_iff {id : MemId} {c : Word} {f g : Ring} {b : Byte} :
    f.pop id c = .ok (some (b, g)) ↔ nextIndex c f.rd ≠ f.wr ∧
      (nextIndex c f.rd).toNat < c.toNat ∧ f.buf.read (nextIndex c f.rd).toNat = some b ∧
      g = { f with rd := nextIndex c f.rd } := by
  unfold Ring.pop Ring.isEmpty
  by_cases h : nextIndex c f.rd = f.wr
  · simp [h]
  · simp only [beq_iff_eq, h, if_false, ne_eq, not_false_eq_true, true_and]
    unfold memRead
    by_cases h2 : (nextIndex c f.rd).toNat < c.toNat
    · simp only [h2, if_true, true_and]
      cases hr : f.buf.read (nextIndex c f.rd).toNat with
      | none => simp
      | some v => simp [eq_comm]
    · simp [h2]

/-- `POP` answers `Empty` exactly when the next read index is the write index. -/
theorem Ring.pop_eq_none_iff {id : MemId} {c : Word} {f : Ring} :
    f.pop id c = .ok none ↔ nextIndex c f.rd = f.wr := by
  unfold Ring.pop Ring.isEmpty
  by_cases h : nextIndex c f.rd = f.wr
  · simp [h]
  · simp only [beq_iff_eq, h, if_false]
    cases memRead id c.toNat f.buf (nextIndex c f.rd).toNat <;> simp

/-- `a % c` for `a` below `2 c`, as a compare and a subtraction. -/
theorem mod_eq_ite {a c : Nat} (h : a < 2 * c) : a % c = if a < c then a else a - c := by
  split
  · rename_i h1; exact Nat.mod_eq_of_lt h1
  · rename_i h1
    rw [Nat.mod_eq_sub_mod (by omega), Nat.mod_eq_of_lt (by omega)]

theorem Ring.live_eq {c : Word} {f : Ring} (hr : f.rd.toNat < c.toNat) (hw : f.wr.toNat < c.toNat) :
    f.live c = if f.wr.toNat ≤ f.rd.toNat then f.wr.toNat + c.toNat - 1 - f.rd.toNat
      else f.wr.toNat - 1 - f.rd.toNat := by
  unfold Ring.live
  rw [mod_eq_ite (by omega)]
  split <;> split <;> omega

theorem Ring.live_lt {c : Word} {f : Ring} (hc : 0 < c.toNat) : f.live c < c.toNat :=
  Nat.mod_lt _ hc

theorem Ring.liveIndex_eq {c : Word} {f : Ring} {k : Nat} (hr : f.rd.toNat < c.toNat)
    (hk : k < c.toNat) :
    f.liveIndex c k =
      if f.rd.toNat + 1 + k < c.toNat then f.rd.toNat + 1 + k else f.rd.toNat + 1 + k - c.toNat := by
  unfold Ring.liveIndex
  rw [mod_eq_ite (by omega)]

/-- Full is `C - 1` live bytes (10_state.md R23). -/
theorem Ring.isFull_iff_live {c : Word} {f : Ring} (hr : f.rd.toNat < c.toNat)
    (hw : f.wr.toNat < c.toNat) : f.wr = f.rd ↔ f.live c = c.toNat - 1 := by
  rw [Ring.live_eq hr hw]
  constructor
  · intro h; rw [h]; split <;> omega
  · intro h; apply BitVec.eq_of_toNat_eq; split at h <;> omega

/-- Empty is no live byte (10_state.md R23). -/
theorem Ring.isEmpty_iff_live {c : Word} {f : Ring} (hr : f.rd.toNat < c.toNat)
    (hw : f.wr.toNat < c.toNat) (hc : 2 ≤ c.toNat) : nextIndex c f.rd = f.wr ↔ f.live c = 0 := by
  rw [Ring.live_eq hr hw]
  constructor
  · intro h
    have := congrArg BitVec.toNat h
    rw [nextIndex_eq c _ hr] at this
    split at this <;> split <;> omega
  · intro h
    apply BitVec.eq_of_toNat_eq
    rw [nextIndex_eq c _ hr]
    split at h <;> split <;> omega

/-- A successful `PUSH` adds one live byte, and the old ones keep their places. -/
theorem Ring.live_push {c : Word} {f : Ring} {m : Memory} (hr : f.rd.toNat < c.toNat)
    (hw : f.wr.toNat < c.toNat) (hne : f.wr ≠ f.rd) :
    ({ f with buf := m, wr := nextIndex c f.wr } : Ring).live c = f.live c + 1 := by
  have hne' : f.wr.toNat ≠ f.rd.toNat := fun h => hne (BitVec.eq_of_toNat_eq h)
  rw [Ring.live_eq (by exact hr) (by exact nextIndex_lt c _ (by omega)), Ring.live_eq hr hw]
  simp only [nextIndex_eq c _ hw]
  split <;> split <;> split <;> omega

/-- The new live byte of a `PUSH` lies at the old write index. -/
theorem Ring.liveIndex_live {c : Word} {f : Ring} (hr : f.rd.toNat < c.toNat)
    (hw : f.wr.toNat < c.toNat) : f.liveIndex c (f.live c) = f.wr.toNat := by
  rw [Ring.liveIndex_eq hr (Ring.live_lt (by omega)), Ring.live_eq hr hw]
  split <;> split <;> omega

/-- Live bytes lie at other indices than the write index. -/
theorem Ring.liveIndex_ne_wr {c : Word} {f : Ring} {k : Nat} (hr : f.rd.toNat < c.toNat)
    (hw : f.wr.toNat < c.toNat) (hk : k < f.live c) : f.liveIndex c k ≠ f.wr.toNat := by
  have h := Ring.live_lt (c := c) (f := f) (by omega)
  rw [Ring.liveIndex_eq hr (by omega)]
  rw [Ring.live_eq hr hw] at hk h
  split <;> split at hk <;> omega

/-- A successful `POP` takes one live byte away. -/
theorem Ring.live_pop {c : Word} {f : Ring} (hr : f.rd.toNat < c.toNat) (hw : f.wr.toNat < c.toNat)
    (hne : nextIndex c f.rd ≠ f.wr) :
    ({ f with rd := nextIndex c f.rd } : Ring).live c + 1 = f.live c := by
  have hne' : (nextIndex c f.rd).toNat ≠ f.wr.toNat := fun h => hne (BitVec.eq_of_toNat_eq h)
  rw [Ring.live_eq (by exact nextIndex_lt c _ (by omega)) (by exact hw), Ring.live_eq hr hw]
  simp only [nextIndex_eq c _ hr] at hne' ⊢
  split at hne' <;> split <;> split <;> split <;> omega

/-- After a `POP` the live byte `k` is the one that was `k + 1`. -/
theorem Ring.liveIndex_pop {c : Word} {f : Ring} {k : Nat} (hr : f.rd.toNat < c.toNat)
    (hk : k + 1 < c.toNat) :
    ({ f with rd := nextIndex c f.rd } : Ring).liveIndex c k = f.liveIndex c (k + 1) := by
  rw [Ring.liveIndex_eq (by exact nextIndex_lt c _ (by omega)) (by omega), Ring.liveIndex_eq hr hk]
  simp only [nextIndex_eq c _ hr]
  split <;> split <;> split <;> omega

/-- The byte `POP` answers is the oldest live one. -/
theorem Ring.liveIndex_zero {c : Word} {f : Ring} (hr : f.rd.toNat < c.toNat) :
    f.liveIndex c 0 = (nextIndex c f.rd).toNat := by
  rw [nextIndex_toNat c _ (by omega)]; rfl

theorem Ring.push_inv {id : MemId} {c : Word} {b : Byte} {f g : Ring} (h : f.Inv c)
    (hp : f.push id c b = .ok (some g)) : g.Inv c := by
  obtain ⟨hne, hlt, rfl⟩ := Ring.push_eq_some_iff.1 hp
  obtain ⟨hr, hw, hm, hv⟩ := h
  refine ⟨hr, nextIndex_lt c _ (by omega), Memory.wf_write hm hlt, ?_⟩
  intro k hk
  rw [Ring.live_push hr hw hne] at hk
  show (Memory.read _ (f.liveIndex c k)).isSome = true
  rw [Memory.read_write]
  split
  · rfl
  · rename_i hx
    apply hv
    rcases Nat.lt_succ_iff_lt_or_eq.1 hk with hk | hk
    · exact hk
    · rw [hk, Ring.liveIndex_live hr hw] at hx; exact absurd rfl hx

theorem Ring.pop_inv {id : MemId} {c : Word} {b : Byte} {f g : Ring} (h : f.Inv c)
    (hp : f.pop id c = .ok (some (b, g))) : g.Inv c := by
  obtain ⟨hne, hlt, hb, rfl⟩ := Ring.pop_eq_some_iff.1 hp
  obtain ⟨hr, hw, hm, hv⟩ := h
  refine ⟨hlt, hw, hm, ?_⟩
  intro k hk
  have hl := Ring.live_pop hr hw hne
  have hlt := Ring.live_lt (c := c) (f := f) (by omega)
  rw [Ring.liveIndex_pop hr (by omega)]
  exact hv _ (by omega)

theorem Ring.flush_inv {c : Word} {f : Ring} (hc : 2 ≤ c.toNat) (hm : f.buf.wf c.toNat) :
    f.flush.Inv c := by
  refine ⟨by simp [Ring.flush]; omega, by simp [Ring.flush]; omega, hm, ?_⟩
  intro k hk
  rw [Ring.live_eq (by simp [Ring.flush]; omega) (by simp [Ring.flush]; omega)] at hk
  simp [Ring.flush] at hk

/-- With the invariant a `PUSH` never faults. -/
theorem Ring.push_no_fault {id : MemId} {c : Word} {b : Byte} {f : Ring} (h : f.Inv c) (e : Fault) :
    f.push id c b ≠ .error e := by
  intro he
  have := (Ring.push_eq_error_iff.1 he).2.1
  have := h.2.1
  omega

/-- With the invariant a `POP` never faults. -/
theorem Ring.pop_no_fault {id : MemId} {c : Word} {f : Ring} (hc : 2 ≤ c.toNat) (h : f.Inv c)
    (e : Fault) : f.pop id c ≠ .error e := by
  obtain ⟨hr, hw, hm, hv⟩ := h
  intro he
  unfold Ring.pop Ring.isEmpty memRead at he
  by_cases hne : nextIndex c f.rd = f.wr
  · simp [hne] at he
  · have hlive : 0 < f.live c := by
      rcases Nat.eq_zero_or_pos (f.live c) with h0 | h0
      · exact absurd ((Ring.isEmpty_iff_live hr hw hc).2 h0) hne
      · exact h0
    have hs := hv 0 hlive
    rw [Ring.liveIndex_zero hr] at hs
    obtain ⟨v, hv⟩ := Option.isSome_iff_exists.1 hs
    simp [hne, nextIndex_lt c f.rd (by omega), hv] at he

end Sys2Proof.Machine
end

