-- ==== Sys2Proof/Laws/Ops.lean ====
section
/-! SUPPORT. What the gates and the shared operations over the state can do. -/

namespace Sys2Proof.Machine

@[simp] theorem guarded_some (r : Refusal) (go : Result State) : guarded (some r) go = .refused r := rfl
@[simp] theorem guarded_none (go : Result State) : guarded none go = go := rfl

theorem guarded_eq_next_iff {g : Option Refusal} {go : Result State} {t : State} :
    guarded g go = .next t ↔ g = none ∧ go = .next t := by
  cases g <;> simp

theorem guarded_eq_fault_iff {g : Option Refusal} {go : Result State} {e : Fault} :
    guarded g go = .fault e ↔ g = none ∧ go = .fault e := by
  cases g <;> simp

/-! The gates, as the conditions they let through. -/

theorem agentGate_eq_none_iff {a : Agent} {s : State} :
    agentGate a s = none ↔ s.cfg.valid = true ∧ s.issuer = a ∧ s.bridge.inited = true := by
  unfold agentGate
  split
  · simp_all
  · split
    · simp_all
    · split <;> simp_all

theorem initGate_eq_none_iff {s : State} :
    initGate s = none ↔ s.cfg.valid = true ∧ s.issuer = .poll ∧ s.bridge.inited = false := by
  unfold initGate
  split
  · simp_all
  · split
    · simp_all
    · split <;> simp_all

theorem pollGate_eq_none_iff {s : State} : pollGate s = none ↔ s.PollMayIssue := by
  unfold pollGate State.PollMayIssue
  cases h : agentGate .poll s with
  | some r =>
    simp only [reduceCtorEq, false_iff]
    rintro ⟨h1, h2, h3, -⟩
    rw [agentGate_eq_none_iff.2 ⟨h1, h2, h3⟩] at h
    cases h
  | none =>
    obtain ⟨h1, h2, h3⟩ := agentGate_eq_none_iff.1 h
    cases hf : s.pollFlight <;> simp [h1, h2, h3]

theorem primitiveGate_eq_none_iff {s : State} : primitiveGate s = none ↔ s.PrimitiveMayIssue :=
  agentGate_eq_none_iff

theorem feedGate_eq_none_iff {s : State} :
    feedGate s = none ↔ s.ComponentMayIssue ∧ s.parser.st ≠ .complete := by
  unfold feedGate
  cases h : primitiveGate s with
  | some r =>
    simp only [reduceCtorEq, false_iff]
    rintro ⟨⟨h1, h2, h3, -⟩, -⟩
    rw [primitiveGate_eq_none_iff.2 ⟨h1, h2, h3⟩] at h
    cases h
  | none =>
    obtain ⟨h1, h2, h3⟩ := primitiveGate_eq_none_iff.1 h
    by_cases hc : s.parser.st = .complete
    · simp [hc]
    · cases hf : s.pollFlight <;> simp [State.ComponentMayIssue, h1, h2, h3, hc, hf]

theorem isrGate_eq_none_iff {s : State} : isrGate s = none ↔ s.IsrMayIssue := agentGate_eq_none_iff

theorem transmitGate_eq_none_iff {s : State} :
    transmitGate s = none ↔ s.IsrMayIssue ∧ s.bridge.txIntEn = true := by
  unfold transmitGate
  cases h : isrGate s with
  | some r =>
    simp only [reduceCtorEq, false_iff]
    rintro ⟨h1, -⟩
    rw [isrGate_eq_none_iff.2 h1] at h
    cases h
  | none =>
    have h1 := isrGate_eq_none_iff.1 h
    cases ht : s.bridge.txIntEn
    · simp
    · simp only [if_true, and_true, true_iff]; exact h1

theorem callbackRuns_iff {s : State} : s.callbackRuns = true ↔ waitsForCallback s.pollFlight := by
  simp [State.callbackRuns, waitsForCallback]

theorem frameReadable_iff {s : State} :
    s.frameReadable = true ↔ s.parser.st = .complete ∧ waitsForCallback s.pollFlight := by
  simp [State.frameReadable, callbackRuns_iff]

theorem callbackGate_eq_none_iff {s : State} : callbackGate s = none ↔ s.CallbackMayEnqueue := by
  unfold callbackGate State.CallbackMayEnqueue
  cases h : agentGate .callback s with
  | some r =>
    simp only [reduceCtorEq, false_iff]
    rintro ⟨h1, h2, h3, -⟩
    rw [agentGate_eq_none_iff.2 ⟨h1, h2, h3⟩] at h
    cases h
  | none =>
    obtain ⟨h1, h2, h3⟩ := agentGate_eq_none_iff.1 h
    by_cases hw : waitsForCallback s.pollFlight
    · rw [callbackRuns_iff.2 hw]
      cases hf : s.cbFlight <;> simp [h1, h2, h3, hw]
    · have hr : s.callbackRuns = false := Bool.eq_false_iff.2 fun hc => hw (callbackRuns_iff.1 hc)
      simp [hr, hw]

theorem accessorGate_eq_none_iff {s : State} : accessorGate s = none ↔ s.CallbackMayIssue := by
  unfold accessorGate State.CallbackMayIssue
  cases h : agentGate .callback s with
  | some r =>
    simp only [reduceCtorEq, false_iff]
    rintro ⟨h1, h2, h3, -⟩
    rw [agentGate_eq_none_iff.2 ⟨h1, h2, h3⟩] at h
    cases h
  | none =>
    obtain ⟨h1, h2, h3⟩ := agentGate_eq_none_iff.1 h
    have hr := frameReadable_iff (s := s)
    cases hc : s.frameReadable with
    | false =>
      simp only [hc, Bool.false_eq_true, false_iff] at hr
      simp only [if_true, reduceCtorEq, false_iff]
      rintro ⟨-, -, -, h4, h5, -⟩
      exact hr ⟨h4, h5⟩
    | true =>
      obtain ⟨h4, h5⟩ := hr.1 hc
      cases hf : s.cbFlight <;> simp [h1, h2, h3, h4, h5]

theorem enqueueGate_eq_none_iff {s : State} : enqueueGate s = none ↔ s.EnqueueMayIssue := by
  unfold enqueueGate State.EnqueueMayIssue
  split
  · rename_i h
    rw [callbackGate_eq_none_iff]
    constructor
    · exact .inr
    · rintro (h' | h')
      · exact absurd (h.symm.trans h'.2.1) (by decide)
      · exact h'
  · rename_i h
    rw [pollGate_eq_none_iff]
    constructor
    · exact .inl
    · rintro (h' | h')
      · exact h'
      · exact absurd h'.2.1 h

theorem flightGate_eq_none_iff {s : State} : flightGate s = none ↔ s.cfg.valid = true := by
  unfold flightGate; split <;> simp_all

theorem returnGate_eq_none_iff {s : State} :
    returnGate s = none ↔ s.cfg.valid = true ∧ waitsForCallback s.pollFlight ∧ s.cbFlight = none := by
  unfold returnGate
  by_cases hw : waitsForCallback s.pollFlight
  · rw [callbackRuns_iff.2 hw]
    cases hv : s.cfg.valid <;> cases hf : s.cbFlight <;> simp [hw]
  · have hr : s.callbackRuns = false := Bool.eq_false_iff.2 fun hc => hw (callbackRuns_iff.1 hc)
    cases s.cfg.valid <;> simp [hr, hw]

theorem Config.valid_iff {c : Config} : c.valid = true ↔ 2 ≤ c.capIn.toNat ∧ 2 ≤ c.capOut.toNat := by
  simp [Config.valid]

/-! `PUSH` and `POP` on the state. -/

/-- Everything `PUSH F, b` can do when it stores. -/
theorem State.pushOn_eq_some_iff {f : BufSel} {b : Byte} {s t : State} :
    s.pushOn f b = .ok (some t) ↔ (s.ring f).wr ≠ (s.ring f).rd ∧
      (s.ring f).wr.toNat < (s.cap f).toNat ∧
      t = s.setRing f { (s.ring f) with
        buf := (s.ring f).buf.write (s.ring f).wr.toNat b, wr := nextIndex (s.cap f) (s.ring f).wr } := by
  unfold State.pushOn
  cases h : (s.ring f).push (bufMem f) (s.cap f) b with
  | error e =>
    simp only [reduceCtorEq, false_iff]
    rintro ⟨h1, h2, -⟩
    have := (Ring.push_eq_error_iff.1 h).2.1
    omega
  | ok o =>
    cases o with
    | none =>
      simp only [Except.ok.injEq, reduceCtorEq, false_iff]
      rintro ⟨h1, -⟩
      exact h1 (Ring.push_eq_none_iff.1 h)
    | some r =>
      obtain ⟨h1, h2, rfl⟩ := Ring.push_eq_some_iff.1 h
      simp only [Except.ok.injEq, Option.some.injEq, h1, h2, ne_eq, not_false_eq_true, true_and]
      exact eq_comm

theorem State.pushOn_eq_none_iff {f : BufSel} {b : Byte} {s : State} :
    s.pushOn f b = .ok none ↔ (s.ring f).wr = (s.ring f).rd := by
  unfold State.pushOn
  rw [← Ring.push_eq_none_iff (id := bufMem f) (c := s.cap f) (b := b)]
  cases h : (s.ring f).push (bufMem f) (s.cap f) b with
  | error e => simp
  | ok o => cases o <;> simp

theorem State.pushOn_eq_error {f : BufSel} {b : Byte} {s : State} {e : Fault}
    (h : s.pushOn f b = .error e) : (s.ring f).push (bufMem f) (s.cap f) b = .error e := by
  unfold State.pushOn at h
  cases hr : (s.ring f).push (bufMem f) (s.cap f) b with
  | error e' => rw [hr] at h; exact congrArg _ (Except.error.inj h)
  | ok o => rw [hr] at h; cases o <;> simp at h

/-- Everything `POP F` can do when it answers a byte. -/
theorem State.popOn_eq_some_iff {f : BufSel} {b : Byte} {s t : State} :
    s.popOn f = .ok (some (b, t)) ↔
      nextIndex (s.cap f) (s.ring f).rd ≠ (s.ring f).wr ∧
      (nextIndex (s.cap f) (s.ring f).rd).toNat < (s.cap f).toNat ∧
      (s.ring f).buf.read (nextIndex (s.cap f) (s.ring f).rd).toNat = some b ∧
      t = s.setRing f { (s.ring f) with rd := nextIndex (s.cap f) (s.ring f).rd } := by
  unfold State.popOn
  have key : ∀ v g, (s.ring f).pop (bufMem f) (s.cap f) = .ok (some (v, g)) ↔ _ :=
    fun v g => Ring.pop_eq_some_iff (id := bufMem f) (c := s.cap f) (f := s.ring f) (g := g) (b := v)
  cases h : (s.ring f).pop (bufMem f) (s.cap f) with
  | error e =>
    simp only [reduceCtorEq, false_iff]
    rintro ⟨h1, h2, h3, -⟩
    have := (key b _).2 ⟨h1, h2, h3, rfl⟩
    rw [h] at this
    cases this
  | ok o =>
    cases o with
    | none =>
      simp only [Except.ok.injEq, reduceCtorEq, false_iff]
      rintro ⟨h1, -⟩
      exact h1 (Ring.pop_eq_none_iff.1 h)
    | some r =>
      obtain ⟨v, g⟩ := r
      obtain ⟨h1, h2, h3, rfl⟩ := (key v g).1 h
      simp only [Except.ok.injEq, Option.some.injEq, Prod.mk.injEq, h1, h2, h3, ne_eq,
        not_false_eq_true, true_and]
      exact and_congr Iff.rfl eq_comm

theorem State.popOn_eq_none_iff {f : BufSel} {s : State} :
    s.popOn f = .ok none ↔ nextIndex (s.cap f) (s.ring f).rd = (s.ring f).wr := by
  unfold State.popOn
  rw [← Ring.pop_eq_none_iff (id := bufMem f) (c := s.cap f)]
  cases h : (s.ring f).pop (bufMem f) (s.cap f) with
  | error e => simp
  | ok o => cases o <;> simp

theorem State.popOn_eq_error {f : BufSel} {s : State} {e : Fault}
    (h : s.popOn f = .error e) : (s.ring f).pop (bufMem f) (s.cap f) = .error e := by
  unfold State.popOn at h
  cases hr : (s.ring f).pop (bufMem f) (s.cap f) with
  | error e' => rw [hr] at h; exact congrArg _ (Except.error.inj h)
  | ok o => rw [hr] at h; cases o <;> simp at h

/-- What a `PUSH` that stores leaves alone: everything but the buffer. -/
theorem State.pushOn_fields {f : BufSel} {b : Byte} {s t : State} (h : s.pushOn f b = .ok (some t)) :
    t.cfg = s.cfg ∧ t.parser = s.parser ∧ t.sup = s.sup ∧ t.bridge = s.bridge ∧
      t.pollFlight = s.pollFlight ∧ t.cbFlight = s.cbFlight ∧ t.issuer = s.issuer ∧
      t.sched = s.sched ∧ t.trace = s.trace ∧ t.answers = s.answers := by
  obtain ⟨-, -, rfl⟩ := State.pushOn_eq_some_iff.1 h; simp

/-- What a `POP` that answers a byte leaves alone: everything but the buffer. -/
theorem State.popOn_fields {f : BufSel} {b : Byte} {s t : State}
    (h : s.popOn f = .ok (some (b, t))) :
    t.cfg = s.cfg ∧ t.parser = s.parser ∧ t.sup = s.sup ∧ t.bridge = s.bridge ∧
      t.pollFlight = s.pollFlight ∧ t.cbFlight = s.cbFlight ∧ t.issuer = s.issuer ∧
      t.sched = s.sched ∧ t.trace = s.trace ∧ t.answers = s.answers := by
  obtain ⟨-, -, -, rfl⟩ := State.popOn_eq_some_iff.1 h; simp

end Sys2Proof.Machine
end

