-- ==== Sys2Proof/Laws/Parser.lean ====
section
/-! SUPPORT. The CRC as a fold, and what `FEED` can do to the parser: every result keeps the parser's
invariant, and with the invariant no `FEED` faults. -/

namespace Sys2Proof.Machine

@[simp] theorem crcFold_nil (acc : Half) : crcFold acc [] = acc := rfl

@[simp] theorem crcFold_cons (acc : Half) (b : Byte) (bs : List Byte) :
    crcFold acc (b :: bs) = crcFold (crcStep acc b) bs := rfl

theorem crcFold_append (acc : Half) (xs ys : List Byte) :
    crcFold acc (xs ++ ys) = crcFold (crcFold acc xs) ys := by
  simp [crcFold, List.foldl_append]

/-- One more byte folded is one more `crc16_step` (41_frame_parser.md R122). -/
theorem crc16_snoc (xs : List Byte) (b : Byte) : crc16 (xs ++ [b]) = crcStep (crc16 xs) b := by
  simp [crc16, crcFold_append]

/-- The two bytes of a 16-bit value put together again (30_encoding.md R77). -/
theorem joinBytes_high_low (v : Half) : joinBytes (highByte v) (lowByte v) = v := by
  unfold joinBytes highByte lowByte
  apply BitVec.eq_of_getLsbD_eq
  intro i hi
  simp only [BitVec.getLsbD_append, BitVec.getLsbD_extractLsb']
  split
  · rename_i h; simp [h]
  · have h1 : i - 8 < 8 := by omega
    simp [h1, show 8 + (i - 8) = i by omega]

theorem FrameParser.initial_inv : FrameParser.initial.Inv := by decide

/-- The state a `FEED` result leaves the parser in, where it leaves one. -/
def FeedResult.parser? : FeedResult → Option FrameParser
  | .inProgress p => some p
  | .byteCountError p => some p
  | .crcError p => some p
  | .crcMatch p => some p
  | .fault _ => none
  | .inComplete => none

/-- Everything `FEED` can do in `AwaitPayload` with the invariant. -/
theorem FrameParser.feedPayload_eq {p : FrameParser} (h : p.Inv) (hst : p.st = .awaitPayload)
    (b : Byte) : p.feedPayload b = .inProgress
      { p with
        pbuf := p.pbuf ++ [(p.cursor.toNat, b)]
        crcAcc := crcStep p.crcAcc b
        cursor := p.cursor + 1#16
        st := if p.cursor + 1#16 = p.payloadLen then .awaitCrcLow else .awaitPayload } := by
  obtain ⟨hA, -, hC, -⟩ := h
  have hc := (hC hst).2
  have hl := p.payloadLen.isLt
  unfold FrameParser.feedPayload memWrite
  rw [if_pos (by unfold Config.payloadRamSize; omega)]
  simp only [Memory.write_at_end b hA]
  split <;> simp [hst]

/-- `FEED` answers `InProgress`, and the parser does not reach `Complete` that way. -/
theorem FrameParser.feed_inProgress_ne_complete {p q : FrameParser} {b : Byte}
    (h : p.feed b = .inProgress q) : q.st ≠ .complete := by
  unfold FrameParser.feed at h
  split at h
  · simp only [FrameParser.feedCountLow, FeedResult.inProgress.injEq] at h; subst h; simp
  · unfold FrameParser.feedCountHigh at h
    dsimp only at h
    split at h
    · cases h
    · simp only [FeedResult.inProgress.injEq] at h; subst h; simp
  · unfold FrameParser.feedFuncCode at h
    dsimp only at h
    split at h <;> (simp only [FeedResult.inProgress.injEq] at h; subst h; simp)
  · rename_i hst
    unfold FrameParser.feedPayload at h
    split at h
    · cases h
    · dsimp only at h
      split at h <;> (simp only [FeedResult.inProgress.injEq] at h; subst h; simp [hst])
  · simp only [FrameParser.feedCrcLow, FeedResult.inProgress.injEq] at h; subst h; simp
  · unfold FrameParser.feedCrcHigh at h
    dsimp only at h
    split at h <;> cases h
  · cases h

/-- `FEED` answers a match only in `AwaitCrcHigh`, and leaves the parser in `Complete`. -/
theorem FrameParser.feed_crcMatch {p q : FrameParser} {b : Byte} (h : p.feed b = .crcMatch q) :
    p.st = .awaitCrcHigh ∧ joinBytes b p.crcInLo = p.crcAcc ∧
      q = { p with crcIn := joinBytes b p.crcInLo, st := .complete } := by
  unfold FrameParser.feed at h
  split at h
  · cases h
  · unfold FrameParser.feedCountHigh at h; dsimp only at h; split at h <;> cases h
  · unfold FrameParser.feedFuncCode at h; dsimp only at h; split at h <;> cases h
  · unfold FrameParser.feedPayload at h
    split at h
    · cases h
    · dsimp only at h; split at h <;> cases h
  · cases h
  · rename_i hst
    unfold FrameParser.feedCrcHigh at h
    dsimp only at h
    split at h
    · rename_i he; cases h; exact ⟨hst, he, rfl⟩
    · cases h
  · cases h

/-- Every `FEED` that goes on or finds a valid frame keeps the invariant. -/
theorem FrameParser.feed_inv {p q : FrameParser} {b : Byte} (h : p.Inv)
    (hf : p.feed b = .inProgress q ∨ p.feed b = .crcMatch q) : q.Inv := by
  have h0 := h
  obtain ⟨hA, hB, hC, hD, hE, hF, hG⟩ := h
  rcases hf with hf | hf
  · unfold FrameParser.feed at hf
    split at hf
    · rename_i hst
      simp only [FrameParser.feedCountLow, FeedResult.inProgress.injEq] at hf
      subst hf
      have hb := hB (.inl hst)
      simp [FrameParser.Inv, hA, hb]
    · rename_i hst
      unfold FrameParser.feedCountHigh at hf
      dsimp only at hf
      split at hf
      · cases hf
      · rename_i hne
        simp only [FeedResult.inProgress.injEq] at hf
        subst hf
        have hb := hB (.inr (.inl hst))
        simp [FrameParser.Inv, hA, hb, hne]
    · rename_i hst
      have hb := hB (.inr (.inr hst))
      have he := hE ⟨by simp [hst], by simp [hst]⟩
      have hnil : p.pbuf = [] := by
        have := hA; rw [hb.1] at this; simpa using this
      unfold FrameParser.feedFuncCode at hf
      dsimp only at hf
      split at hf
      · rename_i hz
        simp only [FeedResult.inProgress.injEq] at hf
        subst hf
        have he' := he.2
        rw [hz] at he'
        simp [FrameParser.Inv, hb, hz, hnil, crc16, he.1, ← he']
      · rename_i hz
        simp only [FeedResult.inProgress.injEq] at hf
        subst hf
        have hpos : 0 < p.payloadLen.toNat := by
          rcases Nat.eq_zero_or_pos p.payloadLen.toNat with h | h
          · exact absurd (BitVec.eq_of_toNat_eq (by simpa using h)) hz
          · exact h
        simp [FrameParser.Inv, hb, hnil, crc16, he.1, ← he.2, hpos]
    · rename_i hst
      rw [FrameParser.feedPayload_eq h0 hst b] at hf
      simp only [FeedResult.inProgress.injEq] at hf
      subst hf
      obtain ⟨hlive, hlt⟩ := hC hst
      have he := hE ⟨by simp [hst], by simp [hst]⟩
      have hcrc := hF (by simp [hst])
      have hl := p.payloadLen.isLt
      have hcur : (p.cursor + 1#16).toNat = p.cursor.toNat + 1 := by
        rw [BitVec.toNat_add]; simp; omega
      have hA' : (p.pbuf ++ [(p.cursor.toNat, b)]).map Prod.fst = List.range (p.cursor + 1#16).toNat := by
        rw [hcur, List.range_succ, List.map_append, hA]; rfl
      have hcrc' : crcStep p.crcAcc b =
          crc16 (p.funcCode :: (p.pbuf ++ [(p.cursor.toNat, b)]).map Prod.snd) := by
        rw [hcrc, List.map_append, ← List.cons_append]
        exact (crc16_snoc _ b).symm
      refine ⟨hA', ?_, ?_, ?_, ?_, ?_, ?_⟩
      · rintro (h | h | h) <;> (simp only at h; split at h <;> cases h)
      · intro h
        simp only at h
        split at h
        · cases h
        · rename_i hne
          refine ⟨hlive, ?_⟩
          show (p.cursor + 1#16).toNat < p.payloadLen.toNat
          rw [hcur]
          have : p.cursor.toNat + 1 ≠ p.payloadLen.toNat := fun h =>
            hne (BitVec.eq_of_toNat_eq (by rw [hcur, h]))
          omega
      · intro h
        have hend : p.cursor + 1#16 = p.payloadLen := by
          rcases h with h | h | h <;> (simp only at h; split at h) <;> first | assumption | cases h
        refine ⟨hend, ?_⟩
        show p.pbufLive = decide (p.payloadLen ≠ 0#16)
        rw [hlive]
        symm
        apply decide_eq_true
        intro hz
        rw [hz] at hlt
        simp at hlt
      · intro _; exact he
      · intro _; exact hcrc'
      · intro h; simp only at h; split at h <;> cases h
    · rename_i hst
      have hd := hD (.inl hst)
      have he := hE ⟨by simp [hst], by simp [hst]⟩
      have hcrc := hF (by simp [hst])
      simp only [FrameParser.feedCrcLow, FeedResult.inProgress.injEq] at hf
      subst hf
      exact ⟨hA, by simp, by simp, fun _ => hd, fun _ => he, fun _ => hcrc, by simp⟩
    · unfold FrameParser.feedCrcHigh at hf
      dsimp only at hf
      split at hf <;> cases hf
    · cases hf
  · obtain ⟨hst, heq, rfl⟩ := FrameParser.feed_crcMatch hf
    have hd := hD (.inr (.inl hst))
    have he := hE ⟨by simp [hst], by simp [hst]⟩
    have hcrc := hF (by simp [hst])
    exact ⟨hA, by simp, by simp, fun _ => hd, fun _ => he, fun _ => hcrc, fun _ => heq⟩

/-- With the invariant a `FEED` never faults. -/
theorem FrameParser.feed_no_fault {p : FrameParser} (h : p.Inv) (b : Byte) (e : Fault) :
    p.feed b ≠ .fault e := by
  intro hf
  unfold FrameParser.feed at hf
  split at hf
  · cases hf
  · unfold FrameParser.feedCountHigh at hf; dsimp only at hf; split at hf <;> cases hf
  · unfold FrameParser.feedFuncCode at hf; dsimp only at hf; split at hf <;> cases hf
  · rename_i hst
    rw [FrameParser.feedPayload_eq h hst b] at hf
    cases hf
  · cases hf
  · unfold FrameParser.feedCrcHigh at hf; dsimp only at hf; split at hf <;> cases hf
  · cases hf

/-- The invariant makes the payload memory canonical. -/
theorem FrameParser.Inv.pbuf_wf {p : FrameParser} (h : p.Inv) : p.pbuf.wf Config.payloadRamSize := by
  have hA := h.1
  have hlt := p.cursor.isLt
  refine ⟨?_, ?_⟩
  · have : (p.pbuf.map Prod.fst).Pairwise (· < ·) := by rw [hA]; exact List.pairwise_lt_range
    rwa [List.pairwise_map] at this
  · intro c hc
    have : c.1 ∈ p.pbuf.map Prod.fst := List.mem_map_of_mem hc
    rw [hA] at this
    have := List.mem_range.1 this
    unfold Config.payloadRamSize
    omega

end Sys2Proof.Machine
end

