-- ==== Sys2Proof/Laws/PerInstr.lean ====
section
/-! SUPPORT. Per-instruction facts about the operations as syntax: the encoding of an operation lies in the
operation table's row of that operation and in no other row. -/

namespace Sys2Proof.Laws.OpcodeRow

/-- The number of an operation's row in spec/opcode_table.json, from 0. -/
def rowOf : Instr → Nat
  | .init => 0
  | .processStep => 1
  | .onByteReceived _ => 2
  | .onTransmitReady => 3
  | .push _ _ => 4
  | .pop _ => 5
  | .isFull _ => 6
  | .isEmpty _ => 7
  | .flush _ => 8
  | .feed _ => 9
  | .reset => 10
  | .encodeAndEnqueue _ _ _ => 11
  | .enqueueByte _ => 12
  | .enable _ => 13
  | .disable => 14
  | .tick => 15
  | .onFrameStart => 16
  | .supStop => 17
  | .getFuncCode => 18
  | .getPayloadLen => 19
  | .getPayloadByte _ => 20

/-- The rows of the table that cover an operation code. -/
def coveringRows (op : Byte) : List Nat :=
  (List.range opTable.length).filter fun k => (opTable[k]?.map (·.covers op)).getD false

/-- The operation's code is covered by its own row and by no other. -/
def Statement (i : Instr) : Prop := coveringRows (encode i).op = [rowOf i]

theorem of_code {i : Instr} (op : Byte) (k : Nat) (hop : (encode i).op = op) (hrow : rowOf i = k)
    (hcov : coveringRows op = [k]) : Statement i := by
  unfold Statement; rw [hop, hrow, hcov]

theorem init : Statement .init :=
  of_code 0x00#8 0 rfl rfl (by decide)
theorem processStep : Statement .processStep :=
  of_code 0x01#8 1 rfl rfl (by decide)
theorem onByteReceived (b : Byte) : Statement (.onByteReceived b) :=
  of_code 0x02#8 2 rfl rfl (by decide)
theorem onTransmitReady : Statement .onTransmitReady :=
  of_code 0x03#8 3 rfl rfl (by decide)
theorem push (f : BufSel) (b : Byte) : Statement (.push f b) := by
  cases f
  · exact of_code 0x10#8 4 rfl rfl (by decide)
  · exact of_code 0x18#8 4 rfl rfl (by decide)
theorem pop (f : BufSel) : Statement (.pop f) := by
  cases f
  · exact of_code 0x11#8 5 rfl rfl (by decide)
  · exact of_code 0x19#8 5 rfl rfl (by decide)
theorem isFull (f : BufSel) : Statement (.isFull f) := by
  cases f
  · exact of_code 0x12#8 6 rfl rfl (by decide)
  · exact of_code 0x1A#8 6 rfl rfl (by decide)
theorem isEmpty (f : BufSel) : Statement (.isEmpty f) := by
  cases f
  · exact of_code 0x13#8 7 rfl rfl (by decide)
  · exact of_code 0x1B#8 7 rfl rfl (by decide)
theorem flush (f : BufSel) : Statement (.flush f) := by
  cases f
  · exact of_code 0x14#8 8 rfl rfl (by decide)
  · exact of_code 0x1C#8 8 rfl rfl (by decide)
theorem feed (b : Byte) : Statement (.feed b) :=
  of_code 0x20#8 9 rfl rfl (by decide)
theorem reset : Statement .reset :=
  of_code 0x21#8 10 rfl rfl (by decide)
theorem encodeAndEnqueue (fc : Byte) (len : Half) (payload : List Byte) : Statement (.encodeAndEnqueue fc len payload) :=
  of_code 0x30#8 11 rfl rfl (by decide)
theorem enqueueByte (b : Byte) : Statement (.enqueueByte b) :=
  of_code 0x31#8 12 rfl rfl (by decide)
theorem enable (n : Word) : Statement (.enable n) :=
  of_code 0x40#8 13 rfl rfl (by decide)
theorem disable : Statement .disable :=
  of_code 0x41#8 14 rfl rfl (by decide)
theorem tick : Statement .tick :=
  of_code 0x42#8 15 rfl rfl (by decide)
theorem onFrameStart : Statement .onFrameStart :=
  of_code 0x43#8 16 rfl rfl (by decide)
theorem supStop : Statement .supStop :=
  of_code 0x44#8 17 rfl rfl (by decide)
theorem getFuncCode : Statement .getFuncCode :=
  of_code 0x50#8 18 rfl rfl (by decide)
theorem getPayloadLen : Statement .getPayloadLen :=
  of_code 0x51#8 19 rfl rfl (by decide)
theorem getPayloadByte (i : Half) : Statement (.getPayloadByte i) :=
  of_code 0x52#8 20 rfl rfl (by decide)

end Sys2Proof.Laws.OpcodeRow
end

