-- ==== Sys2Proof/Laws/Step.lean ====
section
/-! SUPPORT. What a step can do, once per operation: if it answers a next state, one of the listed cases
holds. Proofs about steps cite these and do not unfold the meanings. -/

namespace Sys2Proof.Machine

/-! The ring-buffer primitives. -/

theorem execPush_next {f : BufSel} {b : Byte} {s t : State} (h : execPush f b s = .next t) :
    s.PrimitiveMayIssue ∧
      ((s.pushOn f b = .ok none ∧ t = s.answer .component .full 0#32) ∨
       ∃ u, s.pushOn f b = .ok (some u) ∧ t = u.answer .component .ok 0#32) := by
  obtain ⟨hg, h⟩ := guarded_eq_next_iff.1 h
  refine ⟨primitiveGate_eq_none_iff.1 hg, ?_⟩
  split at h
  · rename_i u hu; cases h; exact .inr ⟨u, hu, rfl⟩
  · rename_i hu; cases h; exact .inl ⟨hu, rfl⟩
  · cases h

theorem execPop_next {f : BufSel} {s t : State} (h : execPop f s = .next t) :
    s.PrimitiveMayIssue ∧
      ((s.popOn f = .ok none ∧ t = s.answer .component .empty 0#32) ∨
       ∃ b u, s.popOn f = .ok (some (b, u)) ∧ t = u.answer .component .ok (byteValue b)) := by
  obtain ⟨hg, h⟩ := guarded_eq_next_iff.1 h
  refine ⟨primitiveGate_eq_none_iff.1 hg, ?_⟩
  split at h
  · rename_i b u hu; cases h; exact .inr ⟨b, u, hu, rfl⟩
  · rename_i hu; cases h; exact .inl ⟨hu, rfl⟩
  · cases h

theorem execIsFull_next {f : BufSel} {s t : State} (h : execIsFull f s = .next t) :
    s.PrimitiveMayIssue ∧ t = s.answer .component .ok (flagValue (s.ring f).isFull) := by
  obtain ⟨hg, h⟩ := guarded_eq_next_iff.1 h
  cases h
  exact ⟨primitiveGate_eq_none_iff.1 hg, rfl⟩

theorem execIsEmpty_next {f : BufSel} {s t : State} (h : execIsEmpty f s = .next t) :
    s.PrimitiveMayIssue ∧
      t = s.answer .component .ok (flagValue ((s.ring f).isEmpty (s.cap f))) := by
  obtain ⟨hg, h⟩ := guarded_eq_next_iff.1 h
  cases h
  exact ⟨primitiveGate_eq_none_iff.1 hg, rfl⟩

theorem execFlush_next {f : BufSel} {s t : State} (h : execFlush f s = .next t) :
    s.PrimitiveMayIssue ∧ t = (s.setRing f (s.ring f).flush).answer .component .ok 0#32 := by
  obtain ⟨hg, h⟩ := guarded_eq_next_iff.1 h
  cases h
  exact ⟨primitiveGate_eq_none_iff.1 hg, rfl⟩

/-! The parser. -/

/-- What the end of a feeding step can do. -/
theorem finishFeed_next {wait : PollRecord} {owner : Agent} {s t : State} {r : FeedResult}
    (h : s.finishFeed wait owner r = .next t) :
    (∃ p, r = .inProgress p ∧
      t = State.answer owner .inProgress 0#32 { s with parser := p, pollFlight := none }) ∨
    (∃ p st, ((r = .byteCountError p ∧ st = .byteCountError) ∨ (r = .crcError p ∧ st = .crcError)) ∧
      t = State.answer owner st 0#32 (State.terminate { s with parser := p, pollFlight := none })) ∨
    (∃ p, r = .crcMatch p ∧ t = { s with parser := p, pollFlight := some wait }) := by
  cases r with
  | inProgress p => cases h; exact .inl ⟨p, rfl, rfl⟩
  | byteCountError p => cases h; exact .inr (.inl ⟨p, _, .inl ⟨rfl, rfl⟩, rfl⟩)
  | crcError p => cases h; exact .inr (.inl ⟨p, _, .inr ⟨rfl, rfl⟩, rfl⟩)
  | crcMatch p => cases h; exact .inr (.inr ⟨p, rfl, rfl⟩)
  | fault e => cases h
  | inComplete => cases h

theorem finishFeed_fault {wait : PollRecord} {owner : Agent} {s : State} {r : FeedResult} {e : Fault}
    (h : s.finishFeed wait owner r = .fault e) : r = .fault e := by
  cases r <;> cases h
  rfl

theorem execFeed_next {b : Byte} {s t : State} (h : execFeed b s = .next t) :
    s.ComponentMayIssue ∧ s.finishFeed .feedInCallback .component (s.parser.feed b) = .next t := by
  obtain ⟨hg, h⟩ := guarded_eq_next_iff.1 h
  exact ⟨(feedGate_eq_none_iff.1 hg).1, h⟩

theorem execReset_next {s t : State} (h : execReset s = .next t) :
    s.PrimitiveMayIssue ∧ t = s.parserReset.answer .component .ok 0#32 := by
  obtain ⟨hg, h⟩ := guarded_eq_next_iff.1 h
  cases h
  exact ⟨primitiveGate_eq_none_iff.1 hg, rfl⟩

/-! The encoder. -/

theorem encodeStep_next {a : Agent} {i : Nat} {bytes : List Byte} {s t : State}
    (h : encodeStep a i bytes s = .next t) :
    (bytes.length ≤ i ∧ t = s.finishEnq a .ok) ∨
    (∃ b, bytes[i]? = some b ∧ s.pushOn .outbound b = .ok none ∧
      t = s.setEnq a (some (.encode i bytes true))) ∨
    (∃ b u, bytes[i]? = some b ∧ s.pushOn .outbound b = .ok (some u) ∧
      t = u.setEnq a (some (.encode (i + 1) bytes false))) := by
  unfold encodeStep at h
  split at h
  · rename_i hn; cases h; exact .inl ⟨List.getElem?_eq_none_iff.1 hn, rfl⟩
  · rename_i b hb
    split at h
    · rename_i u hu; cases h; exact .inr (.inr ⟨b, u, hb, hu, rfl⟩)
    · rename_i hu; cases h; exact .inr (.inl ⟨b, hb, hu, rfl⟩)
    · cases h

theorem execEncodeAndEnqueue_next {fc : Byte} {len : Half} {payload : List Byte} {s t : State}
    (h : execEncodeAndEnqueue fc len payload s = .next t) :
    s.EnqueueMayIssue ∧ lenFits len = true ∧ lenMatches len payload = true ∧
      encodeStep s.issuer 0 (frameBytes fc payload) s = .next t := by
  obtain ⟨hg, h⟩ := guarded_eq_next_iff.1 h
  split at h
  · cases h
  · split at h
    · cases h
    · rename_i h1 h2
      exact ⟨enqueueGate_eq_none_iff.1 hg, by simpa using h1, by simpa using h2, h⟩

theorem execEnqueueByte_next {b : Byte} {s t : State} (h : execEnqueueByte b s = .next t) :
    s.EnqueueMayIssue ∧
      ((s.pushOn .outbound b = .ok none ∧ t = s.setEnq s.issuer (some (.enqueueByte .full))) ∨
       ∃ u, s.pushOn .outbound b = .ok (some u) ∧
         t = u.setEnq s.issuer (some (.enqueueByte .ok))) := by
  obtain ⟨hg, h⟩ := guarded_eq_next_iff.1 h
  refine ⟨enqueueGate_eq_none_iff.1 hg, ?_⟩
  split at h
  · rename_i u hu; cases h; exact .inr ⟨u, hu, rfl⟩
  · rename_i hu; cases h; exact .inl ⟨hu, rfl⟩
  · cases h

theorem resumeEnq_next {a : Agent} {e : EnqRecord} {s t : State} (h : resumeEnq a e s = .next t) :
    (∃ st, t = s.finishEnq a st) ∨
      ∃ i bytes, e = .encode i bytes false ∧ encodeStep a i bytes s = .next t := by
  cases e with
  | encode i bytes failed =>
    unfold resumeEnq at h
    dsimp only at h
    split at h
    · cases h; exact .inl ⟨_, rfl⟩
    · rename_i hf
      have : failed = false := by simpa using hf
      subst this
      exact .inr ⟨i, bytes, rfl, h⟩
  | enqueueByte st => cases h; exact .inl ⟨_, rfl⟩

/-! The supervisor. -/

theorem execEnable_next {n : Word} {s t : State} (h : execEnable n s = .next t) :
    s.PollMayIssue ∧ t = State.answer .poll .ok 0#32
      { s with sup := { s.sup with armed := true, tickBudget := n } } := by
  obtain ⟨hg, h⟩ := guarded_eq_next_iff.1 h
  cases h
  exact ⟨pollGate_eq_none_iff.1 hg, rfl⟩

theorem execDisable_next {s t : State} (h : execDisable s = .next t) :
    s.PollMayIssue ∧ t = s.disarm.answer .poll .ok 0#32 := by
  obtain ⟨hg, h⟩ := guarded_eq_next_iff.1 h
  cases h
  exact ⟨pollGate_eq_none_iff.1 hg, rfl⟩

/-- Everything `TICK` can do to the state: ignored, counted, or expired. -/
theorem countTick_cases (s : State) :
    ((s.sup.armed = false ∨ s.sup.running = false) ∧ s.countTick = s) ∨
    (s.sup.armed = true ∧ s.sup.running = true ∧
      (s.sup.tickCount + 1#32).toNat < s.sup.tickBudget.toNat ∧
      s.countTick = { s with sup := { s.sup with tickCount := s.sup.tickCount + 1#32 } }) ∨
    (s.sup.armed = true ∧ s.sup.running = true ∧
      s.sup.tickBudget.toNat ≤ (s.sup.tickCount + 1#32).toNat ∧
      s.countTick = { s with
        sup := { s.sup with tickCount := s.sup.tickCount + 1#32, running := false }
        trace := s.trace ++ [.timerStop], parser := FrameParser.initial }) := by
  unfold State.countTick
  split
  · rename_i h; exact .inl ⟨h, rfl⟩
  · rename_i h
    have h1 : s.sup.armed = true ∧ s.sup.running = true := by
      constructor
      · exact Bool.not_eq_false _ ▸ fun hx => h (.inl hx)
      · exact Bool.not_eq_false _ ▸ fun hx => h (.inr hx)
    dsimp only
    split
    · rename_i hle
      refine .inr (.inr ⟨h1.1, h1.2, hle, ?_⟩)
      simp [State.supStop, State.parserReset, State.emit, h1.2]
    · rename_i hle
      exact .inr (.inl ⟨h1.1, h1.2, Nat.not_le.1 hle, rfl⟩)

theorem execTick_next {s t : State} (h : execTick s = .next t) :
    s.PollMayIssue ∧ t = s.countTick.answer .poll .ok 0#32 := by
  obtain ⟨hg, h⟩ := guarded_eq_next_iff.1 h
  cases h
  exact ⟨pollGate_eq_none_iff.1 hg, rfl⟩

theorem execOnFrameStart_next {s t : State} (h : execOnFrameStart s = .next t) :
    s.PrimitiveMayIssue ∧ t = s.frameStart.answer .component .ok 0#32 := by
  obtain ⟨hg, h⟩ := guarded_eq_next_iff.1 h
  cases h
  exact ⟨primitiveGate_eq_none_iff.1 hg, rfl⟩

theorem execSupStop_next {s t : State} (h : execSupStop s = .next t) :
    s.PrimitiveMayIssue ∧ t = s.supStop.answer .component .ok 0#32 := by
  obtain ⟨hg, h⟩ := guarded_eq_next_iff.1 h
  cases h
  exact ⟨primitiveGate_eq_none_iff.1 hg, rfl⟩

/-! The bridge. -/

theorem execInit_next {s t : State} (h : execInit s = .next t) :
    s.cfg.valid = true ∧ s.issuer = .poll ∧ s.bridge.inited = false ∧
      t = s.initialised.answer .poll .ok 0#32 := by
  obtain ⟨hg, h⟩ := guarded_eq_next_iff.1 h
  cases h
  obtain ⟨h1, h2, h3⟩ := initGate_eq_none_iff.1 hg
  exact ⟨h1, h2, h3, rfl⟩

theorem execOnByteReceived_next {b : Byte} {s t : State} (h : execOnByteReceived b s = .next t) :
    s.IsrMayIssue ∧
      ((s.noteArrival.pushOn .inbound b = .ok none ∧
          t = s.noteArrival.answer .isr .fifoFull 0#32) ∨
       ∃ u, s.noteArrival.pushOn .inbound b = .ok (some u) ∧ t = u.answer .isr .ok 0#32) := by
  obtain ⟨hg, h⟩ := guarded_eq_next_iff.1 h
  refine ⟨isrGate_eq_none_iff.1 hg, ?_⟩
  split at h
  · rename_i u hu; cases h; exact .inr ⟨u, hu, rfl⟩
  · rename_i hu; cases h; exact .inl ⟨hu, rfl⟩
  · cases h

theorem execOnTransmitReady_next {s t : State} (h : execOnTransmitReady s = .next t) :
    s.IsrMayIssue ∧ s.bridge.txIntEn = true ∧
      ((s.popOn .outbound = .ok none ∧ t = State.answer .isr .outFifoEmpty 0#32
          (State.emit .txIntDisable { s with bridge := { s.bridge with txIntEn := false } })) ∨
       ∃ b u, s.popOn .outbound = .ok (some (b, u)) ∧
         t = (u.emit (.send b)).answer .isr .ok 0#32) := by
  obtain ⟨hg, h⟩ := guarded_eq_next_iff.1 h
  obtain ⟨h1, h2⟩ := transmitGate_eq_none_iff.1 hg
  refine ⟨h1, h2, ?_⟩
  split at h
  · rename_i b u hu; cases h; exact .inr ⟨b, u, hu, rfl⟩
  · rename_i hu; cases h; exact .inl ⟨hu, rfl⟩
  · cases h

theorem execProcessStep_next {s t : State} (h : execProcessStep s = .next t) :
    s.PollMayIssue ∧
      ((s.popOn .inbound = .ok none ∧ t = s.answer .poll .fifoEmpty 0#32) ∨
       ∃ b u, s.popOn .inbound = .ok (some (b, u)) ∧
         t = { u with pollFlight := some (.popped b) }) := by
  obtain ⟨hg, h⟩ := guarded_eq_next_iff.1 h
  refine ⟨pollGate_eq_none_iff.1 hg, ?_⟩
  split at h
  · rename_i b u hu; cases h; exact .inr ⟨b, u, hu, rfl⟩
  · rename_i hu; cases h; exact .inl ⟨hu, rfl⟩
  · cases h

/-! The accessors. -/

theorem execGetFuncCode_next {s t : State} (h : execGetFuncCode s = .next t) :
    s.CallbackMayIssue ∧ t = s.answer .callback .ok (byteValue s.parser.funcCode) := by
  obtain ⟨hg, h⟩ := guarded_eq_next_iff.1 h
  cases h
  exact ⟨accessorGate_eq_none_iff.1 hg, rfl⟩

theorem execGetPayloadLen_next {s t : State} (h : execGetPayloadLen s = .next t) :
    s.CallbackMayIssue ∧ t = s.answer .callback .ok (halfValue s.parser.payloadLen) := by
  obtain ⟨hg, h⟩ := guarded_eq_next_iff.1 h
  cases h
  exact ⟨accessorGate_eq_none_iff.1 hg, rfl⟩

theorem execGetPayloadByte_next {i : Half} {s t : State} (h : execGetPayloadByte i s = .next t) :
    s.CallbackMayIssue ∧ i.toNat < s.parser.payloadLen.toNat ∧
      ∃ b, s.parser.pbuf.read i.toNat = some b ∧ t = s.answer .callback .ok (byteValue b) := by
  obtain ⟨hg, h⟩ := guarded_eq_next_iff.1 h
  refine ⟨accessorGate_eq_none_iff.1 hg, ?_⟩
  split at h
  · cases h
  · rename_i hlt
    split at h
    · rename_i b hb
      cases h
      exact ⟨Nat.not_le.1 hlt, b, (memRead_eq_ok_iff.1 hb).2, rfl⟩
    · cases h

/-! The later steps of operations in flight. -/

theorem resumePoll_next {s t : State} (h : resumePoll s = .next t) :
    s.cfg.valid = true ∧
      ((∃ b, s.pollFlight = some (.popped b) ∧
          s.finishFeed .inCallback .poll (s.parser.feed b) = .next t) ∨
       ∃ e, s.pollFlight = some (.enq e) ∧ resumeEnq .poll e s = .next t) := by
  obtain ⟨hg, h⟩ := guarded_eq_next_iff.1 h
  refine ⟨flightGate_eq_none_iff.1 hg, ?_⟩
  split at h
  · cases h
  · rename_i b hb; exact .inl ⟨b, hb, h⟩
  · cases h
  · cases h
  · rename_i e he; exact .inr ⟨e, he, h⟩

theorem resumeCallback_next {s t : State} (h : resumeCallback s = .next t) :
    s.cfg.valid = true ∧ ∃ e, s.cbFlight = some e ∧ resumeEnq .callback e s = .next t := by
  obtain ⟨hg, h⟩ := guarded_eq_next_iff.1 h
  refine ⟨flightGate_eq_none_iff.1 hg, ?_⟩
  split at h
  · cases h
  · rename_i e he; exact ⟨e, he, h⟩

theorem callbackReturn_next {r : Word} {s t : State} (h : callbackReturn r s = .next t) :
    s.cfg.valid = true ∧ waitsForCallback s.pollFlight ∧ s.cbFlight = none ∧
      t = s.finishCallback s.callbackOwner r := by
  obtain ⟨hg, h⟩ := guarded_eq_next_iff.1 h
  cases h
  obtain ⟨h1, h2, h3⟩ := returnGate_eq_none_iff.1 hg
  exact ⟨h1, h2, h3, rfl⟩

/-! The step. -/

/-- A request that is issued and answers a next state names an operation. -/
theorem issueRequest_next {r : Request} {s t : State} (h : issueRequest r s = .next t) :
    ∃ i, decode r = .ok i ∧ exec i s = .next t := by
  unfold issueRequest at h
  split at h
  · rename_i i hi; exact ⟨i, hi, h⟩
  · cases h

/-- Everything a step can do when it answers a next state. -/
theorem step_next {s t : State} (h : step s = .next t) :
    (s.sched = [] ∧ t = s) ∨
    (∃ a r rest i, s.sched = .issue a r :: rest ∧ decode r = .ok i ∧
      exec i (s.takeMove a rest) = .next t) ∨
    (∃ rest, s.sched = .resumePoll :: rest ∧ resumePoll (s.takeMove .poll rest) = .next t) ∨
    (∃ rest, s.sched = .resumeCallback :: rest ∧
      resumeCallback (s.takeMove .callback rest) = .next t) ∨
    (∃ r rest, s.sched = .callbackReturn r :: rest ∧
      callbackReturn r (s.takeMove .callback rest) = .next t) := by
  unfold step at h
  split at h
  · rename_i hs; cases h; exact .inl ⟨hs, rfl⟩
  · rename_i a r rest hs
    obtain ⟨i, hi, hx⟩ := issueRequest_next h
    exact .inr (.inl ⟨a, r, rest, i, hs, hi, hx⟩)
  · rename_i rest hs; exact .inr (.inr (.inl ⟨rest, hs, h⟩))
  · rename_i rest hs; exact .inr (.inr (.inr (.inl ⟨rest, hs, h⟩)))
  · rename_i r rest hs; exact .inr (.inr (.inr (.inr ⟨r, rest, hs, h⟩)))

end Sys2Proof.Machine
end

