-- ==== Sys2Proof/Tests/Slice0.lean ====
section
/-! SUPPORT. Tests of the model: the operand checks, every constructor's decoding on a request written out
from 30_encoding.md R84 and R86, one-step tests with expected values from spec/95_test_vectors.md and the
rules' worked examples, and for every statement a witness of its hypotheses. -/

namespace Sys2Proof.Machine.Tests

open Sys2Proof Sys2Proof.Machine

/-! Small states. -/

/-- The reset state of an instance with the given capacities, a step of agent `a` being taken. -/
def start (a : Agent) (capIn capOut : Word) : State :=
  { State.resetWith ⟨capIn, capOut, false⟩ with issuer := a }

/-- The state before `INIT`. -/
def cold : State := { start .poll 8 8 with bridge := ⟨false, false⟩ }

/-- A component bench with `F` as the given ring buffer, both capacities 4. -/
def bench (f : BufSel) (rd wr : Word) (buf : Memory) : State :=
  (start .component 4 4).setRing f ⟨rd, wr, buf⟩

/-- A component bench with the parser as given. -/
def parsing (p : FrameParser) : State := { start .component 4 4 with parser := p }

/-- The parser of vector V20 after `05 00 01 AA`. -/
def midPayload : FrameParser :=
  ⟨.awaitPayload, 5, 5, 2, 1, 1, 0x5F80, 0, 0, true, [(0, 0xAA#8)]⟩

/-- The parser of vector V20 after `05 00 01 AA BB 1E`. -/
def lastByte : FrameParser :=
  ⟨.awaitCrcHigh, 5, 5, 2, 1, 2, 0xD31E, 0x1E, 0, true, [(0, 0xAA#8), (1, 0xBB#8)]⟩

/-- The parser of vector V20 in `Complete`. -/
def whole : FrameParser := { lastByte with st := .complete, crcIn := 0xD31E }

/-- The callback running on the frame of vector V20. -/
def calling : State :=
  { start .callback 16 16 with parser := whole, pollFlight := some .inCallback }

/-- An armed and running supervisor. -/
def watching (a : Agent) (budget count : Word) : State :=
  { start a 16 16 with sup := ⟨true, budget, count, true⟩, trace := [.timerStart] }

/-- `OUT` of the given capacity holding the bytes `01 02`, the transmit interrupt enabled. -/
def sending (a : Agent) (cap : Word) : State :=
  { start a 16 cap with
    outbound := ⟨0, 3, [(1, 0x01#8), (2, 0x02#8)]⟩
    bridge := ⟨true, true⟩
    trace := [.txIntEnable] }

/-- The state a result goes to. -/
def after (r : Result State) : Option State :=
  match r with
  | .next t => some t
  | .fault _ => none
  | .refused _ => none

/-- The last response given. -/
def said (r : Result State) : Option Answer := (after r).bind fun t => t.answers.getLast?

/-! Well-formedness: one ill-formed term per check (42_frame_encoder.md R155). -/

theorem test_payload_too_long :
    (Instr.encodeAndEnqueue 0 65533 (List.replicate 65533 0)).wellFormed = false := by decide

theorem test_payload_length_differs :
    (Instr.encodeAndEnqueue 0x01 2 [0xAA]).wellFormed = false := by decide

theorem test_longest_payload_is_well_formed :
    (Instr.encodeAndEnqueue 0 65532 (List.replicate 65532 0)).wellFormed = true := by
  simp only [Instr.wellFormed, lenFits, lenMatches, List.length_replicate]; decide

/-! Decoding: every constructor, the request written out from 30_encoding.md R83, R84, R86. -/

theorem test_decode_init : decode ⟨0b0000_0000#8, 0#32, []⟩ = .ok .init := by decide

theorem test_decode_process_step : decode ⟨0b0000_0001#8, 0#32, []⟩ = .ok .processStep := by decide

/-- The bits of `arg` above the byte are ignored (R82). -/
theorem test_decode_on_byte_received :
    decode ⟨0b0000_0010#8, 0xFFFFFF05#32, []⟩ = .ok (.onByteReceived 0x05) := by decide

theorem test_decode_on_transmit_ready :
    decode ⟨0b0000_0011#8, 0#32, []⟩ = .ok .onTransmitReady := by decide

theorem test_decode_push :
    decode ⟨0b0001_0000#8, 0x00000011#32, []⟩ = .ok (.push .inbound 0x11) ∧
      decode ⟨0b0001_1000#8, 0x00000022#32, []⟩ = .ok (.push .outbound 0x22) := by decide

theorem test_decode_pop :
    decode ⟨0b0001_0001#8, 0#32, []⟩ = .ok (.pop .inbound) ∧
      decode ⟨0b0001_1001#8, 0#32, []⟩ = .ok (.pop .outbound) := by decide

theorem test_decode_is_full :
    decode ⟨0b0001_0010#8, 0#32, []⟩ = .ok (.isFull .inbound) ∧
      decode ⟨0b0001_1010#8, 0#32, []⟩ = .ok (.isFull .outbound) := by decide

theorem test_decode_is_empty :
    decode ⟨0b0001_0011#8, 0#32, []⟩ = .ok (.isEmpty .inbound) ∧
      decode ⟨0b0001_1011#8, 0#32, []⟩ = .ok (.isEmpty .outbound) := by decide

theorem test_decode_flush :
    decode ⟨0b0001_0100#8, 0#32, []⟩ = .ok (.flush .inbound) ∧
      decode ⟨0b0001_1100#8, 0#32, []⟩ = .ok (.flush .outbound) := by decide

theorem test_decode_feed : decode ⟨0b0010_0000#8, 0x000000D3#32, []⟩ = .ok (.feed 0xD3) := by decide

theorem test_decode_reset : decode ⟨0b0010_0001#8, 0#32, []⟩ = .ok .reset := by decide

/-- Program P6, line 2: function code in `arg[7:0]`, length in `arg[23:8]`. -/
theorem test_decode_encode_and_enqueue :
    decode ⟨0b0011_0000#8, 0x00000201#32, [0xAA, 0xBB]⟩ =
      .ok (.encodeAndEnqueue 0x01 2 [0xAA, 0xBB]) := by decide

theorem test_decode_enqueue_byte :
    decode ⟨0b0011_0001#8, 0x0000007E#32, []⟩ = .ok (.enqueueByte 0x7E) := by decide

theorem test_decode_enable :
    decode ⟨0b0100_0000#8, 0x80000003#32, []⟩ = .ok (.enable 0x80000003) := by decide

theorem test_decode_disable : decode ⟨0b0100_0001#8, 0#32, []⟩ = .ok .disable := by decide

theorem test_decode_tick : decode ⟨0b0100_0010#8, 0#32, []⟩ = .ok .tick := by decide

theorem test_decode_on_frame_start :
    decode ⟨0b0100_0011#8, 0#32, []⟩ = .ok .onFrameStart := by decide

theorem test_decode_sup_stop : decode ⟨0b0100_0100#8, 0#32, []⟩ = .ok .supStop := by decide

theorem test_decode_get_func_code : decode ⟨0b0101_0000#8, 0#32, []⟩ = .ok .getFuncCode := by decide

theorem test_decode_get_payload_len :
    decode ⟨0b0101_0001#8, 0#32, []⟩ = .ok .getPayloadLen := by decide

theorem test_decode_get_payload_byte :
    decode ⟨0b0101_0010#8, 0x0001FFFE#32, []⟩ = .ok (.getPayloadByte 0xFFFE) := by decide

/-- The first and last unassigned code, and `sel` set outside unit 1 (R87). -/
theorem test_decode_unassigned :
    decode ⟨0x04#8, 0#32, []⟩ = .error (.unassignedOp 0x04) ∧
      decode ⟨0x1D#8, 0#32, []⟩ = .error (.unassignedOp 0x1D) ∧
      decode ⟨0x28#8, 0#32, []⟩ = .error (.unassignedOp 0x28) ∧
      decode ⟨0xFF#8, 0#32, []⟩ = .error (.unassignedOp 0xFF) := by decide

/-- No operation code belongs to two rows of the table. -/
theorem test_rows_do_not_overlap :
    opTable.Pairwise fun x y => x.code &&& y.mask ≠ y.code &&& x.mask := by decide

/-- The longer request: `op`, `arg`, then the payload bytes from bit 40 up (log entry 10). -/
theorem test_table_word :
    decodeTableWord 56 0xBBAA0000020130 = some (.encodeAndEnqueue 0x01 2 [0xAA, 0xBB]) := by decide

/-- An operation placed by `withFetchWord` runs as the next step (log entry 2). -/
theorem test_fetch_word :
    said (step (State.reset.withFetchWord 8 0x13)) = some ⟨.component, .ok, 1⟩ ∧
      (after (step (State.reset.withFetchWord 8 0x00))).isSome = true := by decide

/-! CRC and frame vectors. -/

/-- V10: `crc16_step(0xFFFF, 0x01)`. -/
theorem test_crc_step : crcStep 0xFFFF 0x01 = 0x807E := by decide

/-- V11: four rows of the table, the check string among them. -/
theorem test_crc :
    crc16 [] = 0xFFFF ∧ crc16 [0x01, 0xAA, 0xBB] = 0xD31E ∧ crc16 [0xFF] = 0x00FF ∧
      crc16 [0x31, 0x32, 0x33, 0x34, 0x35, 0x36, 0x37, 0x38, 0x39] = 0x4B37 := by decide +kernel

/-- V30: three rows. -/
theorem test_frame_bytes :
    frameBytes 0x01 [0xAA, 0xBB] = [0x05, 0x00, 0x01, 0xAA, 0xBB, 0x1E, 0xD3] ∧
      frameBytes 0x05 [] = [0x03, 0x00, 0x05, 0x7F, 0x43] ∧
      frameBytes 0x10 [1, 2, 3, 4] = [0x07, 0x00, 0x10, 1, 2, 3, 4, 0x44, 0xCC] := by decide +kernel

/-! The ring buffer. -/

/-- V1, third line: the write index wraps. -/
theorem test_push_wraps :
    (after (exec (.push .inbound 0x33) (bench .inbound 0 3 [(1, 0x11#8), (2, 0x22#8)]))).map
        (fun t => t.inbound) =
      some ⟨0, 0, [(1, 0x11#8), (2, 0x22#8), (3, 0x33#8)]⟩ := by decide

/-- V1, fourth line: nothing changes at `Full`. -/
theorem test_push_full :
    exec (.push .outbound 0x44) (bench .outbound 0 0 [(1, 0x11#8), (2, 0x22#8), (3, 0x33#8)]) =
      .next { bench .outbound 0 0 [(1, 0x11#8), (2, 0x22#8), (3, 0x33#8)] with
        answers := [⟨.component, .full, 0⟩] } := rfl

/-- V4, last line: the read index wraps, and the byte is read at the new index. -/
theorem test_pop_wraps :
    (after (exec (.pop .outbound)
        (bench .outbound 3 1 [(0, 0xB4#8), (1, 0xB1#8), (2, 0xB2#8), (3, 0xB3#8)]))).map
        (fun t => (t.outbound.rd, t.outbound.wr, t.answers)) =
      some (0, 1, [⟨.component, .ok, 0xB4⟩]) := by decide

/-- V1, last line: `Empty` at the wrap, the advance not committed. -/
theorem test_pop_empty :
    (after (exec (.pop .inbound) (bench .inbound 3 0 []))).map
        (fun t => (t.inbound.rd, t.answers)) = some (3, [⟨.component, .empty, 0⟩]) := by decide

/-- V5: full and not full. -/
theorem test_is_full :
    said (exec (.isFull .inbound) (bench .inbound 2 2 [])) = some ⟨.component, .ok, 1⟩ ∧
      said (exec (.isFull .outbound) (bench .outbound 3 0 [])) = some ⟨.component, .ok, 0⟩ := by decide

/-- V5: empty at the wrap, and not empty. -/
theorem test_is_empty :
    said (exec (.isEmpty .outbound) (bench .outbound 3 0 [])) = some ⟨.component, .ok, 1⟩ ∧
      said (exec (.isEmpty .inbound) (bench .inbound 2 2 [])) = some ⟨.component, .ok, 0⟩ := by decide

/-- V6: the array is not touched. -/
theorem test_flush :
    (after (exec (.flush .inbound)
        (bench .inbound 2 1 [(0, 4#8), (1, 1#8), (2, 2#8), (3, 3#8)]))).map (fun t => t.inbound) =
      some ⟨0, 1, [(0, 4#8), (1, 1#8), (2, 2#8), (3, 3#8)]⟩ := by decide

/-! The parser. -/

/-- V25, second row: ByteCount 2 wraps to 65535 payload bytes. -/
theorem test_feed_count_two :
    (after (exec (.feed 0x00)
        (parsing { FrameParser.initial with st := .awaitCountHigh, countLo := 0x02 }))).map
        (fun t => (t.parser.st, t.parser.count, t.parser.payloadLen, t.answers)) =
      some (.awaitFuncCode, 2, 0xFFFF, [⟨.component, .inProgress, 0⟩]) := by decide

/-- V20 and V23: the right last byte calls the callback, a flipped bit ends in `CrcError`. -/
theorem test_feed_last_byte :
    (after (exec (.feed 0xD3) (parsing lastByte))).map (fun t => (t.parser.st, t.pollFlight)) =
        some (.complete, some .feedInCallback) ∧
      (after (exec (.feed 0xD2) (parsing lastByte))).map (fun t => (t.parser, t.answers)) =
        some (FrameParser.initial, [⟨.component, .crcError, 0⟩]) := by decide

/-- V26: `RESET` in mid-payload. -/
theorem test_reset :
    (after (exec .reset (parsing midPayload))).map (fun t => t.parser) =
      some ⟨.awaitCountLow, 0, 0, 0, 0, 0, 0xFFFF, 0, 0, false, []⟩ := by decide

/-! The encoder. -/

/-- V31: the first of the seven pushes into a flushed `OUT`. -/
theorem test_encode_first_push :
    (after (exec (.encodeAndEnqueue 0x01 2 [0xAA, 0xBB]) (start .poll 16 16))).map
        (fun t => (t.outbound, t.pollFlight, t.answers)) =
      some (⟨0, 2, [(1, 0x05#8)]⟩,
        some (.enq (.encode 1 [0x05, 0x00, 0x01, 0xAA, 0xBB, 0x1E, 0xD3] false)), []) := by decide +kernel

/-- V31, the row `CAP_OUT = 2`: the second push finds `Full`, which the record keeps. -/
theorem test_encode_full :
    (after (resumePoll
        { start .poll 16 2 with
          outbound := ⟨0, 0, [(1, 0x05#8)]⟩
          pollFlight := some (.enq (.encode 1 [0x05, 0x00, 0x01, 0xAA, 0xBB, 0x1E, 0xD3] false)) })).map
        (fun t => (t.outbound.wr, t.pollFlight, t.trace)) =
      some (0, some (.enq (.encode 1 [0x05, 0x00, 0x01, 0xAA, 0xBB, 0x1E, 0xD3] true)), []) := by decide

/-- The worked example of 42_frame_encoder.md R156: its first step. -/
theorem test_enqueue_byte :
    (after (exec (.enqueueByte 0x7E) (start .poll 16 16))).map
        (fun t => (t.outbound, t.pollFlight, t.bridge.txIntEn)) =
      some (⟨0, 2, [(1, 0x7E#8)]⟩, some (.enq (.enqueueByte .ok)), false) := by decide

/-- V33, last byte: `FifoFull`, and the enable is emitted all the same. -/
theorem test_enqueue_byte_full :
    (after (resumePoll { start .poll 16 4 with pollFlight := some (.enq (.enqueueByte .full)) })).map
        (fun t => (t.answers, t.trace, t.bridge.txIntEn, t.pollFlight)) =
      some ([⟨.poll, .fifoFull, 0⟩], [.txIntEnable], true, none) := by decide

/-! The supervisor. -/

/-- V43: a lowered budget leaves the count and the running flag. -/
theorem test_enable :
    (after (exec (.enable 2) (watching .poll 10 4))).map (fun t => (t.sup, t.trace)) =
      some (⟨true, 2, 4, true⟩, [.timerStart]) := by decide

/-- V42: `DISABLE` of a running supervisor. -/
theorem test_disable :
    (after (exec .disable (watching .poll 3 0))).map (fun t => (t.sup, t.trace)) =
      some (⟨false, 3, 0, false⟩, [.timerStart, .timerStop]) := by decide

/-- V42: the third tick expires, in mid-payload; `TICK` answers `Ok`. -/
theorem test_tick_expires :
    (after (exec .tick { watching .poll 3 2 with parser := midPayload })).map
        (fun t => (t.sup, t.parser, t.answers)) =
      some (⟨true, 3, 3, false⟩, FrameParser.initial, [⟨.poll, .ok, 0⟩]) := by decide

/-- V42: the tick before it leaves the parser; V43: a budget of 0 expires at once. -/
theorem test_tick_counts :
    (after (exec .tick { watching .poll 3 1 with parser := midPayload })).map
        (fun t => (t.sup, t.parser)) = some (⟨true, 3, 2, true⟩, midPayload) ∧
      (after (exec .tick (watching .poll 0 0))).map (fun t => t.sup) =
        some ⟨true, 0, 1, false⟩ := by decide

/-- The worked examples of 43_timeout_supervisor.md R167. -/
theorem test_on_frame_start :
    (after (exec .onFrameStart { start .component 4 4 with sup := ⟨true, 9, 7, false⟩ })).map
        (fun t => (t.sup, t.trace)) = some (⟨true, 9, 0, true⟩, [.timerStart]) ∧
      (after (exec .onFrameStart (watching .component 9 2))).map (fun t => (t.sup, t.trace)) =
        some (⟨true, 9, 0, true⟩, [.timerStart]) := by decide

/-- The worked example of 43_timeout_supervisor.md R169. -/
theorem test_sup_stop :
    (after (exec .supStop (watching .component 9 2))).map (fun t => (t.sup, t.trace)) =
      some (⟨true, 9, 2, false⟩, [.timerStart, .timerStop]) := by decide

/-! The bridge. -/

/-- The worked example of 44_io_bridge.md R185, from a state with stale registers. -/
theorem test_init :
    (after (exec .init { cold with
        inbound := ⟨5, 2, [(3, 9#8)]⟩, parser := midPayload, sup := ⟨true, 1, 1, true⟩ })).map
        (fun t => (t.inbound, t.parser.st, t.sup, t.bridge, t.trace)) =
      some (⟨0, 1, []⟩, .awaitCountLow, ⟨false, 0, 0, false⟩, ⟨false, true⟩, []) := by decide

/-- The worked example of 44_io_bridge.md R188. -/
theorem test_on_byte_received :
    (after (exec (.onByteReceived 0x05)
        { start .isr 16 16 with sup := ⟨true, 3, 0, false⟩ })).map
        (fun t => (t.sup, t.trace, t.inbound, t.answers)) =
      some (⟨true, 3, 0, true⟩, [.timerStart], ⟨0, 2, [(1, 0x05#8)]⟩, [⟨.isr, .ok, 0⟩]) := by decide

/-- V44: a byte that overflows `IN` still restarts the supervisor. -/
theorem test_on_byte_received_full :
    (after (exec (.onByteReceived 0x03)
        { watching .isr 3 2 with inbound := ⟨4, 4, []⟩ })).map
        (fun t => (t.sup.tickCount, t.inbound, t.answers)) =
      some (0, ⟨4, 4, []⟩, [⟨.isr, .fifoFull, 0⟩]) := by decide

/-- The worked example of 44_io_bridge.md R192. -/
theorem test_on_transmit_ready :
    (after (exec .onTransmitReady (sending .isr 16))).map
        (fun t => (t.outbound.rd, t.trace, t.answers, t.bridge.txIntEn)) =
      some (1, [.txIntEnable, .send 0x01], [⟨.isr, .ok, 0⟩], true) := by decide

/-- 44_io_bridge.md R193: the operation that finds `OUT` empty disables the interrupt. -/
theorem test_on_transmit_ready_empty :
    (after (exec .onTransmitReady { start .isr 16 16 with bridge := ⟨true, true⟩ })).map
        (fun t => (t.outbound.rd, t.trace, t.answers, t.bridge.txIntEn)) =
      some (0, [.txIntDisable], [⟨.isr, .outFifoEmpty, 0⟩], false) := by decide

/-- 44_io_bridge.md R196: the popped byte is in neither `IN` nor the parser. -/
theorem test_process_step_pops :
    (after (exec .processStep
        { start .poll 16 16 with inbound := ⟨0, 2, [(1, 0x05#8)]⟩ })).map
        (fun t => (t.inbound.rd, t.parser, t.pollFlight, t.answers)) =
      some (1, FrameParser.initial, some (.popped 0x05), []) := by decide

/-- V20 and 44_io_bridge.md R195: the callback's value comes back as `Parsed`. -/
theorem test_process_step_parsed :
    (after (callbackReturn 0x2A calling)).map (fun t => (t.parser, t.pollFlight, t.answers)) =
      some (FrameParser.initial, none, [⟨.poll, .parsed, 0x2A⟩]) := by decide

/-! The accessors: the worked examples of 44_io_bridge.md R201 to R203. -/

theorem test_get_func_code : said (exec .getFuncCode calling) = some ⟨.callback, .ok, 0x01⟩ := by decide

theorem test_get_payload_len : said (exec .getPayloadLen calling) = some ⟨.callback, .ok, 2⟩ := by decide

theorem test_get_payload_byte :
    said (exec (.getPayloadByte 1) calling) = some ⟨.callback, .ok, 0xBB⟩ := by decide

theorem test_get_payload_byte_out_of_range :
    exec (.getPayloadByte 2) calling = .refused .payloadIndexOutOfRange := rfl

/-- 41_frame_parser.md R138: `RESET` may be applied in `Complete`; here the callback of `PROCESS_STEP` runs. -/
theorem test_reset_in_complete :
    let s := { calling with issuer := .component }
    said (exec .reset s) = some ⟨.component, .ok, 0⟩ ∧
      (after (exec .reset s)).map (fun t => (t.parser, t.pollFlight)) =
        some (FrameParser.initial, some .inCallback) := by decide

/-! Witnesses: for every statement with hypotheses, a state and operands that meet them. -/

/-- The invariant from its parts, each small enough to decide. -/
theorem inv_of {s : State}
    (h : s.cfg.valid = true ∧ s.bridge.inited = true ∧ s.inbound.Inv s.cfg.capIn ∧
      s.outbound.Inv s.cfg.capOut ∧ s.parser.pbuf.wf Config.payloadRamSize)
    (hp : s.parser.Inv)
    (hf : ((s.parser.st = .complete → waitsForCallback s.pollFlight) ∧
        (waitsForCallback s.pollFlight → s.parser.st = .complete ∨ s.parser = FrameParser.initial)) ∧
      (s.cbFlight ≠ none → waitsForCallback s.pollFlight) ∧
      (s.pollFlight.bind PollRecord.enqueue).all EnqRecord.inFrame = true ∧
      s.cbFlight.all EnqRecord.inFrame = true) : s.Inv :=
  ⟨h.1, h.2.1, h.2.2.1, h.2.2.2.1, hp, h.2.2.2.2, hf.1, hf.2.1, hf.2.2.1, hf.2.2.2⟩

/-- `s` with one move to take. -/
def next (m : Move) (s : State) : State := { s with sched := [m] }

theorem wit_UnassignedCodesRefused :
    (∃ (s : State) (a : Agent) (r : Request) (rest : List Move),
      s.sched = .issue a r :: rest ∧ unassigned r.op = true) ∧
    unassigned 0xFF = true ∧ unassigned 0x04 = true ∧ unassigned 0x53 = true ∧
    unassigned 0x52 = false ∧ unassigned 0x1C = false :=
  ⟨⟨next (.issue .poll ⟨0x0F, 0, []⟩) State.reset, .poll, ⟨0x0F, 0, []⟩, [], by decide⟩, by decide⟩

theorem wit_StepRunsDecodedOperation :
    (next (.issue .poll ⟨0x42, 0, []⟩) State.reset).sched = [.issue .poll ⟨0x42, 0, []⟩] ∧
    decode ⟨0x42, 0, []⟩ = .ok .tick ∧
    (next .resumePoll State.reset).sched = [.resumePoll] ∧
    (next .resumeCallback calling).sched = [.resumeCallback] ∧
    (next (.callbackReturn 7) calling).sched = [.callbackReturn 7] ∧ State.reset.sched = [] := by
  decide

theorem wit_InitLeavesResetValues : cold.InitMayIssue := by decide

theorem wit_InitOnceAndFirst :
    State.reset.bridge.inited = true ∧
    (cold.bridge.inited = false ∧ Instr.enable 3 ≠ .init) ∧
    (start .poll 1 2).cfg.capIn.toNat < 2 ∧ (start .poll 2 0).cfg.capOut.toNat < 2 := by decide

theorem wit_WrongAgentRefused :
    (start .isr 2 2).cfg.valid = true ∧ belongsTo (start .isr 2 2).issuer .tick = false := by decide

theorem wit_PollDoesNotPreemptItself :
    let s := { start .poll 2 2 with pollFlight := some (.popped 0x05) }
    let u := { s with issuer := .component }
    let v := { calling with cbFlight := some (.enqueueByte .ok) }
    (s.cfg.valid = true ∧ s.issuer = .poll ∧ s.bridge.inited = true ∧ s.pollFlight ≠ none ∧
      belongsTo .poll .tick = true ∧ Instr.tick ≠ .init) ∧
    (u.PrimitiveMayIssue ∧ u.pollFlight ≠ none ∧ u.parser.st ≠ .complete) ∧
    (v.cfg.valid = true ∧ v.issuer = .callback ∧ v.bridge.inited = true ∧
      waitsForCallback v.pollFlight ∧ v.cbFlight ≠ none ∧ v.parser.st = .complete ∧
      belongsTo .callback .getFuncCode = true ∧
      (belongsTo .callback (.enqueueByte 0x7E) = true ∧ belongsTo .poll (.enqueueByte 0x7E) = true)) := by
  decide

theorem wit_ResetMeetsInvariants :
    Config.valid ⟨2, 2, true⟩ = true ∧ Config.valid ⟨0xFFFFFFFF, 2, false⟩ = true ∧
      Config.valid ⟨1, 2, false⟩ = false := by decide

theorem wit_InitEstablishesInvariants : cold.InitMayIssue ∧ cold.trace = [] := by decide

theorem calling_inv : calling.Inv := inv_of (by decide) (by decide +kernel) (by decide)

theorem sending_inv : (sending .isr 4).Inv := inv_of (by decide) (by decide) (by decide)

theorem wit_StepKeepsInvariant :
    (∃ s t : State, s.Inv ∧ step s = .next t) ∧
    ∃ (r : Word) (s t : State), s.sched = [.callbackReturn r] ∧ s.Inv ∧ step s = .next t :=
  ⟨⟨next (.issue .isr ⟨0x03, 0, []⟩) (sending .isr 4), _, sending_inv, rfl⟩,
    ⟨7, next (.callbackReturn 7) calling, _, rfl, calling_inv, rfl⟩⟩

theorem wit_NoStepFaults : (next (.issue .isr ⟨0x03, 0, []⟩) (sending .isr 4)).Inv := sending_inv

theorem wit_StepKeepsSupervisorInvariant :
    ∃ s t : State, s.sup.Inv ∧ s.sup.running = true ∧ s.sup.tickCount = 0xFFFFFFFE ∧
      s.componentNext = false ∧ step s = .next t :=
  ⟨next (.issue .poll ⟨0x42, 0, []⟩) (watching .poll 0xFFFFFFFF 0xFFFFFFFE), _, by decide, rfl, rfl,
    by decide, rfl⟩

theorem wit_StepKeepsSignalMirrors :
    ∃ s t : State, s.MirrorsSignals ∧ s.trace ≠ [] ∧ step s = .next t :=
  ⟨next (.issue .poll ⟨0x41, 0, []⟩) (watching .poll 3 0), _, by decide, by decide, rfl⟩

theorem wit_ParametersNeverChange : ∃ s t : State, step s = .next t ∧ s.bridge.inited = true :=
  ⟨next (.issue .isr ⟨0x03, 0, []⟩) (sending .isr 4), _, rfl, rfl⟩

theorem wit_ParserStatesNotSkipped :
    ∃ s t : State, s.parser.st = .complete ∧ step s = .next t :=
  ⟨next (.callbackReturn 7) calling, _, rfl, rfl⟩

theorem wit_InterruptsLeaveParserAlone :
    ∃ s t : State, s.isrNext = true ∧ s.parser = whole ∧ step s = .next t :=
  ⟨next (.issue .isr ⟨0x02, 0x05, []⟩) calling, _, by decide, rfl, rfl⟩

theorem wit_SentThenQueuedOnlyGrows :
    ∃ s t : State, s.Inv ∧ s.componentNext = false ∧ step s = .next t ∧ t.trace ≠ s.trace :=
  ⟨next (.issue .isr ⟨0x03, 0, []⟩) (sending .isr 4), _, sending_inv, by decide, rfl, by decide⟩

theorem wit_PushStoresOrReportsFull :
    let s := bench .inbound 2 2 []
    let u := bench .outbound 0 3 []
    (s.PrimitiveMayIssue ∧ (s.ring .inbound).wr = (s.ring .inbound).rd ∧
      (s.ring .inbound).rd.toNat < (s.cap .inbound).toNat) ∧
    (u.PrimitiveMayIssue ∧ (u.ring .outbound).wr ≠ (u.ring .outbound).rd ∧
      (u.ring .outbound).wr.toNat < (u.cap .outbound).toNat ∧
      (u.ring .outbound).rd.toNat < (u.cap .outbound).toNat) := by decide

theorem wit_PopAdvancesThenReads :
    let s := bench .inbound 3 0 []
    let u := bench .outbound 3 1 [(0, 0xB4#8)]
    (s.PrimitiveMayIssue ∧
      (BitVec.ofNat 32 (((s.ring .inbound).rd.toNat + 1) % (s.cap .inbound).toNat) : Word) =
        (s.ring .inbound).wr) ∧
    (u.PrimitiveMayIssue ∧
      (BitVec.ofNat 32 (((u.ring .outbound).rd.toNat + 1) % (u.cap .outbound).toNat) : Word) ≠
        (u.ring .outbound).wr ∧ (u.ring .outbound).buf.read 0 = some 0xB4 ∧
      (u.ring .outbound).rd.toNat < (u.cap .outbound).toNat ∧
      (u.ring .outbound).wr.toNat < (u.cap .outbound).toNat) := by decide

theorem wit_PredicatesAnswer :
    (bench .inbound 2 2 []).PrimitiveMayIssue ∧ (bench .outbound 3 0 []).PrimitiveMayIssue := by decide

theorem wit_FlushEmpties : (bench .inbound 2 1 [(3, 3#8)]).PrimitiveMayIssue := by decide

/-- One byte in a buffer of capacity 3: a pop leaves it not full, a push leaves it not empty. -/
theorem wit_PredicatesAgreeWithOperations :
    let f : Ring := ⟨0, 2, [(1, 0x5A#8)]⟩
    (2 ≤ (3 : Word).toNat ∧ f.rd.toNat < (3 : Word).toNat ∧ f.wr.toNat < (3 : Word).toNat) ∧
    (∃ (v : Byte) (g : Ring), f.isFull = false ∧ f.pop .inBuf 3 = .ok (some (v, g))) ∧
    ∃ g : Ring, f.isEmpty 3 = false ∧ f.push .inBuf 3 0x5B = .ok (some g) :=
  ⟨by decide, ⟨_, _, by decide, rfl⟩, ⟨_, by decide, rfl⟩⟩

theorem wit_IndexWrapsByCompare :
    (3 : Word).toNat < (4 : Word).toNat ∧ nextIndex 4 3 = 0 ∧ nextIndex 4 2 = 3 := by decide

theorem wit_RingRefinesBoundedQueue :
    (2 ≤ (2 : Word).toNat ∧ (⟨0, 0, [(1, 0x5A#8)]⟩ : Ring).Inv 2) ∧
    (2 ≤ (4 : Word).toNat ∧ (⟨3, 0, []⟩ : Ring).Inv 4) ∧
    (2 ≤ (4 : Word).toNat ∧ (⟨2, 1, [(0, 4#8), (3, 3#8)]⟩ : Ring).Inv 4) := by decide

theorem wit_UsableCapacityIsOneLess :
    let f : Ring := ⟨2, 1, [(0, 4#8), (3, 3#8)]⟩
    (2 ≤ (4 : Word).toNat ∧ f.Inv 4 ∧ f.live 4 + [9#8].length ≤ (4 : Word).toNat - 1 ∧
      (4 : Word).toNat - 1 < f.live 4 + [9#8, 10].length) ∧
    (2 ≤ (4 : Word).toNat ∧ f.buf.wf (4 : Word).toNat ∧
      [0x11#8, 0x22, 0x33].length = (4 : Word).toNat - 1 ∧
      (4 : Word).toNat - 1 < [0x11#8, 0x22, 0x33, 0x44].length) := by decide

theorem wit_OnePushOnePop : 2 ≤ (2 : Word).toNat := by decide

theorem wit_RingPrimitivesFrame :
    let s := bench .inbound 0 3 [(1, 0x11#8), (2, 0x22#8)]
    (∃ t, exec (.push .inbound 0x33) s = .next t) ∧ (∃ t, exec (.pop .inbound) s = .next t) ∧
      (∃ t, exec (.flush .inbound) s = .next t) ∧ (∃ t, exec (.isFull .inbound) s = .next t) ∧
      ∃ t, exec (.isEmpty .inbound) s = .next t :=
  ⟨⟨_, rfl⟩, ⟨_, rfl⟩, ⟨_, rfl⟩, ⟨_, rfl⟩, ⟨_, rfl⟩⟩

theorem wit_FeedCountBytes :
    let s := parsing FrameParser.initial
    let u := parsing { FrameParser.initial with st := .awaitCountHigh, countLo := 0x01 }
    let v := parsing { FrameParser.initial with st := .awaitCountHigh }
    (s.ComponentMayIssue ∧ s.parser.st = .awaitCountLow) ∧
    (u.ComponentMayIssue ∧ u.parser.st = .awaitCountHigh ∧
      (0x00#8 ++ u.parser.countLo : Half) ≠ 0#16) ∧
    (v.ComponentMayIssue ∧ v.parser.st = .awaitCountHigh ∧
      (0x00#8 ++ v.parser.countLo : Half) = 0#16) := by decide

theorem wit_FeedFuncCode :
    let s := parsing { FrameParser.initial with st := .awaitFuncCode, count := 3, payloadLen := 0 }
    let u := parsing { FrameParser.initial with st := .awaitFuncCode, count := 2, payloadLen := 0xFFFF }
    (s.ComponentMayIssue ∧ s.parser.st = .awaitFuncCode ∧ s.parser.payloadLen = 0#16) ∧
    (u.ComponentMayIssue ∧ u.parser.st = .awaitFuncCode ∧ u.parser.payloadLen ≠ 0#16) := by decide

theorem wit_FeedPayloadByte :
    let s := parsing midPayload
    let u := parsing { midPayload with count := 2, payloadLen := 0xFFFF, cursor := 65534 }
    (s.ComponentMayIssue ∧ s.parser.st = .awaitPayload ∧ s.parser.cursor.toNat < 65535) ∧
    (u.ComponentMayIssue ∧ u.parser.st = .awaitPayload ∧ u.parser.cursor.toNat < 65535) := by decide

/-- The last clause is met while the callback runs, in a state with the invariant. -/
theorem wit_FeedCrcBytes :
    let s := parsing { lastByte with st := .awaitCrcLow }
    let u := parsing lastByte
    let v := { calling with issuer := .component }
    (s.ComponentMayIssue ∧ s.parser.st = .awaitCrcLow) ∧
    (u.ComponentMayIssue ∧ u.parser.st = .awaitCrcHigh ∧
      (0x53#8 ++ u.parser.crcInLo : Half) ≠ u.parser.crcAcc ∧
      (0xD3#8 ++ u.parser.crcInLo : Half) = u.parser.crcAcc) ∧
    (v.Inv ∧ v.PrimitiveMayIssue ∧ v.parser.st = .complete) :=
  ⟨by decide, by decide, calling_inv, by decide⟩

/-- In mid-payload, and in `Complete` while the callback runs (41_frame_parser.md R138). -/
theorem wit_ResetClearsParser :
    let s := { calling with issuer := .component }
    (parsing midPayload).PrimitiveMayIssue ∧
      (s.PrimitiveMayIssue ∧ s.parser.st = .complete ∧ s.pollFlight = some .inCallback) := by decide

theorem wit_ParserPrimitivesFrame :
    (∃ t, exec (.feed 0xBB) (parsing midPayload) = .next t) ∧
      (∃ t, exec (.feed 0x53) (parsing lastByte) = .next t) ∧
      ∃ t, exec .reset (parsing midPayload) = .next t :=
  ⟨⟨_, rfl⟩, ⟨_, rfl⟩, ⟨_, rfl⟩⟩

/-- An empty payload, the source's frame with the right and with a flipped CRC byte, and ByteCount 1. -/
theorem wit_ParserMeasuresAndChecksFrames :
    ((0x00#8 ++ 0x03#8 : Half) ≠ 0#16 ∧ ([] : List Byte).length = ((0x00#8 ++ 0x03#8 : Half) - 3#16).toNat) ∧
    ((0x00#8 ++ 0x05#8 : Half) ≠ 0#16 ∧
      [0xAA#8, 0xBB].length = ((0x00#8 ++ 0x05#8 : Half) - 3#16).toNat ∧
      (0xD3#8 ++ 0x1E#8 : Half) = crc16 (0x01 :: [0xAA, 0xBB]) ∧
      (0xD2#8 ++ 0x1E#8 : Half) ≠ crc16 (0x01 :: [0xAA, 0xBB])) ∧
    (0x00#8 ++ 0x01#8 : Half) ≠ 0#16 ∧
      (List.replicate 65534 0xFF#8).length = ((0x00#8 ++ 0x01#8 : Half) - 3#16).toNat := by
  rw [List.length_replicate]; decide +kernel

theorem wit_EncodeThenParseRoundTrip :
    ([] : List Byte).length ≤ 65532 ∧ (List.replicate 65532 0xFF#8).length ≤ 65532 := by
  rw [List.length_replicate]; decide

theorem wit_FrameLayout :
    ([] : List Byte).length ≤ 65532 ∧ (List.replicate 65532 0xFF#8).length ≤ 65532 := by
  rw [List.length_replicate]; decide

/-- Both bounds of `L`: 65533 is too long; 65532, like 2 and 0, is not, and the data has another length. -/
theorem wit_EncodeRefusesBadPayload :
    (start .poll 8 8).EnqueueMayIssue ∧ calling.EnqueueMayIssue ∧ 65532 < (65533 : Half).toNat ∧
      ((65532 : Half).toNat ≤ 65532 ∧ [0xAA#8].length ≠ (65532 : Half).toNat) ∧
      ((2 : Half).toNat ≤ 65532 ∧ [0xAA#8].length ≠ (2 : Half).toNat) ∧
      ((0 : Half).toNat ≤ 65532 ∧ [0xAA#8].length ≠ (0 : Half).toNat) := by decide

theorem wit_EncodePushesFirstByte :
    let s := start .poll 8 8
    let u := { calling with outbound := ⟨5, 5, []⟩ }
    let v := { start .poll 8 8 with outbound := ⟨0, 7, []⟩ }
    ((0 : Half).toNat ≤ 65532 ∧ ([] : List Byte).length = (0 : Half).toNat) ∧
    (u.EnqueueMayIssue ∧ u.outbound.wr = u.outbound.rd) ∧
    (s.EnqueueMayIssue ∧ s.outbound.wr ≠ s.outbound.rd ∧ s.outbound.wr.toNat < s.cfg.capOut.toNat) ∧
    (v.EnqueueMayIssue ∧ v.outbound.wr ≠ v.outbound.rd ∧ v.outbound.wr.toNat < s.cfg.capOut.toNat) := by
  decide

theorem wit_EncodeLaterSteps :
    let s := { start .poll 8 8 with pollFlight := some (.enq (.encode 1 [0x03, 0x00] true)) }
    let u := { calling with cbFlight := some (.encode 2 [0x03, 0x00] false) }
    let v := { calling with outbound := ⟨5, 5, []⟩, cbFlight := some (.encode 1 [0x03, 0x00] false) }
    let w := { start .poll 8 8 with
      outbound := ⟨0, 7, []⟩, pollFlight := some (.enq (.encode 1 [0x03, 0x00] false)) }
    (s.cfg.valid = true ∧ s.pollFlight = some (.enq (.encode 1 [0x03, 0x00] true))) ∧
    (u.cfg.valid = true ∧ u.cbFlight = some (.encode 2 [0x03, 0x00] false) ∧
      [0x03#8, 0x00].length ≤ 2) ∧
    (v.cfg.valid = true ∧ v.cbFlight = some (.encode 1 [0x03, 0x00] false) ∧
      [0x03#8, 0x00][1]? = some 0x00 ∧ v.outbound.wr = v.outbound.rd) ∧
    (w.cfg.valid = true ∧ w.pollFlight = some (.enq (.encode 1 [0x03, 0x00] false)) ∧
      [0x03#8, 0x00][1]? = some 0x00 ∧ w.outbound.wr ≠ w.outbound.rd ∧
      w.outbound.wr.toNat < w.cfg.capOut.toNat) := by decide

/-- The frame of an empty payload fits exactly. -/
theorem wit_EncodeQueuesWholeFrame :
    let s := start .poll 8 6
    s.PollMayIssue ∧ s.outbound.Inv s.cfg.capOut ∧ (0 : Half).toNat ≤ 65532 ∧
      ([] : List Byte).length = (0 : Half).toNat ∧
      ([] : List Byte).length + 5 ≤ s.cfg.capOut.toNat - 1 - s.outbound.live s.cfg.capOut := by decide

theorem wit_EnqueueByteSteps :
    let s := { start .poll 8 8 with outbound := ⟨0, 7, []⟩ }
    let u := { calling with outbound := ⟨5, 5, []⟩ }
    let v := { start .poll 8 8 with pollFlight := some (.enq (.enqueueByte .full)) }
    let w := { calling with cbFlight := some (.enqueueByte .ok) }
    (s.EnqueueMayIssue ∧ s.outbound.wr ≠ s.outbound.rd ∧ s.outbound.wr.toNat < s.cfg.capOut.toNat) ∧
    (u.EnqueueMayIssue ∧ u.outbound.wr = u.outbound.rd) ∧
    (v.cfg.valid = true ∧ v.pollFlight = some (.enq (.enqueueByte .full))) ∧
    (w.cfg.valid = true ∧ w.cbFlight = some (.enqueueByte .ok)) := by decide

theorem wit_EncoderFrame :
    (∃ t, exec (.encodeAndEnqueue 0x05 0 []) calling = .next t) ∧
      ∃ t, exec (.enqueueByte 0x7E) (start .poll 8 8) = .next t :=
  ⟨⟨_, rfl⟩, ⟨_, rfl⟩⟩

theorem wit_EnableArms : (watching .poll 10 4).PollMayIssue := by decide

theorem wit_DisableStopsAndDisarms : (watching .poll 10 4).PollMayIssue := by decide

/-- Disarmed; one below the budget; at the budget; and the largest count a running supervisor can hold. -/
theorem wit_TickCountsAndExpires :
    let s := start .poll 8 8
    let u := watching .poll 3 1
    let v := watching .poll 3 2
    let w := watching .poll 0xFFFFFFFF 0xFFFFFFFE
    (s.PollMayIssue ∧ (s.sup.armed = false ∨ s.sup.running = false)) ∧
    (u.PollMayIssue ∧ u.sup.armed = true ∧ u.sup.running = true ∧
      (u.sup.tickCount + 1#32).toNat < u.sup.tickBudget.toNat) ∧
    (v.PollMayIssue ∧ v.sup.armed = true ∧ v.sup.running = true ∧
      v.sup.tickBudget.toNat ≤ (v.sup.tickCount + 1#32).toNat) ∧
    (w.PollMayIssue ∧ w.sup.armed = true ∧ w.sup.running = true ∧
      w.sup.tickBudget.toNat ≤ (w.sup.tickCount + 1#32).toNat) := by decide

theorem wit_FrameStartRestarts :
    (watching .component 9 2).PrimitiveMayIssue ∧ (start .component 2 2).PrimitiveMayIssue := by decide

theorem wit_SupStopStops :
    (watching .component 9 2).PrimitiveMayIssue ∧ (start .component 2 2).PrimitiveMayIssue := by decide

/-- Budget 3 with two ticks, and budget 1 with none. -/
theorem wit_TimeoutRecovery :
    let s := { watching .poll 3 0 with parser := midPayload }
    let u := watching .poll 1 0
    (s.PollMayIssue ∧ s.sup.armed = true ∧ s.sup.running = true ∧ s.sup.tickCount = 0#32 ∧
      2 < s.sup.tickBudget.toNat ∧ 0 < s.sup.tickBudget.toNat) ∧
    (u.PollMayIssue ∧ u.sup.armed = true ∧ u.sup.running = true ∧ u.sup.tickCount = 0#32 ∧
      0 < u.sup.tickBudget.toNat) := by decide

theorem wit_InertUntilEnabled :
    ∃ s t : State, s.sup.armed = false ∧ s.sup.running = false ∧ s.componentNext = false ∧
      step s = .next t ∧ t.inbound ≠ s.inbound :=
  ⟨next (.issue .isr ⟨0x02, 0x05, []⟩) (start .isr 8 8), _, rfl, rfl, by decide, rfl, by decide⟩

theorem wit_SupervisorFrame :
    (∃ t, exec (.enable 2) (watching .poll 3 2) = .next t) ∧
      (∃ t, exec .disable (watching .poll 3 2) = .next t) ∧
      (∃ t, exec .tick (watching .poll 3 2) = .next t) ∧
      (∃ t, exec .onFrameStart (watching .component 3 2) = .next t) ∧
      ∃ t, exec .supStop (watching .component 3 2) = .next t :=
  ⟨⟨_, rfl⟩, ⟨_, rfl⟩, ⟨_, rfl⟩, ⟨_, rfl⟩, ⟨_, rfl⟩⟩

theorem wit_ByteReceivedIsQueued :
    let s := { watching .isr 3 2 with inbound := ⟨4, 4, []⟩ }
    let u := { watching .isr 3 2 with inbound := ⟨4, 15, []⟩ }
    (s.IsrMayIssue ∧ s.inbound.wr = s.inbound.rd) ∧
    (u.IsrMayIssue ∧ u.inbound.wr ≠ u.inbound.rd ∧ u.inbound.wr.toNat < u.cfg.capIn.toNat) := by decide

theorem wit_TransmitReadySends :
    let s := { start .isr 8 8 with bridge := ⟨true, true⟩, outbound := ⟨7, 0, []⟩ }
    let u := { sending .isr 4 with outbound := ⟨3, 1, [(0, 0x09#8)]⟩ }
    let v := start .isr 8 8
    (s.IsrMayIssue ∧ s.bridge.txIntEn = true ∧
      (BitVec.ofNat 32 ((s.outbound.rd.toNat + 1) % s.cfg.capOut.toNat) : Word) = s.outbound.wr) ∧
    (u.IsrMayIssue ∧ u.bridge.txIntEn = true ∧
      (BitVec.ofNat 32 ((u.outbound.rd.toNat + 1) % u.cfg.capOut.toNat) : Word) ≠ u.outbound.wr ∧
      u.outbound.buf.read 0 = some 0x09) ∧
    (v.IsrMayIssue ∧ v.bridge.txIntEn = false) := by decide

theorem wit_ProcessStepPops :
    let s := { start .poll 8 8 with inbound := ⟨7, 0, []⟩ }
    let u := { start .poll 8 8 with inbound := ⟨7, 1, [(0, 0x05#8)]⟩ }
    (s.PollMayIssue ∧
      (BitVec.ofNat 32 ((s.inbound.rd.toNat + 1) % s.cfg.capIn.toNat) : Word) = s.inbound.wr) ∧
    (u.PollMayIssue ∧
      (BitVec.ofNat 32 ((u.inbound.rd.toNat + 1) % u.cfg.capIn.toNat) : Word) ≠ u.inbound.wr ∧
      u.inbound.buf.read 0 = some 0x05) := by decide

theorem wit_ProcessStepFeeds :
    let s := { start .poll 8 8 with pollFlight := some (.popped 0x00) }
    (s.cfg.valid = true ∧ s.pollFlight = some (.popped 0x00)) ∧
    (∃ p, midPayload.feed 0x00 = .inProgress p) ∧
    (∃ p, FrameParser.feed 0x00 { FrameParser.initial with st := .awaitCountHigh } = .byteCountError p) ∧
    (∃ p, lastByte.feed 0x00 = .crcError p) ∧ ∃ p, lastByte.feed 0xD3 = .crcMatch p :=
  ⟨by decide, ⟨_, rfl⟩, ⟨_, rfl⟩, ⟨_, rfl⟩, ⟨_, rfl⟩⟩

theorem wit_CallbackReturnEndsFrame :
    let s := { calling with pollFlight := some .feedInCallback }
    let u := { calling with parser := FrameParser.initial }
    (calling.cfg.valid = true ∧ calling.cbFlight = none ∧ waitsForCallback calling.pollFlight) ∧
    (s.cfg.valid = true ∧ s.cbFlight = none ∧ waitsForCallback s.pollFlight) ∧
    (u.cfg.valid = true ∧ u.cbFlight = none ∧ waitsForCallback u.pollFlight) := by decide

theorem wit_BridgeFrame :
    (∃ t, exec (.onByteReceived 0x05) (watching .isr 3 2) = .next t) ∧
      (∃ t, exec .onTransmitReady (sending .isr 4) = .next t) ∧
      ∃ t, exec .processStep { start .poll 8 8 with inbound := ⟨7, 1, [(0, 0x05#8)]⟩ } = .next t :=
  ⟨⟨_, rfl⟩, ⟨_, rfl⟩, ⟨_, rfl⟩⟩

theorem wit_FrameHeaderAccessors : calling.CallbackMayIssue := by decide

theorem wit_PayloadByteAccessor :
    calling.CallbackMayIssue ∧ calling.parser.payloadLen.toNat ≤ (2 : Half).toNat ∧
      ((1 : Half).toNat < calling.parser.payloadLen.toNat ∧
        calling.parser.pbuf.read (1 : Half).toNat = some 0xBB) := by decide

theorem wit_AccessorsOnlyInCallback :
    (calling.Inv ∧ calling.issuer = .callback ∧ calling.parser.st = .complete ∧
      calling.cbFlight = none ∧ (1 : Half).toNat < calling.parser.payloadLen.toNat) ∧
    ((start .callback 2 2).Inv ∧ (start .callback 2 2).issuer = .callback ∧
      (start .callback 2 2).parser.st ≠ .complete) :=
  ⟨⟨calling_inv, by decide⟩, inv_of (by decide) (by decide) (by decide), by decide⟩

end Sys2Proof.Machine.Tests
end

section
/-! PROOFS. `INIT`: its code, the state it leaves, and the obligation that states both. -/

namespace Sys2Proof

/-- 30_encoding.md R82, R84: the code 0x00 is the table's first row, which fixes all eight bits of `op` and
reads neither `arg` nor `data`. -/
theorem decode_initCode (arg : Word) (data : List Byte) : decode ⟨0x00#8, arg, data⟩ = .ok .init := by
  have hcovers : OpRow.covers ⟨0xFF#8, 0x00#8, fun _ => .init⟩ 0x00#8 = true := by decide
  have hfind : opTable.find? (fun row => row.covers 0x00#8) = some ⟨0xFF#8, 0x00#8, fun _ => .init⟩ :=
    List.find?_cons_of_pos hcovers
  simp only [decode, hfind]

end Sys2Proof

namespace Sys2Proof.Machine

/-- `FLUSH` sets the indices of a ring buffer (40_ring_buffer.md R109); without its stored bytes the buffer is
the one of 10_state.md R45, whatever it held. -/
theorem Ring.flush_withoutBytes (f : Ring) : { f.flush with buf := [] } = Ring.initial := rfl

/-- 10_state.md R45: of the state before it, the body of `INIT` keeps the parameters and what only the
environment and the observer hold. -/
theorem State.initialised_eq (s : State) :
    s.initialised =
      { State.resetWith s.cfg with
        issuer := s.issuer, sched := s.sched, trace := s.trace, answers := s.answers } := by
  simp only [State.initialised, State.resetWith, Ring.flush_withoutBytes]

/-- Where 44_io_bridge.md R187 lets `INIT` be issued, it completes. -/
theorem exec_init_of_mayIssue {s : State} (h : s.InitMayIssue) :
    exec .init s = .next (s.initialised.answer .poll .ok 0#32) := by
  change execInit s = _
  rw [execInit, initGate_eq_none_iff.2 h, guarded_none]

/-- Settles O5: the gate of `INIT` is open, and its body leaves the reset state of 10_state.md R45. -/
theorem initLeavesResetValues : Obligations.InitLeavesResetValues := by
  unfold Obligations.InitLeavesResetValues
  refine ⟨decode_initCode, fun s hs => ?_⟩
  rw [exec_init_of_mayIssue hs, State.initialised_eq]
  rfl

end Sys2Proof.Machine
end

section
/-! PROOFS. Which operation codes the table assigns, and what a step answers to a code that it does not. -/

namespace Sys2Proof

/-- A row that fixes all eight bits of `op` covers its own code only. -/
theorem OpRow.covers_allBits_iff {code op : Byte} {build : Request → Instr} :
    OpRow.covers ⟨0xFF#8, code, build⟩ op = true ↔ op = code := by
  have hand : op &&& 0xFF#8 = op := BitVec.and_allOnes
  simp [OpRow.covers, hand]

/-- 30_encoding.md R83: all bits of `op` but `op[3]`, and that bit alone, make up `op`. -/
theorem and_selMask_or_selBit (op : Byte) :
    (op &&& 0xF7#8) ||| (if op.getLsbD 3 then 0x08#8 else 0x00#8) = op := by
  have hbit : op &&& 0x08#8 = if op.getLsbD 3 then 0x08#8 else 0x00#8 := BitVec.and_twoPow op 3
  rw [← hbit, ← BitVec.and_or_distrib_left]
  exact BitVec.and_allOnes

/-- 30_encoding.md R83: a row of unit 1, whose code has `op[3]` clear and whose mask leaves it free, covers the
primitive's code on `IN` and its code on `OUT`. -/
theorem OpRow.covers_selFree_iff {code op : Byte} {build : Request → Instr} (hcode : code &&& 0xF7#8 = code) :
    OpRow.covers ⟨0xF7#8, code, build⟩ op = true ↔ op = selOp code .inbound ∨ op = selOp code .outbound := by
  simp only [OpRow.covers, beq_iff_eq, selOp]
  constructor
  · intro hop
    have hsplit := and_selMask_or_selBit op
    rw [hop] at hsplit
    cases hsel : op.getLsbD 3 with
    | false => left; simpa only [hsel, Bool.false_eq_true, if_false, BitVec.or_zero] using hsplit.symm
    | true => right; simpa only [hsel, if_true] using hsplit.symm
  · rintro (rfl | rfl)
    · exact hcode
    · simp [BitVec.and_or_distrib_right, hcode]

/-- The operation is that of the first row that covers the code; which row that is, no proof below needs. -/
theorem exists_decode_of_covered {r : Request} (h : ∃ row ∈ opTable, row.covers r.op = true) :
    ∃ i, decode r = .ok i := by
  obtain ⟨row, hfind⟩ := Option.isSome_iff_exists.1 (List.find?_isSome.2 h)
  exact ⟨row.build r, by simp only [decode, hfind]⟩

theorem decode_of_not_covered {r : Request} (h : ¬ ∃ row ∈ opTable, row.covers r.op = true) :
    decode r = .error (.unassignedOp r.op) := by
  have hfind : opTable.find? (fun row => row.covers r.op) = none :=
    List.find?_eq_none.2 fun row hrow hcovers => h ⟨row, hrow, hcovers⟩
  simp only [decode, hfind]

end Sys2Proof

namespace Sys2Proof.Machine

/-- 30_encoding.md R87: the codes that some row of the table covers are those that the rule does not list. -/
theorem opTable_covers_iff {op : Byte} :
    (∃ row ∈ opTable, row.covers op = true) ↔ unassigned op = false := by
  simp only [opTable, bridgeRows, ringRows, parserRows, encoderRows, supervisorRows, accessorRows,
    List.cons_append, List.nil_append, List.exists_mem_cons_iff, List.not_mem_nil, false_and, exists_false, or_false,
    OpRow.covers_allBits_iff, OpRow.covers_selFree_iff, selOp, BitVec.reduceAnd, BitVec.reduceOr]
  simp only [unassigned, Bool.or_eq_false_iff, Bool.and_eq_false_iff, decide_eq_false_iff_not]
  bv_omega

theorem decode_unassigned {r : Request} (h : unassigned r.op = true) :
    decode r = .error (.unassignedOp r.op) :=
  decode_of_not_covered fun hcover => by simp [opTable_covers_iff.1 hcover] at h

/-- A step that takes an issued request runs it as the agent that issues it (20_memory.md R58). -/
theorem step_issue {s : State} {a : Agent} {r : Request} {rest : List Move} (h : s.sched = .issue a r :: rest) :
    step s = issueRequest r (s.takeMove a rest) := by
  simp only [step, h]

/-- A request that does not decode is refused before the state is looked at (log entry 9). -/
theorem issueRequest_unassignedOp {r : Request} {op : Byte} (h : decode r = .error (.unassignedOp op))
    (s : State) : issueRequest r s = .refused (.unassignedOp op) := by
  simp only [issueRequest, h]

/-- Settles O3: the codes of 30_encoding.md R87 are those that no row of the operation table covers, unit by
unit, and a code decodes exactly when some row covers it. -/
theorem unassignedCodesRefused : Obligations.UnassignedCodesRefused := by
  unfold Obligations.UnassignedCodesRefused
  constructor
  · intro s a r rest hsched hop
    rw [step_issue hsched, issueRequest_unassignedOp (decode_unassigned hop)]
  · intro r hop
    exact exists_decode_of_covered (opTable_covers_iff.2 hop)

end Sys2Proof.Machine
end

section
/-! PROOFS. The ring buffer as the ring functions have it: the predicates against `PUSH` and `POP`, the flushed
buffer, a run of pushes, and the obligations that speak of no operation issued alone. -/

namespace Sys2Proof.Machine

theorem Ring.isFull_iff {f : Ring} : f.isFull = true ↔ f.wr = f.rd := beq_iff_eq

theorem Ring.isEmpty_iff {c : Word} {f : Ring} : f.isEmpty c = true ↔ nextIndex c f.rd = f.wr := beq_iff_eq

/-- Settles O24: the successor of the last index is the capacity itself. -/
theorem indexWrapsByCompare : Obligations.IndexWrapsByCompare := by
  unfold Obligations.IndexWrapsByCompare
  intro c x hx
  have hlast : x.toNat + 1 = c.toNat ↔ x.toNat = c.toNat - 1 := by omega
  rw [nextIndex_eq c x hx, if_congr hlast rfl rfl]

/-! The predicates. -/

/-- 40_ring_buffer.md R108, R111: a buffer never has no live byte and `C - 1` of them at once. -/
theorem Ring.not_full_and_empty {c : Word} {f : Ring} (hc : 2 ≤ c.toNat) (hr : f.rd.toNat < c.toNat)
    (hw : f.wr.toNat < c.toNat) : ¬ (f.isFull = true ∧ f.isEmpty c = true) := by
  rintro ⟨hfull, hempty⟩
  have hmax := (Ring.isFull_iff_live hr hw).1 (Ring.isFull_iff.1 hfull)
  have hnone := (Ring.isEmpty_iff_live hr hw hc).1 (Ring.isEmpty_iff.1 hempty)
  omega

/-- A `POP` takes a live byte away, so fewer than `C - 1` remain. -/
theorem Ring.not_full_of_pop {id : MemId} {c : Word} {v : Byte} {f g : Ring} (hr : f.rd.toNat < c.toNat)
    (hw : f.wr.toNat < c.toNat) (hpop : f.pop id c = .ok (some (v, g))) : g.isFull = false := by
  obtain ⟨hne, hlt, -, rfl⟩ := Ring.pop_eq_some_iff.1 hpop
  have hlive := Ring.live_pop hr hw hne
  have hmax := Ring.live_lt (c := c) (f := f) (by omega)
  refine Bool.eq_false_iff.2 fun hfull => ?_
  have hlast : Ring.live c { f with rd := nextIndex c f.rd } = c.toNat - 1 :=
    (Ring.isFull_iff_live (by exact hlt) (by exact hw)).1 (Ring.isFull_iff.1 hfull)
  omega

/-- A `PUSH` adds a live byte, so there is one. -/
theorem Ring.not_empty_of_push {id : MemId} {c : Word} {b : Byte} {f g : Ring} (hc : 2 ≤ c.toNat)
    (hr : f.rd.toNat < c.toNat) (hpush : f.push id c b = .ok (some g)) : g.isEmpty c = false := by
  obtain ⟨hne, hw, rfl⟩ := Ring.push_eq_some_iff.1 hpush
  refine Bool.eq_false_iff.2 fun hempty => ?_
  have hnone := (Ring.isEmpty_iff_live (by exact hr) (by exact nextIndex_lt c _ (by omega)) hc).1
    (Ring.isEmpty_iff.1 hempty)
  rw [Ring.live_push hr hw hne] at hnone
  exact Nat.succ_ne_zero _ hnone

/-- Settles O23: the operations test what the predicates test, and a successful operation moves the live count
away from the bound that the other predicate reports. -/
theorem predicatesAgreeWithOperations : Obligations.PredicatesAgreeWithOperations := by
  unfold Obligations.PredicatesAgreeWithOperations
  intro id c b f hc hr hw
  exact ⟨Ring.isFull_iff.trans Ring.push_eq_none_iff.symm,
    Ring.isEmpty_iff.trans Ring.pop_eq_none_iff.symm,
    Ring.not_full_and_empty hc hr hw,
    fun _ _ _ hpop => Ring.not_full_of_pop hr hw hpop,
    fun _ _ hpush => Ring.not_empty_of_push hc hr hpush⟩

/-! The flushed buffer. -/

@[simp] theorem Ring.flush_rd (f : Ring) : f.flush.rd = 0#32 := rfl
@[simp] theorem Ring.flush_wr (f : Ring) : f.flush.wr = 1#32 := rfl

/-- The successor of slot 0 is slot 1: with a capacity of at least 2 it does not wrap. -/
theorem nextIndex_zero {c : Word} (hc : 2 ≤ c.toNat) : nextIndex c 0#32 = 1#32 := by
  rw [nextIndex]
  exact congrArg (BitVec.ofNat 32) (Nat.mod_eq_of_lt hc)

theorem nextIndex_ne_self {c x : Word} (hc : 2 ≤ c.toNat) (hx : x.toNat < c.toNat) : nextIndex c x ≠ x := by
  intro h
  have hnext := nextIndex_eq c x hx
  rw [h] at hnext
  split at hnext <;> omega

theorem Ring.flush_isEmpty {c : Word} (hc : 2 ≤ c.toNat) (f : Ring) : f.flush.isEmpty c = true :=
  Ring.isEmpty_iff.2 (nextIndex_zero hc)

theorem Ring.flush_isFull (f : Ring) : f.flush.isFull = false := rfl

theorem Ring.flush_live {c : Word} (hc : 2 ≤ c.toNat) (f : Ring) : f.flush.live c = 0 :=
  (Ring.isEmpty_iff_live (by simp; omega) (by simp; omega) hc).1 (nextIndex_zero hc)

theorem Ring.flush_contents {c : Word} (hc : 2 ≤ c.toNat) (f : Ring) : f.flush.contents c = [] := by
  rw [Ring.contents, Ring.flush_live hc]; rfl

/-- Settles O27: the push stores at slot 1, which is the slot after `rd = 0`; after the pop `rd` is 1, and the
slot after it is `wr`. -/
theorem onePushOnePop : Obligations.OnePushOnePop := by
  unfold Obligations.OnePushOnePop
  intro id c b f hc
  have hzero := nextIndex_zero hc
  have hone : (nextIndex c 1#32).toNat = if c.toNat = 2 then 0 else 2 :=
    (nextIndex_eq c 1#32 hc).trans (if_congr eq_comm rfl rfl)
  refine ⟨Ring.pop_eq_none_iff.2 hzero, ⟨0#32, nextIndex c 1#32, f.buf.write 1 b⟩,
    ⟨1#32, nextIndex c 1#32, f.buf.write 1 b⟩, ?_, Memory.read_write_same _ _ _, hone, ?_, rfl,
    Ring.pop_eq_none_iff.2 rfl⟩
  · exact Ring.push_eq_some_iff.2 ⟨by simp, hc, rfl⟩
  · refine Ring.pop_eq_some_iff.2 ?_
    rw [hzero]
    exact ⟨(nextIndex_ne_self (x := 1#32) hc hc).symm, hc, Memory.read_write_same _ _ _, rfl⟩

/-! A run of pushes. -/

/-- A `PUSH` leaves the live bytes where they are and adds its own after the newest (10_state.md R23). -/
theorem Ring.contents_push {id : MemId} {c : Word} {b : Byte} {f g : Ring} (hr : f.rd.toNat < c.toNat)
    (hpush : f.push id c b = .ok (some g)) : g.contents c = f.contents c ++ [b] := by
  obtain ⟨hne, hw, rfl⟩ := Ring.push_eq_some_iff.1 hpush
  have hold : ∀ k ∈ List.range (f.live c),
      (f.buf.write f.wr.toNat b).read (f.liveIndex c k) = f.buf.read (f.liveIndex c k) := fun k hk =>
    Memory.read_write_other _ _ (Ring.liveIndex_ne_wr hr hw (List.mem_range.1 hk))
  have hnew : (f.buf.write f.wr.toNat b).read (f.liveIndex c (f.live c)) = some b := by
    rw [Ring.liveIndex_live hr hw, Memory.read_write_same]
  rw [Ring.contents, Ring.live_push hr hw hne, List.range_succ, List.filterMap_append, Ring.contents]
  exact congrArg₂ (· ++ ·) (List.filterMap_congr hold) (List.filterMap_cons_some hnew)

/-- With the invariant every live byte has a value, so the `k`-th of the contents is the `k`-th live byte. -/
theorem Ring.contents_getElem? {c : Word} {f : Ring} {k : Nat} (h : f.Inv c) (hk : k < f.live c) :
    (f.contents c)[k]? = f.buf.read (f.liveIndex c k) := by
  obtain ⟨-, -, -, hvalue⟩ := h
  have hmap : (f.contents c).map some =
      (List.range (f.live c)).map fun k => f.buf.read (f.liveIndex c k) := by
    rw [Ring.contents, List.map_filterMap, ← List.filterMap_eq_map]
    refine List.filterMap_congr fun j hj => ?_
    obtain ⟨v, hv⟩ := Option.isSome_iff_exists.1 (hvalue j (List.mem_range.1 hj))
    simp [hv]
  have hget := congrArg (·[k]?) hmap
  simp only [List.getElem?_map, List.getElem?_range hk, Option.map_some] at hget
  obtain ⟨v, hv, hread⟩ := Option.map_eq_some_iff.1 hget
  rw [hv, hread]

/-- Below `C - 1` live bytes a `PUSH` stores, and what it leaves. -/
theorem Ring.exists_push_of_live_lt {c : Word} {f : Ring} (id : MemId) (b : Byte) (h : f.Inv c)
    (hlive : f.live c < c.toNat - 1) :
    ∃ g, f.push id c b = .ok (some g) ∧ g.Inv c ∧ g.rd = f.rd ∧ g.live c = f.live c + 1 ∧
      g.contents c = f.contents c ++ [b] := by
  have ⟨hr, hw, _⟩ := h
  have hne : f.wr ≠ f.rd := fun heq => by
    have := (Ring.isFull_iff_live hr hw).1 heq
    omega
  have hpush := Ring.push_eq_some_iff (id := id) (b := b).2 ⟨hne, hw, rfl⟩
  exact ⟨_, hpush, Ring.push_inv h hpush, rfl, Ring.live_push hr hw hne, Ring.contents_push hr hpush⟩

theorem Ring.pushAll_cons_of_push {id : MemId} {c : Word} {b : Byte} {f g : Ring}
    (hpush : f.push id c b = .ok (some g)) (bs : List Byte) :
    f.pushAll id c (b :: bs) = g.pushAll id c bs := by
  rw [Ring.pushAll, hpush]

theorem Ring.pushAll_cons_of_full {id : MemId} {c : Word} {b : Byte} {f : Ring} (hfull : f.wr = f.rd)
    (bs : List Byte) : f.pushAll id c (b :: bs) = .ok none := by
  rw [Ring.pushAll, Ring.push_eq_none_iff.2 hfull]

/-- 40_ring_buffer.md R112: a run of pushes that fits below `C - 1` live bytes is appended whole. -/
theorem Ring.exists_pushAll_of_fits {id : MemId} {c : Word} {f : Ring} {bytes : List Byte} (h : f.Inv c)
    (hfit : f.live c + bytes.length ≤ c.toNat - 1) :
    ∃ g, f.pushAll id c bytes = .ok (some g) ∧ g.Inv c ∧ g.rd = f.rd ∧
      g.live c = f.live c + bytes.length ∧ g.contents c = f.contents c ++ bytes := by
  induction bytes generalizing f with
  | nil => exact ⟨f, rfl, h, rfl, rfl, (List.append_nil _).symm⟩
  | cons b bs ih =>
    rw [List.length_cons] at hfit
    obtain ⟨f', hpush, hinv, hrd, hlive, hcontents⟩ :=
      Ring.exists_push_of_live_lt id b h (by omega)
    obtain ⟨g, hpushAll, hginv, hgrd, hglive, hgcontents⟩ := ih hinv (by omega)
    refine ⟨g, (Ring.pushAll_cons_of_push hpush bs).trans hpushAll, hginv, hgrd.trans hrd, ?_, ?_⟩
    · rw [hglive, hlive, List.length_cons]; omega
    · rw [hgcontents, hcontents, ← List.append_cons]

/-- 40_ring_buffer.md R112: a longer run meets `Full`. -/
theorem Ring.pushAll_of_not_fits {id : MemId} {c : Word} {f : Ring} {bytes : List Byte} (h : f.Inv c)
    (hlong : c.toNat - 1 < f.live c + bytes.length) : f.pushAll id c bytes = .ok none := by
  induction bytes generalizing f with
  | nil =>
    have hlt := Ring.live_lt (c := c) (f := f) (by omega)
    rw [List.length_nil] at hlong
    omega
  | cons b bs ih =>
    have ⟨hr, hw, _⟩ := h
    have hlt := Ring.live_lt (c := c) (f := f) (by omega)
    rw [List.length_cons] at hlong
    by_cases hfull : f.wr = f.rd
    · exact Ring.pushAll_cons_of_full hfull bs
    · have hne := mt (Ring.isFull_iff_live hr hw).2 hfull
      obtain ⟨f', hpush, hinv, -, hlive, -⟩ := Ring.exists_push_of_live_lt id b h (by omega)
      rw [Ring.pushAll_cons_of_push hpush bs]
      exact ih hinv (by omega)

/-- 40_ring_buffer.md R112: `C - 1` pushes from the flushed state fill the slots from 1 up, and `wr` wraps to
meet `rd` at 0. -/
theorem Ring.flush_pushAll_fills {id : MemId} {c : Word} {f : Ring} {bytes : List Byte} (hc : 2 ≤ c.toNat)
    (hbuf : f.buf.wf c.toNat) (hlen : bytes.length = c.toNat - 1) :
    ∃ g, f.flush.pushAll id c bytes = .ok (some g) ∧ g.rd = 0#32 ∧ g.wr = 0#32 ∧
      ∀ k < bytes.length, g.buf.read (k + 1) = bytes[k]? := by
  obtain ⟨g, hpush, hinv, hrd, hlive, hcontents⟩ :=
    Ring.exists_pushAll_of_fits (id := id) (bytes := bytes) (Ring.flush_inv hc hbuf)
      (by rw [Ring.flush_live hc]; omega)
  rw [Ring.flush_live hc, Nat.zero_add] at hlive
  rw [Ring.flush_contents hc, List.nil_append] at hcontents
  rw [Ring.flush_rd] at hrd
  have ⟨hr, hw, _⟩ := hinv
  have hfull : g.wr = g.rd := (Ring.isFull_iff_live hr hw).2 (hlive.trans hlen)
  refine ⟨g, hpush, hrd, hfull.trans hrd, fun k hk => ?_⟩
  have hslot : g.liveIndex c k = k + 1 := by
    rw [Ring.liveIndex, hrd, BitVec.toNat_zero, Nat.mod_eq_of_lt (by omega)]; omega
  rw [← hcontents, Ring.contents_getElem? hinv (by omega), hslot]

/-- Settles O26, by induction on the run of pushes; the flushed state is the case of no live byte. -/
theorem usableCapacityIsOneLess : Obligations.UsableCapacityIsOneLess := by
  unfold Obligations.UsableCapacityIsOneLess
  constructor
  · intro id c f bytes _ h
    refine ⟨fun hfit => ?_, Ring.pushAll_of_not_fits h⟩
    obtain ⟨g, hpush, -, -, -, hcontents⟩ := Ring.exists_pushAll_of_fits (id := id) h hfit
    exact ⟨g, hpush, hcontents⟩
  · intro id c f bytes hc hbuf
    refine ⟨Ring.flush_pushAll_fills hc hbuf, fun hlong => ?_⟩
    exact Ring.pushAll_of_not_fits (Ring.flush_inv hc hbuf) (by rw [Ring.flush_live hc]; omega)

end Sys2Proof.Machine
end

section
/-! PROOFS. The codes of the ring-buffer primitives. -/

namespace Sys2Proof

/-- 30_encoding.md R83: `op[3]`, clear in the code of a row of unit 1, picks the buffer. -/
theorem Request.sel_selOp {code : Byte} (hcode : code.getLsbD 3 = false) (f : BufSel) (arg : Word)
    (data : List Byte) : (⟨selOp code f, arg, data⟩ : Request).sel = f := by
  cases f with
  | inbound => simp only [Request.sel, selOp, hcode, Bool.false_eq_true, if_false]
  | outbound => simp [Request.sel, selOp]

/-- 30_encoding.md R83, R86: the code of a row of unit 1 names the row's primitive on the buffer it picks, with
the operand byte `arg[7:0]`. -/
theorem decode_ringCode {code : Byte} {f : BufSel} {build : BufSel → Byte → Instr}
    (hcode : code.getLsbD 3 = false)
    (hrow : opTable.find? (fun row => row.covers (selOp code f)) =
      some ⟨0xF7#8, code, fun r => build r.sel r.byteArg⟩) (arg : Word) (data : List Byte) :
    decode ⟨selOp code f, arg, data⟩ = .ok (build f (arg.extractLsb' 0 8)) := by
  simp only [decode, hrow, Request.sel_selOp hcode, Request.byteArg]

variable (f : BufSel) (arg : Word) (data : List Byte)

theorem decode_pushCode :
    decode ⟨selOp 0x10#8 f, arg, data⟩ = .ok (.push f (arg.extractLsb' 0 8)) :=
  decode_ringCode (build := .push) (by decide) (by cases f <;> rfl) arg data

theorem decode_popCode : decode ⟨selOp 0x11#8 f, arg, data⟩ = .ok (.pop f) :=
  decode_ringCode (build := fun f _ => .pop f) (by decide) (by cases f <;> rfl) arg data

theorem decode_isFullCode : decode ⟨selOp 0x12#8 f, arg, data⟩ = .ok (.isFull f) :=
  decode_ringCode (build := fun f _ => .isFull f) (by decide) (by cases f <;> rfl) arg data

theorem decode_isEmptyCode : decode ⟨selOp 0x13#8 f, arg, data⟩ = .ok (.isEmpty f) :=
  decode_ringCode (build := fun f _ => .isEmpty f) (by decide) (by cases f <;> rfl) arg data

theorem decode_flushCode : decode ⟨selOp 0x14#8 f, arg, data⟩ = .ok (.flush f) :=
  decode_ringCode (build := fun f _ => .flush f) (by decide) (by cases f <;> rfl) arg data

end Sys2Proof
end

section
/-! PROOFS. The five ring-buffer primitives issued alone: the answer and the next state of each where it may be
issued, and the obligations that state them. -/

namespace Sys2Proof.Machine

/-- 00_scope.md R10, of the buffer that `sel` picks. -/
theorem State.two_le_cap {s : State} (h : s.PrimitiveMayIssue) (f : BufSel) : 2 ≤ (s.cap f).toNat := by
  obtain ⟨hvalid, -, -⟩ := h
  obtain ⟨hin, hout⟩ := Config.valid_iff.1 hvalid
  cases f with
  | inbound => exact hin
  | outbound => exact hout

theorem State.answer_setRing (s : State) (f : BufSel) (r : Ring) (a : Agent) (st : Status) (v : Word) :
    (s.setRing f r).answer a st v = { s.setRing f r with answers := s.answers ++ [⟨a, st, v⟩] } := by
  rw [State.answer, State.setRing_answers]

section

variable {f : BufSel} {s : State}

theorem guarded_primitiveGate (h : s.PrimitiveMayIssue) (go : Result State) :
    guarded (primitiveGate s) go = go := by
  rw [primitiveGate_eq_none_iff.2 h, guarded_none]

theorem exec_push_full (b : Byte) (h : s.PrimitiveMayIssue) (hfull : (s.ring f).wr = (s.ring f).rd) :
    exec (.push f b) s = .next (s.answer .component .full 0#32) := by
  change execPush f b s = _
  rw [execPush, guarded_primitiveGate h, State.pushOn_eq_none_iff.2 hfull]

theorem exec_push_ok (b : Byte) (h : s.PrimitiveMayIssue) (hne : (s.ring f).wr ≠ (s.ring f).rd)
    (hw : (s.ring f).wr.toNat < (s.cap f).toNat) :
    exec (.push f b) s = .next ((s.setRing f
      { rd := (s.ring f).rd
        wr := nextIndex (s.cap f) (s.ring f).wr
        buf := (s.ring f).buf.write (s.ring f).wr.toNat b }).answer .component .ok 0#32) := by
  change execPush f b s = _
  rw [execPush, guarded_primitiveGate h, State.pushOn_eq_some_iff.2 ⟨hne, hw, rfl⟩]

theorem exec_pop_empty (h : s.PrimitiveMayIssue)
    (hempty : nextIndex (s.cap f) (s.ring f).rd = (s.ring f).wr) :
    exec (.pop f) s = .next (s.answer .component .empty 0#32) := by
  change execPop f s = _
  rw [execPop, guarded_primitiveGate h, State.popOn_eq_none_iff.2 hempty]

theorem exec_pop_ok {b : Byte} (h : s.PrimitiveMayIssue)
    (hne : nextIndex (s.cap f) (s.ring f).rd ≠ (s.ring f).wr)
    (hread : (s.ring f).buf.read (nextIndex (s.cap f) (s.ring f).rd).toNat = some b) :
    exec (.pop f) s = .next ((s.setRing f
      { s.ring f with rd := nextIndex (s.cap f) (s.ring f).rd }).answer .component .ok (byteValue b)) := by
  have hcap := State.two_le_cap h f
  have hlt := nextIndex_lt (s.cap f) (s.ring f).rd (by omega)
  change execPop f s = _
  rw [execPop, guarded_primitiveGate h, State.popOn_eq_some_iff.2 ⟨hne, hlt, hread, rfl⟩]

theorem exec_isFull (f : BufSel) (h : s.PrimitiveMayIssue) :
    exec (.isFull f) s = .next (s.answer .component .ok (flagValue (s.ring f).isFull)) := by
  change execIsFull f s = _
  rw [execIsFull, guarded_primitiveGate h]

theorem exec_isEmpty (f : BufSel) (h : s.PrimitiveMayIssue) :
    exec (.isEmpty f) s = .next (s.answer .component .ok (flagValue ((s.ring f).isEmpty (s.cap f)))) := by
  change execIsEmpty f s = _
  rw [execIsEmpty, guarded_primitiveGate h]

theorem exec_flush (f : BufSel) (h : s.PrimitiveMayIssue) :
    exec (.flush f) s = .next ((s.setRing f (s.ring f).flush).answer .component .ok 0#32) := by
  change execFlush f s = _
  rw [execFlush, guarded_primitiveGate h]

end

/-- Settles O19: the two answers of `PUSH`; its test is the full test of the live count. -/
theorem pushStoresOrReportsFull : Obligations.PushStoresOrReportsFull := by
  unfold Obligations.PushStoresOrReportsFull
  refine ⟨fun arg data => ⟨decode_pushCode .inbound arg data, decode_pushCode .outbound arg data⟩,
    fun f b s h => ⟨exec_push_full b h, fun hne hw => ?_, Ring.isFull_iff_live⟩⟩
  rw [exec_push_ok b h hne hw, State.answer_setRing, nextIndex]

/-- Settles O20: the two answers of `POP`; its test is the empty test of the live count. -/
theorem popAdvancesThenReads : Obligations.PopAdvancesThenReads := by
  unfold Obligations.PopAdvancesThenReads
  refine ⟨fun arg data => ⟨decode_popCode .inbound arg data, decode_popCode .outbound arg data⟩,
    fun f s h => ⟨exec_pop_empty h, fun b hne hread => ?_, fun hr hw =>
    Ring.isEmpty_iff_live hr hw (State.two_le_cap h f)⟩⟩
  exact (exec_pop_ok h hne hread).trans (congrArg _ (State.answer_setRing ..))

/-- Settles O21: each predicate answers its test as the bit 1 or 0. -/
theorem predicatesAnswer : Obligations.PredicatesAnswer := by
  unfold Obligations.PredicatesAnswer
  refine ⟨fun arg data => ⟨decode_isFullCode .inbound arg data, decode_isFullCode .outbound arg data,
      decode_isEmptyCode .inbound arg data, decode_isEmptyCode .outbound arg data⟩,
    fun f s h => ⟨?_, ?_⟩⟩
  · rw [exec_isFull f h, flagValue, if_congr Ring.isFull_iff rfl rfl]
    rfl
  · rw [exec_isEmpty f h, flagValue, if_congr Ring.isEmpty_iff rfl rfl]
    rfl

/-- Settles O22: `FLUSH` leaves the flushed buffer, with the array it had. -/
theorem flushEmpties : Obligations.FlushEmpties := by
  unfold Obligations.FlushEmpties
  refine ⟨fun arg data => ⟨decode_flushCode .inbound arg data, decode_flushCode .outbound arg data⟩,
    fun f s h => ?_⟩
  have hcap := State.two_le_cap h f
  refine ⟨?_, Ring.flush_isEmpty hcap _, Ring.flush_isFull _, Ring.flush_contents hcap _⟩
  rw [exec_flush f h, State.answer_setRing, Ring.flush]

end Sys2Proof.Machine
end

section
/-! PROOFS. The codes of the parser's two operations. -/

namespace Sys2Proof

/-- A request names the operation of the first row of the table that covers its code. -/
theorem decode_of_find {op : Byte} {row : OpRow} (hrow : opTable.find? (fun row => row.covers op) = some row)
    (arg : Word) (data : List Byte) : decode ⟨op, arg, data⟩ = .ok (row.build ⟨op, arg, data⟩) := by
  simp only [decode, hrow]

/-- 30_encoding.md R83, R86: the code of `FEED`, whose operand byte is `arg[7:0]`. -/
theorem decode_feedCode (arg : Word) (data : List Byte) :
    decode ⟨0x20#8, arg, data⟩ = .ok (.feed (arg.extractLsb' 0 8)) :=
  decode_of_find (row := ⟨0xFF#8, 0x20#8, fun r => .feed r.byteArg⟩) rfl arg data

/-- 30_encoding.md R83, R86: the code of `RESET`, which reads no operand. -/
theorem decode_resetCode (arg : Word) (data : List Byte) : decode ⟨0x21#8, arg, data⟩ = .ok .reset :=
  decode_of_find (row := ⟨0xFF#8, 0x21#8, fun _ => .reset⟩) rfl arg data

end Sys2Proof
end

section
/-! PROOFS. What `FEED` finds, by the state of the parser: one equation per branch (41_frame_parser.md R143). The
payload's branch is `FrameParser.feedPayload_eq`. -/

namespace Sys2Proof.Machine

variable {p : FrameParser} (b : Byte)

/-- 41_frame_parser.md R124. -/
theorem FrameParser.feed_awaitCountLow (hst : p.st = .awaitCountLow) :
    p.feed b = .inProgress { p with countLo := b, st := .awaitCountHigh } := by
  simp only [FrameParser.feed, hst, FrameParser.feedCountLow]

/-- 41_frame_parser.md R125, of a ByteCount of 0. -/
theorem FrameParser.feed_awaitCountHigh_zero (hst : p.st = .awaitCountHigh)
    (hcount : joinBytes b p.countLo = 0#16) :
    p.feed b = .byteCountError { p with count := joinBytes b p.countLo } := by
  simp only [FrameParser.feed, hst, FrameParser.feedCountHigh, if_pos hcount]

/-- 41_frame_parser.md R125, R126, of any other ByteCount. -/
theorem FrameParser.feed_awaitCountHigh_ne_zero (hst : p.st = .awaitCountHigh)
    (hcount : joinBytes b p.countLo ≠ 0#16) :
    p.feed b = .inProgress { p with
      count := joinBytes b p.countLo
      payloadLen := payloadLenOf (joinBytes b p.countLo)
      st := .awaitFuncCode } := by
  simp only [FrameParser.feed, hst, FrameParser.feedCountHigh, if_neg hcount]

/-- 41_frame_parser.md R127: an empty payload is skipped. -/
theorem FrameParser.feed_awaitFuncCode_empty (hst : p.st = .awaitFuncCode) (hlen : p.payloadLen = 0#16) :
    p.feed b = .inProgress { p with
      funcCode := b, crcAcc := crcStep p.crcAcc b, st := .awaitCrcLow } := by
  simp only [FrameParser.feed, hst, FrameParser.feedFuncCode, if_pos hlen]

/-- 41_frame_parser.md R127, R128: any other payload is allocated. -/
theorem FrameParser.feed_awaitFuncCode_nonempty (hst : p.st = .awaitFuncCode) (hlen : p.payloadLen ≠ 0#16) :
    p.feed b = .inProgress { p with
      funcCode := b, crcAcc := crcStep p.crcAcc b, pbufLive := true, st := .awaitPayload } := by
  simp only [FrameParser.feed, hst, FrameParser.feedFuncCode, if_neg hlen]

/-- 41_frame_parser.md R130. -/
theorem FrameParser.feed_awaitCrcLow (hst : p.st = .awaitCrcLow) :
    p.feed b = .inProgress { p with crcInLo := b, st := .awaitCrcHigh } := by
  simp only [FrameParser.feed, hst, FrameParser.feedCrcLow]

/-- 41_frame_parser.md R131, R132: the received CRC differs. -/
theorem FrameParser.feed_awaitCrcHigh_ne (hst : p.st = .awaitCrcHigh)
    (hcrc : joinBytes b p.crcInLo ≠ p.crcAcc) :
    p.feed b = .crcError { p with crcIn := joinBytes b p.crcInLo } := by
  simp only [FrameParser.feed, hst, FrameParser.feedCrcHigh, if_neg hcrc]

/-- 41_frame_parser.md R131, R133: the received CRC matches. -/
theorem FrameParser.feed_awaitCrcHigh_eq (hst : p.st = .awaitCrcHigh)
    (hcrc : joinBytes b p.crcInLo = p.crcAcc) :
    p.feed b = .crcMatch { p with crcIn := joinBytes b p.crcInLo, st := .complete } := by
  simp only [FrameParser.feed, hst, FrameParser.feedCrcHigh, if_pos hcrc]

/-- 41_frame_parser.md R135. -/
theorem FrameParser.feed_complete (hst : p.st = .complete) : p.feed b = .inComplete := by
  simp only [FrameParser.feed, hst]

end Sys2Proof.Machine
end

section
/-! PROOFS. `FEED` and `RESET` issued alone: the answer and the next state of each where it may be issued, and the
obligations that state them. -/

namespace Sys2Proof.Machine

/-- 41_frame_parser.md R136: a terminal outcome, with its answer, as one record update. -/
theorem State.answer_terminate (s : State) (a : Agent) (st : Status) (v : Word) :
    s.terminate.answer a st v = { s with
      parser := FrameParser.initial
      sup := { s.sup with running := false }
      trace := if s.sup.running then s.trace ++ [.timerStop] else s.trace
      answers := s.answers ++ [⟨a, st, v⟩] } := by
  rw [State.answer, State.terminate_answers, State.terminate_eq]

section

variable {b : Byte} {s : State} {p : FrameParser}

/-- 41_frame_parser.md R135: on `Complete` the refusal comes before the record in flight is looked at (log
entry 9). -/
theorem exec_feed_complete (h : s.PrimitiveMayIssue) (hst : s.parser.st = .complete) :
    exec (.feed b) s = .refused .feedInComplete := by
  have hgate : feedGate s = some .feedInComplete := by
    simp only [feedGate, primitiveGate_eq_none_iff.2 h, if_pos hst]
  change execFeed b s = _
  rw [execFeed, hgate, guarded_some]

/-- With nothing in flight a `FEED` issued alone answers what the parser finds; that holds in `Complete` too, where
the gate and the parser give one refusal. -/
theorem exec_feed_of_mayIssue (h : s.ComponentMayIssue) :
    exec (.feed b) s = s.finishFeed .feedInCallback .component (s.parser.feed b) := by
  by_cases hst : s.parser.st = .complete
  · obtain ⟨hvalid, hissuer, hinited, -⟩ := h
    rw [exec_feed_complete ⟨hvalid, hissuer, hinited⟩ hst, FrameParser.feed_complete b hst, State.finishFeed]
  · change execFeed b s = _
    rw [execFeed, feedGate_eq_none_iff.2 ⟨h, hst⟩, guarded_none]

/-- Where nothing is in flight, ending the operation in flight changes nothing. -/
theorem State.ComponentMayIssue.flight_cleared (h : s.ComponentMayIssue) (p : FrameParser) :
    { s with parser := p, pollFlight := none } = { s with parser := p } := by
  obtain ⟨-, -, -, hflight⟩ := h
  rw [hflight]

theorem exec_feed_inProgress (h : s.ComponentMayIssue) (hfeed : s.parser.feed b = .inProgress p) :
    exec (.feed b) s = .next { s with
      parser := p, answers := s.answers ++ [⟨.component, .inProgress, 0#32⟩] } := by
  rw [exec_feed_of_mayIssue h, hfeed, State.finishFeed, h.flight_cleared, State.answer]

theorem exec_feed_byteCountError (h : s.ComponentMayIssue) (hfeed : s.parser.feed b = .byteCountError p) :
    exec (.feed b) s = .next (s.terminate.answer .component .byteCountError 0#32) := by
  rw [exec_feed_of_mayIssue h, hfeed, State.finishFeed, h.flight_cleared]
  simp only [State.answer_terminate]

theorem exec_feed_crcError (h : s.ComponentMayIssue) (hfeed : s.parser.feed b = .crcError p) :
    exec (.feed b) s = .next (s.terminate.answer .component .crcError 0#32) := by
  rw [exec_feed_of_mayIssue h, hfeed, State.finishFeed, h.flight_cleared]
  simp only [State.answer_terminate]

theorem exec_feed_crcMatch (h : s.ComponentMayIssue) (hfeed : s.parser.feed b = .crcMatch p) :
    exec (.feed b) s = .next { s with parser := p, pollFlight := some .feedInCallback } := by
  rw [exec_feed_of_mayIssue h, hfeed, State.finishFeed]

/-- 41_frame_parser.md R138: `RESET` looks neither at the parser nor at the records in flight. -/
theorem exec_reset_of_mayIssue (h : s.PrimitiveMayIssue) :
    exec .reset s = .next (s.parserReset.answer .component .ok 0#32) := by
  change execReset s = _
  rw [execReset, guarded_primitiveGate h]

end

/-- Settles O29: the low byte is kept; the high byte ends the frame exactly where the ByteCount is 0. -/
theorem feedCountBytes : Obligations.FeedCountBytes := by
  unfold Obligations.FeedCountBytes
  refine ⟨decode_feedCode, fun b s h => ⟨fun hst => ?_, fun hst hcount => ?_, fun hst hcount => ?_⟩⟩
  · exact exec_feed_inProgress h (FrameParser.feed_awaitCountLow b hst)
  · exact exec_feed_inProgress h (FrameParser.feed_awaitCountHigh_ne_zero b hst hcount)
  · rw [exec_feed_byteCountError h (FrameParser.feed_awaitCountHigh_zero b hst hcount), State.answer_terminate]

/-- Settles O30: the byte is folded once in both branches, which differ in what `payload_len` calls for next. -/
theorem feedFuncCode : Obligations.FeedFuncCode := by
  unfold Obligations.FeedFuncCode
  refine fun b s h hst => ⟨fun hlen => ?_, fun hlen => ?_⟩
  · exact exec_feed_inProgress h (FrameParser.feed_awaitFuncCode_empty b hst hlen)
  · exact exec_feed_inProgress h (FrameParser.feed_awaitFuncCode_nonempty b hst hlen)

/-- Settles O32: the comparison of the received CRC decides between the terminal error and the callback; on
`Complete` the gate refuses. -/
theorem feedCrcBytes : Obligations.FeedCrcBytes := by
  unfold Obligations.FeedCrcBytes
  refine ⟨fun b s h => ⟨fun hst => ?_, fun hst hcrc => ?_, fun hst hcrc => ?_⟩,
    fun b s h hst => exec_feed_complete h hst⟩
  · exact exec_feed_inProgress h (FrameParser.feed_awaitCrcLow b hst)
  · rw [exec_feed_crcError h (FrameParser.feed_awaitCrcHigh_ne b hst hcrc), State.answer_terminate]
  · exact exec_feed_crcMatch h (FrameParser.feed_awaitCrcHigh_eq b hst hcrc)

/-- Settles O33: no state of the parser and no record in flight closes the gate of `RESET`. -/
theorem resetClearsParser : Obligations.ResetClearsParser := by
  unfold Obligations.ResetClearsParser
  refine ⟨decode_resetCode, fun s h => ?_⟩
  rw [exec_reset_of_mayIssue h]
  rfl

end Sys2Proof.Machine
end

section
/-! PROOFS. The code of `ENQUEUE_BYTE`. -/

namespace Sys2Proof

/-- 30_encoding.md R83, R84: the code of `ENQUEUE_BYTE`, whose operand byte is `arg[7:0]`. -/
theorem decode_enqueueByteCode (arg : Word) (data : List Byte) :
    decode ⟨0x31#8, arg, data⟩ = .ok (.enqueueByte (arg.extractLsb' 0 8)) :=
  decode_of_find (row := ⟨0xFF#8, 0x31#8, fun r => .enqueueByte r.byteArg⟩) rfl arg data

end Sys2Proof
end

section
/-! PROOFS. The frame as a byte list (42_frame_encoder.md R151). -/

namespace Sys2Proof.Machine

/-- 42_frame_encoder.md R155: up to 65532 payload bytes the ByteCount `3 + L` does not wrap. -/
theorem byteCountOf_toNat {n : Nat} (h : n ≤ 65532) : (byteCountOf n).toNat = 3 + n := by
  rw [byteCountOf, BitVec.toNat_ofNat, Nat.mod_eq_of_lt (by omega)]

/-- Three bytes stand before the payload and two after it, whatever its length. -/
@[simp] theorem frameBytes_length (fc : Byte) (payload : List Byte) :
    (frameBytes fc payload).length = payload.length + 5 := by
  simp only [frameBytes, List.length_append, List.length_cons, List.length_nil]
  omega

/-- Settles O37: the four bytes are the halves of the ByteCount and of the CRC, which joined give them back. -/
theorem frameLayout : Obligations.FrameLayout := by
  unfold Obligations.FrameLayout
  intro fc payload hlen
  refine ⟨lowByte (byteCountOf payload.length), highByte (byteCountOf payload.length),
    lowByte (crc16 (fc :: payload)), highByte (crc16 (fc :: payload)), rfl, ?_, joinBytes_high_low _,
    frameBytes_length fc payload⟩
  rw [← byteCountOf_toNat hlen]
  exact congrArg BitVec.toNat (joinBytes_high_low _)

end Sys2Proof.Machine
end

section
/-! PROOFS. The first and the later steps of the enqueue operations, by the poll context or the callback, and the
obligations that state them. -/

namespace Sys2Proof.Machine

theorem guarded_enqueueGate {s : State} (h : s.EnqueueMayIssue) (go : Result State) :
    guarded (enqueueGate s) go = go := by
  rw [enqueueGate_eq_none_iff.2 h, guarded_none]

/-! The operand checks of `ENCODE_AND_ENQUEUE`. -/

theorem lenFits_eq_false_iff {len : Half} : lenFits len = false ↔ 65532 < len.toNat :=
  decide_eq_false_iff_not.trans Nat.not_le

theorem lenMatches_eq_false_iff {len : Half} {payload : List Byte} :
    lenMatches len payload = false ↔ payload.length ≠ len.toNat := decide_eq_false_iff_not

section

variable {len : Half} {payload : List Byte} {s : State} (fc : Byte)

theorem exec_encodeAndEnqueue_tooLong (h : s.EnqueueMayIssue) (hlong : 65532 < len.toNat) :
    exec (.encodeAndEnqueue fc len payload) s = .refused .payloadTooLong := by
  change execEncodeAndEnqueue fc len payload s = _
  rw [execEncodeAndEnqueue, guarded_enqueueGate h, if_pos (lenFits_eq_false_iff.2 hlong)]

theorem exec_encodeAndEnqueue_lengthMismatch (h : s.EnqueueMayIssue) (hfits : len.toNat ≤ 65532)
    (hne : payload.length ≠ len.toNat) :
    exec (.encodeAndEnqueue fc len payload) s = .refused .payloadLengthMismatch := by
  change execEncodeAndEnqueue fc len payload s = _
  rw [execEncodeAndEnqueue, guarded_enqueueGate h,
    if_neg (mt lenFits_eq_false_iff.1 (Nat.not_lt.2 hfits)), if_pos (lenMatches_eq_false_iff.2 hne)]

end

/-- Settles O38: behind the open gate the length is checked first, then the data list against it. -/
theorem encodeRefusesBadPayload : Obligations.EncodeRefusesBadPayload := by
  unfold Obligations.EncodeRefusesBadPayload
  exact fun fc _ _ _ h => ⟨exec_encodeAndEnqueue_tooLong fc h, exec_encodeAndEnqueue_lengthMismatch fc h⟩

/-! `ENQUEUE_BYTE`: the first step. -/

section

variable {s : State} (b : Byte)

/-- 42_frame_encoder.md R156: a push on a full `OUT` queues nothing and is remembered. -/
theorem exec_enqueueByte_full (h : s.EnqueueMayIssue) (hfull : s.outbound.wr = s.outbound.rd) :
    exec (.enqueueByte b) s = .next (s.setEnq s.issuer (some (.enqueueByte .full))) := by
  have hpush : s.pushOn .outbound b = .ok none := State.pushOn_eq_none_iff.2 hfull
  change execEnqueueByte b s = _
  rw [execEnqueueByte, guarded_enqueueGate h, hpush]

/-- 42_frame_encoder.md R156: any other push stores the byte. -/
theorem exec_enqueueByte_ok (h : s.EnqueueMayIssue) (hne : s.outbound.wr ≠ s.outbound.rd)
    (hw : s.outbound.wr.toNat < s.cfg.capOut.toNat) :
    exec (.enqueueByte b) s = .next
      (State.setEnq s.issuer (some (.enqueueByte .ok)) { s with outbound :=
        { rd := s.outbound.rd
          wr := nextIndex s.cfg.capOut s.outbound.wr
          buf := s.outbound.buf.write s.outbound.wr.toNat b } }) := by
  have hpush : s.pushOn .outbound b = .ok (some { s with outbound :=
      { rd := s.outbound.rd
        wr := nextIndex s.cfg.capOut s.outbound.wr
        buf := s.outbound.buf.write s.outbound.wr.toNat b } }) :=
    State.pushOn_eq_some_iff.2 ⟨hne, hw, rfl⟩
  change execEnqueueByte b s = _
  rw [execEnqueueByte, guarded_enqueueGate h, hpush]

end

/-! The later steps. -/

/-- 20_memory.md R60: an enqueue operation in flight takes its next step the same way for both agents, each from
its own record. -/
theorem resume_eq_resumeEnq {a : Agent} {e : EnqRecord} {s : State} (hvalid : s.cfg.valid = true)
    (hflight : a = .poll ∧ s.pollFlight = some (.enq e) ∨ a = .callback ∧ s.cbFlight = some e) :
    (if a = .callback then resumeCallback s else resumePoll s) = resumeEnq a e s := by
  have hgate := flightGate_eq_none_iff.2 hvalid
  obtain ⟨rfl, hpoll⟩ | ⟨rfl, hcallback⟩ := hflight
  · rw [if_neg (by decide), resumePoll, hgate, guarded_none, hpoll]
  · rw [if_pos rfl, resumeCallback, hgate, guarded_none, hcallback]

/-- 42_frame_encoder.md R154, R156: the end of an enqueue operation as one record update. -/
theorem State.finishEnq_eq (a : Agent) (st : Status) (s : State) :
    s.finishEnq a st = { State.setEnq a none s with
      bridge := { s.bridge with txIntEn := true }
      trace := s.trace ++ [.txIntEnable]
      answers := s.answers ++ [⟨a, st, 0#32⟩] } := by
  simp only [State.finishEnq, State.answer, State.emit, State.setEnq]
  split <;> rfl

theorem enqStatus_eq (p : PushStatus) : enqStatus p = if p = .full then .fifoFull else .ok := by
  cases p <;> rfl

/-- Settles O42: step 1 remembers what the push answered, and step 2 ends with the status for it. -/
theorem enqueueByteSteps : Obligations.EnqueueByteSteps := by
  unfold Obligations.EnqueueByteSteps
  refine ⟨decode_enqueueByteCode,
    fun b s h => ⟨exec_enqueueByte_full b h, exec_enqueueByte_ok b h⟩, fun a p s hvalid hflight => ?_⟩
  rw [resume_eq_resumeEnq hvalid hflight, resumeEnq, State.finishEnq_eq, enqStatus_eq]

end Sys2Proof.Machine
end

section
/-! PROOFS. The codes of the supervisor's five operations. -/

namespace Sys2Proof

variable (arg : Word) (data : List Byte)

/-- 30_encoding.md R83, R84: the code of `ENABLE`, whose operand is the whole word `arg`. -/
theorem decode_enableCode : decode ⟨0x40#8, arg, data⟩ = .ok (.enable arg) :=
  decode_of_find (row := ⟨0xFF#8, 0x40#8, fun r => .enable r.arg⟩) rfl arg data

/-! 30_encoding.md R83, R84, R86: the other four read no operand. -/

theorem decode_disableCode : decode ⟨0x41#8, arg, data⟩ = .ok .disable :=
  decode_of_find (row := ⟨0xFF#8, 0x41#8, fun _ => .disable⟩) rfl arg data

theorem decode_tickCode : decode ⟨0x42#8, arg, data⟩ = .ok .tick :=
  decode_of_find (row := ⟨0xFF#8, 0x42#8, fun _ => .tick⟩) rfl arg data

theorem decode_onFrameStartCode : decode ⟨0x43#8, arg, data⟩ = .ok .onFrameStart :=
  decode_of_find (row := ⟨0xFF#8, 0x43#8, fun _ => .onFrameStart⟩) rfl arg data

theorem decode_supStopCode : decode ⟨0x44#8, arg, data⟩ = .ok .supStop :=
  decode_of_find (row := ⟨0xFF#8, 0x44#8, fun _ => .supStop⟩) rfl arg data

end Sys2Proof
end

section
/-! PROOFS. The supervisor's five operations: what the bodies of `DISABLE` and `TICK` do, the next state of each
operation where it may be issued, and the obligations that state them. -/

namespace Sys2Proof.Machine

/-- Everything the body of `DISABLE` does (43_timeout_supervisor.md R174). -/
theorem State.disarm_eq (s : State) : s.disarm = { s with
    sup := { s.sup with running := false, armed := false }
    trace := if s.sup.running then s.trace ++ [.timerStop] else s.trace } := by
  rw [State.disarm, State.supStop_eq]

section

variable {s : State}

/-! The three outcomes of the body of `TICK`. -/

/-- 43_timeout_supervisor.md R171: while disarmed or stopped a tick changes nothing. -/
theorem State.countTick_of_idle (h : s.sup.armed = false ∨ s.sup.running = false) : s.countTick = s :=
  if_pos h

section

variable (harmed : s.sup.armed = true) (hrunning : s.sup.running = true)
include harmed hrunning

theorem State.not_idle : ¬ (s.sup.armed = false ∨ s.sup.running = false) := by
  simp only [harmed, hrunning, Bool.true_eq_false, or_self, not_false_eq_true]

/-- 43_timeout_supervisor.md R170: below the budget a tick is counted and no more. -/
theorem State.countTick_of_lt (hlt : (s.sup.tickCount + 1#32).toNat < s.sup.tickBudget.toNat) :
    s.countTick = { s with sup := { s.sup with tickCount := s.sup.tickCount + 1#32 } } := by
  rw [State.countTick, if_neg (State.not_idle harmed hrunning)]
  exact if_neg (Nat.not_le.2 hlt)

/-- 43_timeout_supervisor.md R172, R173: at the budget the supervisor, which runs, stops with its signal, and the
parser is reset. -/
theorem State.countTick_of_le (hle : s.sup.tickBudget.toNat ≤ (s.sup.tickCount + 1#32).toNat) :
    s.countTick = { s with
      sup := { s.sup with tickCount := s.sup.tickCount + 1#32, running := false }
      parser := FrameParser.initial
      trace := s.trace ++ [.timerStop] } := by
  rw [State.countTick, if_neg (State.not_idle harmed hrunning)]
  refine (if_pos hle).trans ?_
  rw [State.supStop_eq, State.parserReset, if_pos hrunning]

end

/-! The operations where they may be issued. -/

theorem guarded_pollGate (h : s.PollMayIssue) (go : Result State) : guarded (pollGate s) go = go := by
  rw [pollGate_eq_none_iff.2 h, guarded_none]

theorem exec_enable_of_mayIssue (n : Word) (h : s.PollMayIssue) :
    exec (.enable n) s = .next (State.answer .poll .ok 0#32
      { s with sup := { s.sup with armed := true, tickBudget := n } }) :=
  guarded_pollGate h _

theorem exec_disable_of_mayIssue (h : s.PollMayIssue) :
    exec .disable s = .next (s.disarm.answer .poll .ok 0#32) :=
  guarded_pollGate h _

theorem exec_tick_of_mayIssue (h : s.PollMayIssue) :
    exec .tick s = .next (s.countTick.answer .poll .ok 0#32) :=
  guarded_pollGate h _

theorem exec_onFrameStart_of_mayIssue (h : s.PrimitiveMayIssue) :
    exec .onFrameStart s = .next (s.frameStart.answer .component .ok 0#32) :=
  guarded_primitiveGate h _

theorem exec_supStop_of_mayIssue (h : s.PrimitiveMayIssue) :
    exec .supStop s = .next (s.supStop.answer .component .ok 0#32) :=
  guarded_primitiveGate h _

end

/-- Settles O44: the gate of `ENABLE` looks neither at the supervisor nor at the budget, and its body writes two
registers. -/
theorem enableArms : Obligations.EnableArms := by
  unfold Obligations.EnableArms
  refine ⟨decode_enableCode, fun n s h => ?_⟩
  rw [exec_enable_of_mayIssue n h, State.answer]

/-- Settles O45: `DISABLE` is `SUP_STOP` and the disarming. -/
theorem disableStopsAndDisarms : Obligations.DisableStopsAndDisarms := by
  unfold Obligations.DisableStopsAndDisarms
  refine ⟨decode_disableCode, fun s h => ?_⟩
  rw [exec_disable_of_mayIssue h, State.answer, State.disarm_eq]

/-- Settles O46, by the gate of `TICK` and then by the comparison of the incremented count with the budget. -/
theorem tickCountsAndExpires : Obligations.TickCountsAndExpires := by
  unfold Obligations.TickCountsAndExpires
  refine ⟨decode_tickCode, fun s h => ?_⟩
  rw [exec_tick_of_mayIssue h, State.answer, State.countTick_answers]
  refine ⟨fun hidle => ?_, fun harmed hrunning hlt => ?_, fun harmed hrunning hle => ?_⟩
  · rw [State.countTick_of_idle hidle]
  · rw [State.countTick_of_lt harmed hrunning hlt]
  · rw [State.countTick_of_le harmed hrunning hle]

/-- Settles O47: `ON_FRAME_START` writes the same registers from running and from stopped; only the signal tells
them apart. -/
theorem frameStartRestarts : Obligations.FrameStartRestarts := by
  unfold Obligations.FrameStartRestarts
  refine ⟨decode_onFrameStartCode, fun s h => ?_⟩
  rw [exec_onFrameStart_of_mayIssue h, State.answer, State.frameStart_eq]

/-- Settles O48: on a stopped supervisor `SUP_STOP` writes the 0 that `running` holds. -/
theorem supStopStops : Obligations.SupStopStops := by
  unfold Obligations.SupStopStops
  refine ⟨decode_supStopCode, fun s h => ?_⟩
  rw [exec_supStop_of_mayIssue h, State.answer, State.supStop_eq]

end Sys2Proof.Machine
end

section
/-! PROOFS. When an operation, a resumption or a return of the callback is refused by its gate, and the obligation
that names the three cases of `INIT` and of the capacities. -/

namespace Sys2Proof.Machine

variable {i : Instr} {s : State}

/-- The gate an operation must pass before anything else is looked at. -/
def issueGate (s : State) : Instr → Option Refusal
  | .init => initGate s
  | .processStep | .enable _ | .disable | .tick => pollGate s
  | .onByteReceived _ => isrGate s
  | .onTransmitReady => transmitGate s
  | .push _ _ | .pop _ | .isFull _ | .isEmpty _ | .flush _ | .reset | .onFrameStart | .supStop => primitiveGate s
  | .feed _ => feedGate s
  | .encodeAndEnqueue _ _ _ | .enqueueByte _ => enqueueGate s
  | .getFuncCode | .getPayloadLen | .getPayloadByte _ => accessorGate s

/-- Every operation is a body behind its gate. -/
theorem exists_exec_eq_guarded_issueGate (i : Instr) (s : State) : ∃ go, exec i s = guarded (issueGate s i) go := by
  cases i <;> exact ⟨_, rfl⟩

/-- A gate that is not open refuses, whatever stands behind it. -/
theorem exists_guarded_eq_refused {gate : Option Refusal} (h : gate ≠ none) (go : Result State) :
    ∃ r, guarded gate go = .refused r := by
  obtain ⟨r, rfl⟩ := Option.ne_none_iff_exists'.1 h
  exact ⟨r, guarded_some r go⟩

theorem exists_exec_eq_refused (h : issueGate s i ≠ none) : ∃ r, exec i s = .refused r := by
  obtain ⟨go, hexec⟩ := exists_exec_eq_guarded_issueGate i s
  rw [hexec]
  exact exists_guarded_eq_refused h go

/-- 10_state.md R39, 00_scope.md R10: every gate but the one of `INIT` asks for legal capacities and for `INIT`. -/
theorem valid_and_inited_of_issueGate (hi : i ≠ .init) (h : issueGate s i = none) :
    s.cfg.valid = true ∧ s.bridge.inited = true := by
  cases i with
  | init => exact absurd rfl hi
  | processStep | enable | disable | tick =>
    obtain ⟨hvalid, -, hinited, -⟩ := pollGate_eq_none_iff.1 h
    exact ⟨hvalid, hinited⟩
  | onByteReceived =>
    obtain ⟨hvalid, -, hinited⟩ := isrGate_eq_none_iff.1 h
    exact ⟨hvalid, hinited⟩
  | onTransmitReady =>
    obtain ⟨⟨hvalid, -, hinited⟩, -⟩ := transmitGate_eq_none_iff.1 h
    exact ⟨hvalid, hinited⟩
  | push | pop | isFull | isEmpty | flush | reset | onFrameStart | supStop =>
    obtain ⟨hvalid, -, hinited⟩ := primitiveGate_eq_none_iff.1 h
    exact ⟨hvalid, hinited⟩
  | feed =>
    obtain ⟨⟨hvalid, -, hinited, -⟩, -⟩ := feedGate_eq_none_iff.1 h
    exact ⟨hvalid, hinited⟩
  | encodeAndEnqueue | enqueueByte =>
    obtain ⟨hvalid, -, hinited, -⟩ | ⟨hvalid, -, hinited, -⟩ := enqueueGate_eq_none_iff.1 h <;>
      exact ⟨hvalid, hinited⟩
  | getFuncCode | getPayloadLen | getPayloadByte =>
    obtain ⟨hvalid, -, hinited, -⟩ := accessorGate_eq_none_iff.1 h
    exact ⟨hvalid, hinited⟩

/-- 44_io_bridge.md R187, 00_scope.md R10: the gate of `INIT` asks for legal capacities and for no `INIT` before. -/
theorem valid_and_not_inited_of_initGate (h : issueGate s .init = none) :
    s.cfg.valid = true ∧ s.bridge.inited = false := by
  obtain ⟨hvalid, -, hinited⟩ := initGate_eq_none_iff.1 h
  exact ⟨hvalid, hinited⟩

/-- 00_scope.md R10: every gate asks for legal capacities. -/
theorem valid_of_issueGate (h : issueGate s i = none) : s.cfg.valid = true := by
  by_cases hi : i = .init
  · subst hi
    exact (valid_and_not_inited_of_initGate h).1
  · exact (valid_and_inited_of_issueGate hi h).1

theorem Config.not_valid_of_cap_lt {c : Config} (h : c.capIn.toNat < 2 ∨ c.capOut.toNat < 2) :
    ¬ c.valid = true := by
  rw [Config.valid_iff]
  omega

/-- Settles O6: each refusal is a gate that is not open; for `inited` the gate of `INIT` and all the others ask the
opposite, and the capacities every gate asks for, those of the later steps included. -/
theorem initOnceAndFirst : Obligations.InitOnceAndFirst := by
  unfold Obligations.InitOnceAndFirst
  refine ⟨fun s hinited => ?_, fun s i hnot hi => ?_, fun s hcap => ?_⟩
  · refine exists_exec_eq_refused fun hopen => ?_
    obtain ⟨-, hnot⟩ := valid_and_not_inited_of_initGate hopen
    exact absurd (hinited.symm.trans hnot) (by decide)
  · refine exists_exec_eq_refused fun hopen => ?_
    obtain ⟨-, hinited⟩ := valid_and_inited_of_issueGate hi hopen
    exact absurd (hinited.symm.trans hnot) (by decide)
  · have hvalid := Config.not_valid_of_cap_lt hcap
    have hflight : flightGate s ≠ none := mt flightGate_eq_none_iff.1 hvalid
    have hreturn : returnGate s ≠ none := mt (fun h => (returnGate_eq_none_iff.1 h).1) hvalid
    exact ⟨fun i => exists_exec_eq_refused (mt valid_of_issueGate hvalid), exists_guarded_eq_refused hflight _,
      exists_guarded_eq_refused hflight _, fun v => exists_guarded_eq_refused hreturn _⟩

end Sys2Proof.Machine
end

section
/-! PROOFS. The codes of the two interrupt operations and of the accessors of the frame's header
(30_encoding.md R83, R84). -/

namespace Sys2Proof

variable (arg : Word) (data : List Byte)

/-- The operand byte of `ON_BYTE_RECEIVED` is `arg[7:0]`. -/
theorem decode_onByteReceivedCode :
    decode ⟨0x02#8, arg, data⟩ = .ok (.onByteReceived (arg.extractLsb' 0 8)) :=
  decode_of_find (row := ⟨0xFF#8, 0x02#8, fun r => .onByteReceived r.byteArg⟩) rfl arg data

theorem decode_onTransmitReadyCode : decode ⟨0x03#8, arg, data⟩ = .ok .onTransmitReady :=
  decode_of_find (row := ⟨0xFF#8, 0x03#8, fun _ => .onTransmitReady⟩) rfl arg data

theorem decode_getFuncCodeCode : decode ⟨0x50#8, arg, data⟩ = .ok .getFuncCode :=
  decode_of_find (row := ⟨0xFF#8, 0x50#8, fun _ => .getFuncCode⟩) rfl arg data

theorem decode_getPayloadLenCode : decode ⟨0x51#8, arg, data⟩ = .ok .getPayloadLen :=
  decode_of_find (row := ⟨0xFF#8, 0x51#8, fun _ => .getPayloadLen⟩) rfl arg data

end Sys2Proof
end

section
/-! PROOFS. The two interrupt operations: the answer and the next state of each where it may be issued, and the
obligations that state them. -/

namespace Sys2Proof.Machine

section

variable {s : State}

/-! `ON_BYTE_RECEIVED`. -/

theorem guarded_isrGate (h : s.IsrMayIssue) (go : Result State) : guarded (isrGate s) go = go := by
  rw [isrGate_eq_none_iff.2 h, guarded_none]

/-- 44_io_bridge.md R188: with `IN` full the byte is lost, and the arrival is noted all the same. -/
theorem exec_onByteReceived_full (b : Byte) (h : s.IsrMayIssue) (hfull : s.inbound.wr = s.inbound.rd) :
    exec (.onByteReceived b) s = .next (s.noteArrival.answer .isr .fifoFull 0#32) := by
  have hpush : s.noteArrival.pushOn .inbound b = .ok none := by
    rw [State.pushOn_eq_none_iff, State.ring_inbound, State.noteArrival_inbound]
    exact hfull
  change execOnByteReceived b s = _
  rw [execOnByteReceived, guarded_isrGate h, hpush]

/-- 44_io_bridge.md R188, R189: the arrival is noted before the byte is stored; neither reads what the other
writes. -/
theorem exec_onByteReceived_ok (b : Byte) (h : s.IsrMayIssue) (hne : s.inbound.wr ≠ s.inbound.rd)
    (hw : s.inbound.wr.toNat < s.cfg.capIn.toNat) :
    exec (.onByteReceived b) s = .next (State.answer .isr .ok 0#32 { s.noteArrival with inbound :=
      { rd := s.inbound.rd
        wr := nextIndex s.cfg.capIn s.inbound.wr
        buf := s.inbound.buf.write s.inbound.wr.toNat b } }) := by
  have hpush : s.noteArrival.pushOn .inbound b = .ok (some { s.noteArrival with inbound :=
      { rd := s.inbound.rd
        wr := nextIndex s.cfg.capIn s.inbound.wr
        buf := s.inbound.buf.write s.inbound.wr.toNat b } }) := by
    rw [State.pushOn_eq_some_iff, State.ring_inbound, State.cap_inbound, State.noteArrival_inbound,
      State.noteArrival_cfg]
    exact ⟨hne, hw, rfl⟩
  change execOnByteReceived b s = _
  rw [execOnByteReceived, guarded_isrGate h, hpush]

/-! `ON_TRANSMIT_READY`. -/

/-- 60_exceptions.md R218: with the transmit interrupt off there is no move (log entry 13). -/
theorem exec_onTransmitReady_off (h : s.IsrMayIssue) (hoff : s.bridge.txIntEn = false) :
    exec .onTransmitReady s = .refused .transmitInterruptOff := by
  have hgate : transmitGate s = some .transmitInterruptOff := by
    simp only [transmitGate, isrGate_eq_none_iff.2 h, hoff, Bool.false_eq_true, if_false]
  change execOnTransmitReady s = _
  rw [execOnTransmitReady, hgate, guarded_some]

section

variable (h : s.IsrMayIssue) (hon : s.bridge.txIntEn = true)
include h hon

theorem guarded_transmitGate (go : Result State) : guarded (transmitGate s) go = go := by
  rw [transmitGate_eq_none_iff.2 ⟨h, hon⟩, guarded_none]

/-- 44_io_bridge.md R192: with `OUT` empty the transmit interrupt is switched off. -/
theorem exec_onTransmitReady_empty (hempty : nextIndex s.cfg.capOut s.outbound.rd = s.outbound.wr) :
    exec .onTransmitReady s = .next (State.answer .isr .outFifoEmpty 0#32
      (State.emit .txIntDisable { s with bridge := { s.bridge with txIntEn := false } })) := by
  have hpop : s.popOn .outbound = .ok none := State.popOn_eq_none_iff.2 hempty
  change execOnTransmitReady s = _
  rw [execOnTransmitReady, guarded_transmitGate h hon, hpop]

/-- 44_io_bridge.md R192: otherwise the popped byte is sent. -/
theorem exec_onTransmitReady_ok {b : Byte} (hne : nextIndex s.cfg.capOut s.outbound.rd ≠ s.outbound.wr)
    (hread : s.outbound.buf.read (nextIndex s.cfg.capOut s.outbound.rd).toNat = some b) :
    exec .onTransmitReady s = .next (State.answer .isr .ok 0#32 (State.emit (.send b)
      { s with outbound := { s.outbound with rd := nextIndex s.cfg.capOut s.outbound.rd } })) := by
  have ⟨hvalid, _, _⟩ := h
  obtain ⟨-, hcap⟩ := Config.valid_iff.1 hvalid
  have hlt := nextIndex_lt s.cfg.capOut s.outbound.rd (by omega)
  have hpop : s.popOn .outbound = .ok (some (b,
      { s with outbound := { s.outbound with rd := nextIndex s.cfg.capOut s.outbound.rd } })) :=
    State.popOn_eq_some_iff.2 ⟨hne, hlt, hread, rfl⟩
  change execOnTransmitReady s = _
  rw [execOnTransmitReady, guarded_transmitGate h hon, hpop]

end

end

/-- Settles O52: in both outcomes the first line of `ON_BYTE_RECEIVED` is `State.noteArrival_eq`, and the full test
is made on the `IN` that it leaves alone. -/
theorem byteReceivedIsQueued : Obligations.ByteReceivedIsQueued := by
  unfold Obligations.ByteReceivedIsQueued
  refine ⟨decode_onByteReceivedCode, fun b s h => ⟨fun hfull => ?_, fun hne hw => ?_⟩⟩
  · rw [exec_onByteReceived_full b h hfull, State.answer, State.noteArrival_answers, State.noteArrival_eq]
  · rw [exec_onByteReceived_ok b h hne hw, State.answer, State.noteArrival_eq, nextIndex]

/-- Settles O53: behind the gate of R218 the empty test of `OUT` decides between the disable and the byte sent. -/
theorem transmitReadySends : Obligations.TransmitReadySends := by
  unfold Obligations.TransmitReadySends
  exact ⟨decode_onTransmitReadyCode,
    fun s h hon => ⟨exec_onTransmitReady_empty h hon, fun b => exec_onTransmitReady_ok h hon⟩,
    fun s => exec_onTransmitReady_off⟩

end Sys2Proof.Machine
end

section
/-! PROOFS. The accessors of the frame's header, and the obligation that states them. -/

namespace Sys2Proof.Machine

section

variable {s : State}

theorem guarded_accessorGate (h : s.CallbackMayIssue) (go : Result State) : guarded (accessorGate s) go = go := by
  rw [accessorGate_eq_none_iff.2 h, guarded_none]

theorem exec_getFuncCode_of_mayIssue (h : s.CallbackMayIssue) :
    exec .getFuncCode s = .next (s.answer .callback .ok (byteValue s.parser.funcCode)) :=
  guarded_accessorGate h _

theorem exec_getPayloadLen_of_mayIssue (h : s.CallbackMayIssue) :
    exec .getPayloadLen s = .next (s.answer .callback .ok (halfValue s.parser.payloadLen)) :=
  guarded_accessorGate h _

end

/-- Settles O58: behind the gate of the accessors only the response is written. -/
theorem frameHeaderAccessors : Obligations.FrameHeaderAccessors := by
  unfold Obligations.FrameHeaderAccessors
  refine ⟨fun arg data => ⟨decode_getFuncCodeCode arg data, decode_getPayloadLenCode arg data⟩,
    fun s h => ⟨?_, ?_⟩⟩
  · rw [exec_getFuncCode_of_mayIssue h, State.answer, byteValue]
  · rw [exec_getPayloadLen_of_mayIssue h, State.answer, halfValue]

end Sys2Proof.Machine
end

section
/-! PROOFS. The codes of the operations that no earlier part names, and the obligations on the encoding as a
whole. -/

namespace Sys2Proof

section

variable (arg : Word) (data : List Byte)

/-! 30_encoding.md R83, R84: three more rows of the operation table. -/

theorem decode_processStepCode : decode ⟨0x01#8, arg, data⟩ = .ok .processStep :=
  decode_of_find (row := ⟨0xFF#8, 0x01#8, fun _ => .processStep⟩) rfl arg data

/-- The function code is `arg[7:0]` and the length `arg[23:8]`. -/
theorem decode_encodeAndEnqueueCode : decode ⟨0x30#8, arg, data⟩ =
    .ok (.encodeAndEnqueue (arg.extractLsb' 0 8) (arg.extractLsb' 8 16) data) :=
  decode_of_find (row := ⟨0xFF#8, 0x30#8, fun r => .encodeAndEnqueue r.byteArg r.lenArg r.data⟩) rfl arg data

/-- The index is `arg[15:0]`. -/
theorem decode_getPayloadByteCode :
    decode ⟨0x52#8, arg, data⟩ = .ok (.getPayloadByte (arg.extractLsb' 0 16)) :=
  decode_of_find (row := ⟨0xFF#8, 0x52#8, fun r => .getPayloadByte r.indexArg⟩) rfl arg data

end

/-! The operand fields read back what `encode` puts into the operand word. -/

theorem byteField_setWidth (b : Byte) : (b.setWidth 32 : Word).extractLsb' 0 8 = b := by
  rw [← BitVec.setWidth_eq_extractLsb' (by decide), BitVec.setWidth_setWidth_of_le _ (by decide), BitVec.setWidth_eq]

theorem indexField_setWidth (i : Half) : (i.setWidth 32 : Word).extractLsb' 0 16 = i := by
  rw [← BitVec.setWidth_eq_extractLsb' (by decide), BitVec.setWidth_setWidth_of_le _ (by decide), BitVec.setWidth_eq]

/-- 30_encoding.md R84: the length lies above the function code. -/
theorem byteField_encodeArg (fc : Byte) (len : Half) : (encodeArg fc len).extractLsb' 0 8 = fc := by
  apply BitVec.eq_of_getLsbD_eq
  intro k hk
  simp only [encodeArg, BitVec.getLsbD_extractLsb', BitVec.getLsbD_or, BitVec.getLsbD_shiftLeft,
    BitVec.getLsbD_setWidth, Nat.zero_add]
  simp [hk, show k < 32 by omega]

theorem lenField_encodeArg (fc : Byte) (len : Half) : (encodeArg fc len).extractLsb' 8 16 = len := by
  apply BitVec.eq_of_getLsbD_eq
  intro k hk
  have hfc : fc.getLsbD (8 + k) = false := BitVec.getLsbD_of_ge fc (8 + k) (Nat.le_add_right 8 k)
  simp only [encodeArg, BitVec.getLsbD_extractLsb', BitVec.getLsbD_or, BitVec.getLsbD_shiftLeft,
    BitVec.getLsbD_setWidth, Nat.add_sub_cancel_left, hfc]
  simp [hk, show 8 + k < 32 by omega, show k < 32 by omega]

/-- Settles O1: every code names its own row, and each row reads its operands from the fields that `encode` writes. -/
theorem decodeOfEncode : Obligations.DecodeOfEncode := by
  unfold Obligations.DecodeOfEncode
  intro i
  cases i with
  | init => exact decode_initCode _ _
  | processStep => exact decode_processStepCode _ _
  | onByteReceived b => exact (decode_onByteReceivedCode _ _).trans (by rw [byteField_setWidth])
  | onTransmitReady => exact decode_onTransmitReadyCode _ _
  | push f b => exact (decode_pushCode f _ _).trans (by rw [byteField_setWidth])
  | pop f => exact decode_popCode f _ _
  | isFull f => exact decode_isFullCode f _ _
  | isEmpty f => exact decode_isEmptyCode f _ _
  | flush f => exact decode_flushCode f _ _
  | feed b => exact (decode_feedCode _ _).trans (by rw [byteField_setWidth])
  | reset => exact decode_resetCode _ _
  | encodeAndEnqueue fc len payload =>
    exact (decode_encodeAndEnqueueCode _ _).trans (by rw [byteField_encodeArg, lenField_encodeArg])
  | enqueueByte b => exact (decode_enqueueByteCode _ _).trans (by rw [byteField_setWidth])
  | enable n => exact decode_enableCode _ _
  | disable => exact decode_disableCode _ _
  | tick => exact decode_tickCode _ _
  | onFrameStart => exact decode_onFrameStartCode _ _
  | supStop => exact decode_supStopCode _ _
  | getFuncCode => exact decode_getFuncCodeCode _ _
  | getPayloadLen => exact decode_getPayloadLenCode _ _
  | getPayloadByte i => exact (decode_getPayloadByteCode _ _).trans (by rw [indexField_setWidth])

/-- Settles O2: each request carries the code of the operation it names; the operands are its fields. -/
theorem writtenOutRequestsDecode : Obligations.WrittenOutRequestsDecode := by
  unfold Obligations.WrittenOutRequestsDecode
  exact ⟨decode_initCode _ _, decode_onByteReceivedCode _ _, decode_pushCode .outbound _ _,
    decode_popCode .inbound _ _, decode_feedCode _ _, decode_encodeAndEnqueueCode _ _, decode_enableCode _ _,
    decode_getPayloadByteCode _ _⟩

end Sys2Proof
end

section
/-! PROOFS. The whole of a ring buffer as a bounded queue (10_state.md R23), and the obligation that states it. -/

namespace Sys2Proof.Machine

variable {id : MemId} {c : Word} {f g : Ring}

/-- With the invariant no live byte is passed over: the contents have as many bytes as are live. -/
theorem Ring.contents_length (h : f.Inv c) : (f.contents c).length = f.live c := by
  obtain ⟨-, -, -, hvalue⟩ := h
  rw [Ring.contents, List.length_filterMap_eq_countP, List.countP_eq_length.2, List.length_range]
  exact fun k hk => hvalue k (List.mem_range.1 hk)

/-- A `POP` answers the oldest live byte; the others keep their order. -/
theorem Ring.contents_pop {v : Byte} (h : f.Inv c) (hpop : f.pop id c = .ok (some (v, g))) :
    f.contents c = v :: g.contents c := by
  obtain ⟨hr, hw, -, -⟩ := h
  obtain ⟨hne, -, hread, rfl⟩ := Ring.pop_eq_some_iff.1 hpop
  have hlive := Ring.live_pop hr hw hne
  have hmax := Ring.live_lt (c := c) (f := f) (by omega)
  have hrest : ∀ k ∈ List.range (Ring.live c { f with rd := nextIndex c f.rd }),
      f.buf.read (f.liveIndex c (k + 1)) =
        f.buf.read (Ring.liveIndex c { f with rd := nextIndex c f.rd } k) := fun k hk => by
    have hk := List.mem_range.1 hk
    rw [Ring.liveIndex_pop hr (by omega)]
  rw [Ring.contents, ← hlive, List.range_succ_eq_map,
    List.filterMap_cons_some (by rw [Ring.liveIndex_zero hr]; exact hread), List.filterMap_map]
  exact congrArg (v :: ·) (List.filterMap_congr hrest)

theorem Ring.contents_of_empty (hc : 2 ≤ c.toNat) (h : f.Inv c) (hempty : nextIndex c f.rd = f.wr) :
    f.contents c = [] := by
  have ⟨hr, hw, _⟩ := h
  rw [Ring.contents, (Ring.isEmpty_iff_live hr hw hc).1 hempty]
  rfl

/-- A `PUSH` that stores found fewer than `C - 1` live bytes. -/
theorem Ring.live_lt_of_push {b : Byte} (h : f.Inv c) (hpush : f.push id c b = .ok (some g)) :
    f.live c < c.toNat - 1 := by
  obtain ⟨hr, hw, -, -⟩ := h
  obtain ⟨hne, -, -⟩ := Ring.push_eq_some_iff.1 hpush
  have hnotFull := mt (Ring.isFull_iff_live hr hw).2 hne
  have hmax := Ring.live_lt (c := c) (f := f) (by omega)
  omega

/-- Settles O25: the three answers of `PUSH` and of `POP`, each by what the live bytes are then. -/
theorem ringRefinesBoundedQueue : Obligations.RingRefinesBoundedQueue := by
  unfold Obligations.RingRefinesBoundedQueue
  intro id c b f hc h
  have ⟨hr, hw, _⟩ := h
  refine ⟨Ring.contents_length h, ?_, ?_⟩
  · cases hpush : f.push id c b with
    | error e => exact Ring.push_no_fault h e hpush
    | ok answer =>
      cases answer with
      | none => exact (Ring.isFull_iff_live hr hw).1 (Ring.push_eq_none_iff.1 hpush)
      | some g => exact ⟨Ring.push_inv h hpush, Ring.live_lt_of_push h hpush, Ring.contents_push hr hpush⟩
  · cases hpop : f.pop id c with
    | error e => exact Ring.pop_no_fault hc h e hpop
    | ok answer =>
      cases answer with
      | none => exact Ring.contents_of_empty hc h (Ring.pop_eq_none_iff.1 hpop)
      | some popped => exact ⟨Ring.pop_inv h hpop, Ring.contents_pop h hpop⟩

end Sys2Proof.Machine
end

section
/-! PROOFS. Everything a step can do when it answers a next state, as one relation: the operations that do the same
to the state share a case. The statements about every step go by these cases. -/

namespace Sys2Proof.Machine

/-- A step of an agent other than the interrupt context may feed the parser: no operation waits for the callback. -/
def State.MayFeed (s : State) : Prop := s.issuer ≠ .isr ∧ ¬ waitsForCallback s.pollFlight

/-- The agent that steps may write its enqueue record: the poll context while nothing waits for the callback, and the
callback while it runs or has such a record already. -/
def State.MayHoldEnq (s : State) : Prop :=
  s.issuer = .poll ∧ ¬ waitsForCallback s.pollFlight ∨
    s.issuer = .callback ∧ (waitsForCallback s.pollFlight ∨ s.cbFlight ≠ none)

/-- `Effect s t`: a step whose move is taken off the schedule and whose issuer is noted in `s` can answer `t`. Where an
invariant could depend on it, a case says which agent steps and with what in flight. -/
inductive Effect (s : State) : State → Prop
  /-- An operation that only answers: a predicate, an accessor, a failed `PUSH` or `POP`, a
  `PROCESS_STEP` with `IN` empty. -/
  | answered (a : Agent) (st : Status) (v : Word) : Effect s (s.answer a st v)
  | initialised (hvalid : s.cfg.valid = true) (hissuer : s.issuer = .poll) (hnot : s.bridge.inited = false) :
      Effect s (s.initialised.answer .poll .ok 0#32)
  | pushed {f : BufSel} {b : Byte} {r : Ring} (hissuer : s.issuer = .component)
      (hpush : (s.ring f).push (bufMem f) (s.cap f) b = .ok (some r)) :
      Effect s ((s.setRing f r).answer .component .ok 0#32)
  | popped {f : BufSel} {b : Byte} {r : Ring} (hissuer : s.issuer = .component)
      (hpop : (s.ring f).pop (bufMem f) (s.cap f) = .ok (some (b, r))) :
      Effect s ((s.setRing f r).answer .component .ok (byteValue b))
  | flushed (f : BufSel) (hissuer : s.issuer = .component) :
      Effect s ((s.setRing f (s.ring f).flush).answer .component .ok 0#32)
  /-- A feeding step, alone or as step 2 of `PROCESS_STEP`, of a byte that does not end the frame. -/
  | fedOn (owner : Agent) {b : Byte} {p : FrameParser} (hmay : s.MayFeed)
      (hfeed : s.parser.feed b = .inProgress p) :
      Effect s (State.answer owner .inProgress 0#32 { s with parser := p, pollFlight := none })
  | fedError (owner : Agent) (st : Status) (p : FrameParser) (hmay : s.MayFeed) :
      Effect s (State.answer owner st 0#32 (State.terminate { s with parser := p, pollFlight := none }))
  | fedMatch {b : Byte} {p : FrameParser} {wait : PollRecord} (hmay : s.MayFeed)
      (hwait : waitsForCallback (some wait)) (hfeed : s.parser.feed b = .crcMatch p) :
      Effect s { s with parser := p, pollFlight := some wait }
  | parserReset (hissuer : s.issuer = .component) : Effect s (s.parserReset.answer .component .ok 0#32)
  | enqueuePushed {b : Byte} {r : Ring} {e : EnqRecord} (hmay : s.MayHoldEnq) (he : e.inFrame = true)
      (hpush : s.outbound.push .outBuf s.cfg.capOut b = .ok (some r)) :
      Effect s (State.setEnq s.issuer (some e) { s with outbound := r })
  | enqueueFull {e : EnqRecord} (hmay : s.MayHoldEnq) (he : e.inFrame = true) :
      Effect s (s.setEnq s.issuer (some e))
  | enqueueFinished (st : Status) (hmay : s.MayHoldEnq) : Effect s (s.finishEnq s.issuer st)
  | enabled (n : Word) (hissuer : s.issuer = .poll) :
      Effect s (State.answer .poll .ok 0#32 { s with sup := { s.sup with armed := true, tickBudget := n } })
  | disarmed (hissuer : s.issuer = .poll) : Effect s (s.disarm.answer .poll .ok 0#32)
  | ticked (hissuer : s.issuer = .poll) (hflight : s.pollFlight = none) :
      Effect s (s.countTick.answer .poll .ok 0#32)
  | frameStarted (hissuer : s.issuer = .component) : Effect s (s.frameStart.answer .component .ok 0#32)
  | supStopped (hissuer : s.issuer = .component) : Effect s (s.supStop.answer .component .ok 0#32)
  | arrivalLost (hissuer : s.issuer = .isr) : Effect s (s.noteArrival.answer .isr .fifoFull 0#32)
  | arrived {b : Byte} {r : Ring} (hissuer : s.issuer = .isr)
      (hpush : s.inbound.push .inBuf s.cfg.capIn b = .ok (some r)) :
      Effect s (State.answer .isr .ok 0#32 { s.noteArrival with inbound := r })
  | transmitDisabled (hissuer : s.issuer = .isr) :
      Effect s (State.answer .isr .outFifoEmpty 0#32
        (State.emit .txIntDisable { s with bridge := { s.bridge with txIntEn := false } }))
  | transmitted {b : Byte} {r : Ring} (hissuer : s.issuer = .isr)
      (hpop : s.outbound.pop .outBuf s.cfg.capOut = .ok (some (b, r))) :
      Effect s (State.answer .isr .ok 0#32 (State.emit (.send b) { s with outbound := r }))
  | taken {b : Byte} {r : Ring} (hissuer : s.issuer = .poll) (hflight : s.pollFlight = none)
      (hpop : s.inbound.pop .inBuf s.cfg.capIn = .ok (some (b, r))) :
      Effect s { s with inbound := r, pollFlight := some (.popped b) }
  | callbackReturned (owner : Agent) (r : Word) (hissuer : s.issuer = .callback) (hcb : s.cbFlight = none) :
      Effect s (s.finishCallback owner r)

variable {s t u : State}

/-! `PUSH` and `POP` on the state are those on the buffer they pick. -/

theorem State.push_of_pushOn {f : BufSel} {b : Byte} (h : s.pushOn f b = .ok (some u)) :
    ∃ r, (s.ring f).push (bufMem f) (s.cap f) b = .ok (some r) ∧ u = s.setRing f r := by
  obtain ⟨hne, hlt, rfl⟩ := State.pushOn_eq_some_iff.1 h
  exact ⟨_, Ring.push_eq_some_iff.2 ⟨hne, hlt, rfl⟩, rfl⟩

theorem State.pop_of_popOn {f : BufSel} {b : Byte} (h : s.popOn f = .ok (some (b, u))) :
    ∃ r, (s.ring f).pop (bufMem f) (s.cap f) = .ok (some (b, r)) ∧ u = s.setRing f r := by
  obtain ⟨hne, hlt, hread, rfl⟩ := State.popOn_eq_some_iff.1 h
  exact ⟨_, Ring.pop_eq_some_iff.2 ⟨hne, hlt, hread, rfl⟩, rfl⟩

/-- The first line of `ON_BYTE_RECEIVED` leaves `IN` and the capacities alone. -/
theorem State.push_of_noteArrival_pushOn {b : Byte} (h : s.noteArrival.pushOn .inbound b = .ok (some u)) :
    ∃ r, s.inbound.push .inBuf s.cfg.capIn b = .ok (some r) ∧ u = { s.noteArrival with inbound := r } := by
  obtain ⟨r, hpush, rfl⟩ := State.push_of_pushOn h
  rw [State.ring_inbound, State.cap_inbound, State.noteArrival_inbound, State.noteArrival_cfg] at hpush
  exact ⟨r, hpush, rfl⟩

/-! From the outcomes of the operations to the cases. -/

theorem not_waitsForCallback_none : ¬ waitsForCallback none := by simp [waitsForCallback]

theorem not_waitsForCallback_popped (b : Byte) : ¬ waitsForCallback (some (.popped b)) := by
  simp [waitsForCallback]

theorem not_waitsForCallback_enq (e : EnqRecord) : ¬ waitsForCallback (some (.enq e)) := by
  simp [waitsForCallback]

theorem State.EnqueueMayIssue.mayHoldEnq (h : s.EnqueueMayIssue) : s.MayHoldEnq := by
  obtain ⟨-, hissuer, -, hflight⟩ | ⟨-, hissuer, -, hwaits, -⟩ := h
  · exact .inl ⟨hissuer, hflight ▸ not_waitsForCallback_none⟩
  · exact .inr ⟨hissuer, .inl hwaits⟩

theorem State.ComponentMayIssue.mayFeed (h : s.ComponentMayIssue) : s.MayFeed := by
  obtain ⟨-, hissuer, -, hflight⟩ := h
  exact ⟨by rw [hissuer]; decide, hflight ▸ not_waitsForCallback_none⟩

theorem Effect.of_finishFeed {wait : PollRecord} {owner : Agent} {b : Byte} (hmay : s.MayFeed)
    (hwait : waitsForCallback (some wait)) (h : s.finishFeed wait owner (s.parser.feed b) = .next t) :
    Effect s t := by
  obtain ⟨p, hfeed, rfl⟩ | ⟨p, st, -, rfl⟩ | ⟨p, hfeed, rfl⟩ := finishFeed_next h
  · exact .fedOn owner hmay hfeed
  · exact .fedError owner st p hmay
  · exact .fedMatch hmay hwait hfeed

/-- 42_frame_encoder.md R153: the record stays inside the frame, because a byte is pushed only where there is one. -/
theorem Effect.of_encodeStep {i : Nat} {bytes : List Byte} (hmay : s.MayHoldEnq)
    (h : encodeStep s.issuer i bytes s = .next t) : Effect s t := by
  obtain ⟨-, rfl⟩ | ⟨b, hb, -, rfl⟩ | ⟨b, u, hb, hpush, rfl⟩ := encodeStep_next h
  · exact .enqueueFinished .ok hmay
  · obtain ⟨hi, -⟩ := List.getElem?_eq_some_iff.1 hb
    exact .enqueueFull hmay (by simp [EnqRecord.inFrame, hi, hi.le])
  · obtain ⟨hi, -⟩ := List.getElem?_eq_some_iff.1 hb
    obtain ⟨r, hring, rfl⟩ := State.push_of_pushOn hpush
    exact .enqueuePushed hmay (by simpa [EnqRecord.inFrame] using hi) hring

theorem Effect.of_resumeEnq {e : EnqRecord} (hmay : s.MayHoldEnq) (h : resumeEnq s.issuer e s = .next t) :
    Effect s t := by
  obtain ⟨st, rfl⟩ | ⟨i, bytes, -, hstep⟩ := resumeEnq_next h
  · exact .enqueueFinished st hmay
  · exact .of_encodeStep hmay hstep

/-- The first step of every operation. -/
theorem Effect.of_exec {i : Instr} (h : exec i s = .next t) : Effect s t := by
  cases i with
  | init =>
    obtain ⟨hvalid, hissuer, hnot, rfl⟩ := execInit_next h
    exact .initialised hvalid hissuer hnot
  | processStep =>
    obtain ⟨⟨-, hissuer, -, hflight⟩, ⟨-, rfl⟩ | ⟨b, u, hpop, rfl⟩⟩ := execProcessStep_next h
    · exact .answered ..
    · obtain ⟨r, hring, rfl⟩ := State.pop_of_popOn hpop
      exact .taken hissuer hflight hring
  | onByteReceived b =>
    obtain ⟨⟨-, hissuer, -⟩, ⟨-, rfl⟩ | ⟨u, hpush, rfl⟩⟩ := execOnByteReceived_next h
    · exact .arrivalLost hissuer
    · obtain ⟨r, hring, rfl⟩ := State.push_of_noteArrival_pushOn hpush
      exact .arrived hissuer hring
  | onTransmitReady =>
    obtain ⟨⟨-, hissuer, -⟩, -, ⟨-, rfl⟩ | ⟨b, u, hpop, rfl⟩⟩ := execOnTransmitReady_next h
    · exact .transmitDisabled hissuer
    · obtain ⟨r, hring, rfl⟩ := State.pop_of_popOn hpop
      exact .transmitted hissuer hring
  | push f b =>
    obtain ⟨⟨-, hissuer, -⟩, ⟨-, rfl⟩ | ⟨u, hpush, rfl⟩⟩ := execPush_next h
    · exact .answered ..
    · obtain ⟨r, hring, rfl⟩ := State.push_of_pushOn hpush
      exact .pushed hissuer hring
  | pop f =>
    obtain ⟨⟨-, hissuer, -⟩, ⟨-, rfl⟩ | ⟨b, u, hpop, rfl⟩⟩ := execPop_next h
    · exact .answered ..
    · obtain ⟨r, hring, rfl⟩ := State.pop_of_popOn hpop
      exact .popped hissuer hring
  | isFull f =>
    obtain ⟨-, rfl⟩ := execIsFull_next h
    exact .answered ..
  | isEmpty f =>
    obtain ⟨-, rfl⟩ := execIsEmpty_next h
    exact .answered ..
  | flush f =>
    obtain ⟨⟨-, hissuer, -⟩, rfl⟩ := execFlush_next h
    exact .flushed f hissuer
  | feed b =>
    obtain ⟨hmay, hfinish⟩ := execFeed_next h
    exact .of_finishFeed hmay.mayFeed (.inr rfl) hfinish
  | reset =>
    obtain ⟨⟨-, hissuer, -⟩, rfl⟩ := execReset_next h
    exact .parserReset hissuer
  | encodeAndEnqueue fc len payload =>
    obtain ⟨hmay, -, -, hstep⟩ := execEncodeAndEnqueue_next h
    exact .of_encodeStep hmay.mayHoldEnq hstep
  | enqueueByte b =>
    obtain ⟨hmay, ⟨-, rfl⟩ | ⟨u, hpush, rfl⟩⟩ := execEnqueueByte_next h
    · exact .enqueueFull hmay.mayHoldEnq rfl
    · obtain ⟨r, hring, rfl⟩ := State.push_of_pushOn hpush
      exact .enqueuePushed hmay.mayHoldEnq rfl hring
  | enable n =>
    obtain ⟨⟨-, hissuer, -⟩, rfl⟩ := execEnable_next h
    exact .enabled n hissuer
  | disable =>
    obtain ⟨⟨-, hissuer, -⟩, rfl⟩ := execDisable_next h
    exact .disarmed hissuer
  | tick =>
    obtain ⟨⟨-, hissuer, -, hflight⟩, rfl⟩ := execTick_next h
    exact .ticked hissuer hflight
  | onFrameStart =>
    obtain ⟨⟨-, hissuer, -⟩, rfl⟩ := execOnFrameStart_next h
    exact .frameStarted hissuer
  | supStop =>
    obtain ⟨⟨-, hissuer, -⟩, rfl⟩ := execSupStop_next h
    exact .supStopped hissuer
  | getFuncCode =>
    obtain ⟨-, rfl⟩ := execGetFuncCode_next h
    exact .answered ..
  | getPayloadLen =>
    obtain ⟨-, rfl⟩ := execGetPayloadLen_next h
    exact .answered ..
  | getPayloadByte k =>
    obtain ⟨-, -, b, -, rfl⟩ := execGetPayloadByte_next h
    exact .answered ..

theorem Effect.of_resumePoll (hissuer : s.issuer = .poll) (h : resumePoll s = .next t) : Effect s t := by
  obtain ⟨-, ⟨b, hflight, hfinish⟩ | ⟨e, hflight, hresume⟩⟩ := resumePoll_next h
  · have hmay : s.MayFeed := ⟨by rw [hissuer]; decide, hflight ▸ not_waitsForCallback_popped b⟩
    exact .of_finishFeed hmay (.inl rfl) hfinish
  · have hmay : s.MayHoldEnq := .inl ⟨hissuer, hflight ▸ not_waitsForCallback_enq e⟩
    rw [← hissuer] at hresume
    exact .of_resumeEnq hmay hresume

theorem Effect.of_resumeCallback (hissuer : s.issuer = .callback) (h : resumeCallback s = .next t) :
    Effect s t := by
  obtain ⟨-, e, hflight, hresume⟩ := resumeCallback_next h
  have hmay : s.MayHoldEnq := .inr ⟨hissuer, .inr (by simp [hflight])⟩
  rw [← hissuer] at hresume
  exact .of_resumeEnq hmay hresume

theorem Effect.of_callbackReturn {r : Word} (hissuer : s.issuer = .callback) (h : callbackReturn r s = .next t) :
    Effect s t := by
  obtain ⟨-, -, hcb, rfl⟩ := callbackReturn_next h
  exact .callbackReturned _ r hissuer hcb

/-- A step does nothing, with no move left, or has an effect as the agent whose move it takes; the two questions the
statements ask about the next move are questions about that agent. -/
theorem step_effect (h : step s = .next t) :
    t = s ∧ s.isrNext = false ∨
      ∃ a rest, Effect (s.takeMove a rest) t ∧ (s.componentNext = false → a ≠ .component) ∧
        (s.isrNext = true → a = .isr) := by
  obtain ⟨hsched, rfl⟩ | ⟨a, r, rest, i, hsched, -, hexec⟩ | ⟨rest, hsched, hresume⟩ |
    ⟨rest, hsched, hresume⟩ | ⟨r, rest, hsched, hreturn⟩ := step_next h
  · exact .inl ⟨rfl, by simp [State.isrNext, hsched]⟩
  · exact .inr ⟨a, rest, .of_exec hexec, by simp [State.componentNext, hsched],
      by simp [State.isrNext, hsched]⟩
  · exact .inr ⟨.poll, rest, .of_resumePoll rfl hresume, by simp, by simp [State.isrNext, hsched]⟩
  · exact .inr ⟨.callback, rest, .of_resumeCallback rfl hresume, by simp, by simp [State.isrNext, hsched]⟩
  · exact .inr ⟨.callback, rest, .of_callbackReturn rfl hreturn, by simp, by simp [State.isrNext, hsched]⟩

/-- What holds of a state whatever its schedule and issuer, and is kept by every effect, is kept by every step. -/
theorem step_keeps {P : State → Prop} (hmove : ∀ (s : State) a rest, P s → P (s.takeMove a rest))
    (heffect : ∀ s t : State, P s → Effect s t → P t) (hs : P s) (h : step s = .next t) : P t := by
  obtain ⟨rfl, -⟩ | ⟨a, rest, he, -⟩ := step_effect h
  · exact hs
  · exact heffect _ _ (hmove s a rest hs) he

end Sys2Proof.Machine
end

section
/-! PROOFS. What every step keeps of the parameters, of the parser's course and of what belongs to other agents. -/

namespace Sys2Proof.Machine

variable {s t : State}

/-! The parameters and `inited`. -/

@[simp] theorem State.initialised_cfg (s : State) : s.initialised.cfg = s.cfg := rfl
@[simp] theorem State.initialised_inited (s : State) : s.initialised.bridge.inited = true := rfl

theorem Effect.cfg_eq (h : Effect s t) : t.cfg = s.cfg := by
  cases h <;> simp

theorem Effect.inited (h : Effect s t) (hs : s.bridge.inited = true) : t.bridge.inited = true := by
  cases h with
  | initialised => rfl
  | _ => simpa using hs

/-- Settles O15: no effect writes a parameter, and only `INIT` writes `inited`, to 1. -/
theorem parametersNeverChange : Obligations.ParametersNeverChange := by
  unfold Obligations.ParametersNeverChange
  intro s t h
  obtain ⟨rfl, -⟩ | ⟨a, rest, he, -⟩ := step_effect h
  · exact ⟨rfl, fun hs => hs⟩
  · exact ⟨he.cfg_eq, he.inited⟩

/-! The parser. -/

@[simp] theorem State.initialised_parser (s : State) : s.initialised.parser = FrameParser.initial := rfl

theorem State.countTick_parser (s : State) :
    s.countTick.parser = s.parser ∨ s.countTick.parser = FrameParser.initial := by
  obtain ⟨-, heq⟩ | ⟨-, -, -, heq⟩ | ⟨-, -, -, heq⟩ := countTick_cases s <;> simp [heq]

/-- Every effect leaves the parser, resets it, or is a `FEED` that it goes on from or that ends in a valid frame. -/
theorem Effect.parser_cases (h : Effect s t) :
    (t.parser = s.parser ∨ t.parser = FrameParser.initial) ∨
      ∃ b, s.parser.feed b = .inProgress t.parser ∨ s.parser.feed b = .crcMatch t.parser := by
  cases h with
  | fedOn _ _ hfeed => exact .inr ⟨_, .inl hfeed⟩
  | fedMatch _ _ hfeed => exact .inr ⟨_, .inr hfeed⟩
  | ticked => exact .inl s.countTick_parser
  | _ => simp

section

variable {p q : FrameParser} {b : Byte}

/-- 41_frame_parser.md R129, of a cursor inside `pbuf`. -/
theorem FrameParser.feed_awaitPayload (b : Byte) (hst : p.st = .awaitPayload) (hcursor : p.cursor.toNat < 65535) :
    p.feed b = .inProgress { p with
      pbuf := p.pbuf.write p.cursor.toNat b
      crcAcc := crcStep p.crcAcc b
      cursor := p.cursor + 1#16
      st := if p.cursor + 1#16 = p.payloadLen then .awaitCrcLow else .awaitPayload } := by
  have hstore : memWrite .pbuf Config.payloadRamSize p.pbuf p.cursor.toNat b =
      .ok (p.pbuf.write p.cursor.toNat b) := memWrite_eq_ok_iff.2 ⟨hcursor, rfl⟩
  simp only [FrameParser.feed, hst, FrameParser.feedPayload, hstore]
  split <;> rfl

/-- 20_memory.md R55: a cursor outside `pbuf`, which the invariant excludes. -/
theorem FrameParser.feed_awaitPayload_outside (b : Byte) (hst : p.st = .awaitPayload)
    (hcursor : ¬ p.cursor.toNat < 65535) : p.feed b = .fault (.noSuchIndex .pbuf p.cursor.toNat) := by
  have hstore : memWrite .pbuf Config.payloadRamSize p.pbuf p.cursor.toNat b =
      .error (.noSuchIndex .pbuf p.cursor.toNat) := if_neg hcursor
  simp only [FrameParser.feed, hst, FrameParser.feedPayload, hstore]

/-- `FeedOn b p q`: `FEED b` takes the byte in parser `p`, leaves `q` and awaits more (41_frame_parser.md R143). -/
inductive FeedOn (b : Byte) (p : FrameParser) : FrameParser → Prop
  | countLow (hst : p.st = .awaitCountLow) : FeedOn b p { p with countLo := b, st := .awaitCountHigh }
  | countHigh (hst : p.st = .awaitCountHigh) : FeedOn b p { p with
      count := joinBytes b p.countLo
      payloadLen := payloadLenOf (joinBytes b p.countLo)
      st := .awaitFuncCode }
  | emptyFuncCode (hst : p.st = .awaitFuncCode) : FeedOn b p { p with
      funcCode := b, crcAcc := crcStep p.crcAcc b, st := .awaitCrcLow }
  | funcCode (hst : p.st = .awaitFuncCode) : FeedOn b p { p with
      funcCode := b, crcAcc := crcStep p.crcAcc b, pbufLive := true, st := .awaitPayload }
  | payload (hst : p.st = .awaitPayload) : FeedOn b p { p with
      pbuf := p.pbuf.write p.cursor.toNat b
      crcAcc := crcStep p.crcAcc b
      cursor := p.cursor + 1#16
      st := if p.cursor + 1#16 = p.payloadLen then .awaitCrcLow else .awaitPayload }
  | crcLow (hst : p.st = .awaitCrcLow) : FeedOn b p { p with crcInLo := b, st := .awaitCrcHigh }

theorem FrameParser.feedOn_of_feed (h : p.feed b = .inProgress q) : FeedOn b p q := by
  cases hst : p.st with
  | awaitCountLow =>
    cases (FrameParser.feed_awaitCountLow b hst).symm.trans h
    exact .countLow hst
  | awaitCountHigh =>
    by_cases hcount : joinBytes b p.countLo = 0#16
    · cases (FrameParser.feed_awaitCountHigh_zero b hst hcount).symm.trans h
    · cases (FrameParser.feed_awaitCountHigh_ne_zero b hst hcount).symm.trans h
      exact .countHigh hst
  | awaitFuncCode =>
    by_cases hlen : p.payloadLen = 0#16
    · cases (FrameParser.feed_awaitFuncCode_empty b hst hlen).symm.trans h
      exact .emptyFuncCode hst
    · cases (FrameParser.feed_awaitFuncCode_nonempty b hst hlen).symm.trans h
      exact .funcCode hst
  | awaitPayload =>
    by_cases hcursor : p.cursor.toNat < 65535
    · cases (FrameParser.feed_awaitPayload b hst hcursor).symm.trans h
      exact .payload hst
    · cases (FrameParser.feed_awaitPayload_outside b hst hcursor).symm.trans h
  | awaitCrcLow =>
    cases (FrameParser.feed_awaitCrcLow b hst).symm.trans h
    exact .crcLow hst
  | awaitCrcHigh =>
    by_cases hcrc : joinBytes b p.crcInLo = p.crcAcc
    · cases (FrameParser.feed_awaitCrcHigh_eq b hst hcrc).symm.trans h
    · cases (FrameParser.feed_awaitCrcHigh_ne b hst hcrc).symm.trans h
  | complete => cases (FrameParser.feed_complete b hst).symm.trans h

end

theorem ParserState.mayBecome_self (a : ParserState) : a.mayBecome a = true := by
  simp [ParserState.mayBecome]

theorem ParserState.mayBecome_awaitCountLow (a : ParserState) : a.mayBecome .awaitCountLow = true := by
  simp [ParserState.mayBecome]

/-- 41_frame_parser.md R140: the state that a `FEED` answered with `InProgress` leads to. -/
theorem FrameParser.mayBecome_of_feed_inProgress {p q : FrameParser} {b : Byte} (h : p.feed b = .inProgress q) :
    p.st.mayBecome q.st = true := by
  cases FrameParser.feedOn_of_feed h with
  | countLow hst | countHigh hst | emptyFuncCode hst | funcCode hst | crcLow hst =>
    rw [hst]
    rfl
  | payload hst =>
    rw [hst]
    dsimp only
    split <;> rfl

theorem FrameParser.mayBecome_of_feed_crcMatch {p q : FrameParser} {b : Byte} (h : p.feed b = .crcMatch q) :
    p.st.mayBecome q.st = true := by
  obtain ⟨hst, -, rfl⟩ := FrameParser.feed_crcMatch h
  rw [hst]
  rfl

/-- Settles O16: a step that writes the parser resets it or is one `FEED`, which follows the table by its branch. -/
theorem parserStatesNotSkipped : Obligations.ParserStatesNotSkipped := by
  unfold Obligations.ParserStatesNotSkipped
  intro s t h
  obtain ⟨rfl, -⟩ | ⟨a, rest, he, -⟩ := step_effect h
  · exact ParserState.mayBecome_self _
  · obtain (hkept | hreset) | ⟨b, hfeed | hfeed⟩ := he.parser_cases
    · rw [hkept]
      exact ParserState.mayBecome_self _
    · rw [hreset]
      exact ParserState.mayBecome_awaitCountLow _
    · exact FrameParser.mayBecome_of_feed_inProgress hfeed
    · exact FrameParser.mayBecome_of_feed_crcMatch hfeed

/-! The interrupt context. -/

@[simp] theorem State.noteArrival_armed (s : State) : s.noteArrival.sup.armed = s.sup.armed := by
  unfold State.noteArrival; split <;> simp

@[simp] theorem State.noteArrival_tickBudget (s : State) : s.noteArrival.sup.tickBudget = s.sup.tickBudget := by
  unfold State.noteArrival; split <;> simp

theorem State.MayFeed.issuer_ne_isr (h : s.MayFeed) : s.issuer ≠ .isr := h.1

theorem State.MayHoldEnq.issuer_ne_isr (h : s.MayHoldEnq) : s.issuer ≠ .isr := by
  obtain ⟨hissuer, -⟩ | ⟨hissuer, -⟩ := h <;> rw [hissuer] <;> decide

/-- 10_state.md R48: the effects of the interrupt context are on `IN`, `OUT`, the timer and the signals. -/
theorem Effect.isr_frame (h : Effect s t) (hisr : s.issuer = .isr) :
    t.parser = s.parser ∧ t.pollFlight = s.pollFlight ∧ t.cbFlight = s.cbFlight ∧ t.cfg = s.cfg ∧
      t.sup.armed = s.sup.armed ∧ t.sup.tickBudget = s.sup.tickBudget := by
  cases h with
  | answered | arrivalLost | arrived | transmitDisabled | transmitted => simp
  | fedOn _ hmay | fedError _ _ _ hmay | fedMatch hmay => exact absurd hisr hmay.issuer_ne_isr
  | enqueuePushed hmay | enqueueFull hmay | enqueueFinished _ hmay => exact absurd hisr hmay.issuer_ne_isr
  -- Every other case names another agent as the issuer.
  | _ => simp_all only [reduceCtorEq]

/-- Settles O17: the frame of the interrupt context's effects. -/
theorem interruptsLeaveParserAlone : Obligations.InterruptsLeaveParserAlone := by
  unfold Obligations.InterruptsLeaveParserAlone
  intro s t hnext h
  obtain ⟨-, hno⟩ | ⟨a, rest, he, -, hisr⟩ := step_effect h
  · exact absurd (hno.symm.trans hnext) (by decide)
  · exact he.isr_frame (hisr hnext)

end Sys2Proof.Machine
end

section
/-! PROOFS. The invariant of an initialised block, part by part: the ring buffers, the parser, the records in flight.
What establishes it, and that every step keeps it. -/

namespace Sys2Proof.Machine

variable {s t u : State}

/-! The ring buffers. -/

/-- The part of `State.Inv` on the two ring buffers. -/
abbrev State.RingsInv (s : State) : Prop := s.inbound.Inv s.cfg.capIn ∧ s.outbound.Inv s.cfg.capOut

theorem State.RingsInv.of_eq (h : s.RingsInv) (hcfg : t.cfg = s.cfg) (hin : t.inbound = s.inbound)
    (hout : t.outbound = s.outbound) : t.RingsInv := by
  rw [State.RingsInv, hcfg, hin, hout]
  exact h

theorem State.RingsInv.ring (h : s.RingsInv) (f : BufSel) : (s.ring f).Inv (s.cap f) := by
  obtain ⟨hin, hout⟩ := h
  cases f with
  | inbound => exact hin
  | outbound => exact hout

theorem two_le_cap_of_valid (h : s.cfg.valid = true) (f : BufSel) : 2 ≤ (s.cap f).toNat := by
  obtain ⟨hin, hout⟩ := Config.valid_iff.1 h
  cases f with
  | inbound => exact hin
  | outbound => exact hout

/-- One buffer may be written with anything that has its invariant. -/
theorem State.RingsInv.setRing (h : s.RingsInv) {f : BufSel} {r : Ring} (hr : r.Inv (s.cap f)) :
    (s.setRing f r).RingsInv := by
  obtain ⟨hin, hout⟩ := h
  cases f with
  | inbound => exact ⟨hr, hout⟩
  | outbound => exact ⟨hin, hr⟩

theorem Ring.initial_inv {c : Word} (hc : 2 ≤ c.toNat) : Ring.initial.Inv c :=
  Ring.flush_inv (f := Ring.initial) hc (Memory.wf_nil _)

theorem State.resetWith_ringsInv {c : Config} (hc : c.valid = true) : (State.resetWith c).RingsInv := by
  obtain ⟨hin, hout⟩ := Config.valid_iff.1 hc
  exact ⟨Ring.initial_inv hin, Ring.initial_inv hout⟩

theorem Effect.ringsInv (h : Effect s t) (hvalid : s.cfg.valid = true) (hs : s.RingsInv) : t.RingsInv := by
  have ⟨hin, hout⟩ := hs
  cases h with
  | initialised =>
    rw [State.initialised_eq]
    exact State.resetWith_ringsInv hvalid
  | pushed _ hpush => exact hs.setRing (Ring.push_inv (hs.ring _) hpush)
  | popped _ hpop => exact hs.setRing (Ring.pop_inv (hs.ring _) hpop)
  | enqueuePushed _ _ hpush => simpa [State.RingsInv] using And.intro hin (Ring.push_inv hout hpush)
  | arrived _ hpush => simpa [State.RingsInv] using And.intro (Ring.push_inv hin hpush) hout
  | transmitted _ hpop => exact ⟨hin, Ring.pop_inv hout hpop⟩
  | taken _ _ hpop => exact ⟨Ring.pop_inv hin hpop, hout⟩
  | flushed f =>
    have ⟨_, _, hbuf, _⟩ := hs.ring f
    exact hs.setRing (Ring.flush_inv (two_le_cap_of_valid hvalid f) hbuf)
  | _ => exact hs.of_eq (by simp) (by simp) (by simp)

/-! The parser. -/

theorem Effect.parserInv (h : Effect s t) (hs : s.parser.Inv) : t.parser.Inv := by
  obtain (hkept | hreset) | ⟨b, hfeed⟩ := h.parser_cases
  · rw [hkept]
    exact hs
  · rw [hreset]
    exact FrameParser.initial_inv
  · exact FrameParser.feed_inv hs hfeed

/-! The records in flight. -/

/-- The part of `State.Inv` on the records in flight: how they go with the parser, and that they point into their
frames. -/
def RecordsInv (p : FrameParser) (poll : Option PollRecord) (cb : Option EnqRecord) : Prop :=
  ((p.st = .complete → waitsForCallback poll) ∧
    (waitsForCallback poll → p.st = .complete ∨ p = FrameParser.initial)) ∧
  (cb ≠ none → waitsForCallback poll) ∧
  (poll.bind PollRecord.enqueue).all EnqRecord.inFrame = true ∧ cb.all EnqRecord.inFrame = true

section

variable {p : FrameParser} {poll : Option PollRecord} {cb : Option EnqRecord}

theorem FrameParser.initial_ne_complete : FrameParser.initial.st ≠ .complete := by decide

/-- While no operation waits for the callback, the parser is outside `Complete` and the callback has no record. -/
theorem RecordsInv.of_not_waits (h : RecordsInv p poll cb) (hpoll : ¬ waitsForCallback poll) :
    p.st ≠ .complete ∧ cb = none := by
  obtain ⟨⟨hcomplete, -⟩, hcb, -⟩ := h
  exact ⟨mt hcomplete hpoll, not_not.1 (mt hcb hpoll)⟩

/-- Outside `Complete` the poll context may be in any operation that does not wait for the callback. -/
theorem recordsInv_outside (hst : p.st ≠ .complete) (hpoll : ¬ waitsForCallback poll)
    (hframe : (poll.bind PollRecord.enqueue).all EnqRecord.inFrame = true) : RecordsInv p poll none :=
  ⟨⟨fun h => absurd h hst, fun h => absurd h hpoll⟩, fun h => absurd rfl h, hframe, rfl⟩

theorem recordsInv_idle (hst : p.st ≠ .complete) : RecordsInv p none none :=
  recordsInv_outside hst not_waitsForCallback_none rfl

/-- 41_frame_parser.md R133: the step that enters `Complete` leaves an operation that waits for the callback. -/
theorem recordsInv_complete {wait : PollRecord} (hst : p.st = .complete) (hwait : waitsForCallback (some wait)) :
    RecordsInv p (some wait) none := by
  have hframe : (PollRecord.enqueue wait).all EnqRecord.inFrame = true := by
    obtain h | h := hwait <;> cases h <;> rfl
  exact ⟨⟨fun _ => hwait, fun _ => .inl hst⟩, fun _ => hwait, hframe, rfl⟩

/-- 41_frame_parser.md R138, log entry 25: a reset of the parser goes with any record. -/
theorem RecordsInv.reset (h : RecordsInv p poll cb) : RecordsInv FrameParser.initial poll cb := by
  obtain ⟨-, hcb, hframes⟩ := h
  exact ⟨⟨fun hst => absurd hst FrameParser.initial_ne_complete, fun _ => .inr rfl⟩, hcb, hframes⟩

/-- 10_state.md R37: while the callback runs its own record may be any that points into its frame. -/
theorem RecordsInv.setCallback (h : RecordsInv p poll cb) (hpoll : waitsForCallback poll)
    {e : Option EnqRecord} (he : e.all EnqRecord.inFrame = true) : RecordsInv p poll e := by
  obtain ⟨hparser, -, hframe, -⟩ := h
  exact ⟨hparser, fun _ => hpoll, hframe, he⟩

end

/-- The agent that steps may write its own enqueue record. -/
theorem State.MayHoldEnq.recordsInv (h : s.MayHoldEnq) (hs : RecordsInv s.parser s.pollFlight s.cbFlight)
    {e : Option EnqRecord} (he : e.all EnqRecord.inFrame = true) (hparser : u.parser = s.parser)
    (hpoll : u.pollFlight = s.pollFlight) (hcb : u.cbFlight = s.cbFlight) :
    RecordsInv (u.setEnq s.issuer e).parser (u.setEnq s.issuer e).pollFlight (u.setEnq s.issuer e).cbFlight := by
  rw [State.setEnq_parser, hparser]
  obtain ⟨hissuer, hwaits⟩ | ⟨hissuer, hwaits⟩ := h
  · obtain ⟨hst, hnone⟩ := hs.of_not_waits hwaits
    rw [hissuer, State.setEnq_poll]
    change RecordsInv s.parser (e.map .enq) u.cbFlight
    rw [hcb, hnone]
    cases e with
    | none => exact recordsInv_idle hst
    | some e => exact recordsInv_outside hst (not_waitsForCallback_enq e) he
  · rw [hissuer, State.setEnq_callback]
    change RecordsInv s.parser u.pollFlight e
    rw [hpoll]
    have ⟨_, hcallback, _⟩ := hs
    exact hs.setCallback (hwaits.elim id hcallback) he

theorem Effect.recordsInv (h : Effect s t) (hs : RecordsInv s.parser s.pollFlight s.cbFlight) :
    RecordsInv t.parser t.pollFlight t.cbFlight := by
  cases h with
  | initialised => exact recordsInv_idle FrameParser.initial_ne_complete
  | fedOn _ hmay hfeed =>
    obtain ⟨-, hwaits⟩ := hmay
    obtain ⟨-, hnone⟩ := hs.of_not_waits hwaits
    simpa [hnone] using recordsInv_idle (FrameParser.feed_inProgress_ne_complete hfeed)
  | fedError _ _ _ hmay =>
    obtain ⟨-, hwaits⟩ := hmay
    obtain ⟨-, hnone⟩ := hs.of_not_waits hwaits
    simpa [hnone] using recordsInv_idle FrameParser.initial_ne_complete
  | fedMatch hmay hwait hfeed =>
    obtain ⟨-, hwaits⟩ := hmay
    obtain ⟨-, hnone⟩ := hs.of_not_waits hwaits
    obtain ⟨-, -, rfl⟩ := FrameParser.feed_crcMatch hfeed
    simpa [hnone] using recordsInv_complete rfl hwait
  | parserReset => exact hs.reset
  | enqueuePushed hmay he | enqueueFull hmay he => exact hmay.recordsInv hs (e := some _) he rfl rfl rfl
  | enqueueFinished st hmay =>
    rw [State.finishEnq_eq]
    exact hmay.recordsInv hs (e := none) rfl rfl rfl rfl
  | ticked =>
    obtain hkept | hreset := s.countTick_parser
    · simpa [hkept] using hs
    · simpa [hreset] using hs.reset
  | taken _ hflight =>
    obtain ⟨hst, hnone⟩ := hs.of_not_waits (hflight ▸ not_waitsForCallback_none)
    simpa [hnone] using recordsInv_outside hst (not_waitsForCallback_popped _) rfl
  | callbackReturned _ _ _ hcb =>
    simpa [hcb] using recordsInv_idle FrameParser.initial_ne_complete
  | _ => simpa using hs

/-! The invariant as a whole. -/

/-- `State.Inv` by its parts: that `pbuf` is canonical follows from the invariant of the parser. -/
theorem State.inv_iff : s.Inv ↔ s.cfg.valid = true ∧ s.bridge.inited = true ∧ s.RingsInv ∧ s.parser.Inv ∧
    RecordsInv s.parser s.pollFlight s.cbFlight := by
  constructor
  · rintro ⟨hvalid, hinited, hin, hout, hparser, -, hrecords⟩
    exact ⟨hvalid, hinited, ⟨hin, hout⟩, hparser, hrecords⟩
  · rintro ⟨hvalid, hinited, ⟨hin, hout⟩, hparser, hrecords⟩
    exact ⟨hvalid, hinited, hin, hout, hparser, hparser.pbuf_wf, hrecords⟩

theorem Effect.inv (hs : s.Inv) (h : Effect s t) : t.Inv := by
  obtain ⟨hvalid, hinited, hrings, hparser, hrecords⟩ := State.inv_iff.1 hs
  exact State.inv_iff.2 ⟨by rw [h.cfg_eq, hvalid], h.inited hinited, h.ringsInv hvalid hrings, h.parserInv hparser,
    h.recordsInv hrecords⟩

/-- Settles O11: every effect keeps each part of the invariant, and taking the move keeps all of them. -/
theorem stepKeepsInvariant : Obligations.StepKeepsInvariant := by
  unfold Obligations.StepKeepsInvariant
  intro s t hs h
  exact step_keeps (P := State.Inv) (fun _ _ _ hs => hs) (fun _ _ => Effect.inv) hs h

/-- The state that `INIT` leaves, with anything scheduled, emitted or answered. -/
theorem State.resetWith_inv {c : Config} (hc : c.valid = true) : (State.resetWith c).Inv :=
  State.inv_iff.2 ⟨hc, rfl, State.resetWith_ringsInv hc, FrameParser.initial_inv,
    recordsInv_idle FrameParser.initial_ne_complete⟩

theorem Supervisor.initial_inv : Supervisor.initial.Inv := by decide

theorem State.resetWith_mirrorsSignals (c : Config) : (State.resetWith c).MirrorsSignals := ⟨rfl, rfl, rfl⟩

/-- Settles O9: `State.reset` is the reset state of the standard parameters, which are legal. -/
theorem resetMeetsInvariants : Obligations.ResetMeetsInvariants := by
  unfold Obligations.ResetMeetsInvariants
  exact ⟨State.resetWith_inv (by decide), fun c hc =>
    ⟨State.resetWith_inv hc, Supervisor.initial_inv, State.resetWith_mirrorsSignals c⟩⟩

/-- Settles O10: what `INIT` leaves is the reset state but for what only the environment and the observer hold, of
which the mirrors alone read something: the trace. -/
theorem initEstablishesInvariants : Obligations.InitEstablishesInvariants := by
  unfold Obligations.InitEstablishesInvariants
  intro s hs
  refine ⟨_, exec_init_of_mayIssue hs, ?_⟩
  obtain ⟨hvalid, -, -⟩ := hs
  rw [State.initialised_eq]
  refine ⟨State.resetWith_inv hvalid, Supervisor.initial_inv, fun htrace => ?_⟩
  rw [htrace]
  exact State.resetWith_mirrorsSignals s.cfg

end Sys2Proof.Machine
end

section
/-! PROOFS. From a state with the invariant no step faults: every `PUSH` and `POP` of a step, every store of the
parser and every read of the payload is inside its memory and meets a byte with a value. -/

namespace Sys2Proof.Machine

variable {s : State} {e : Fault}

theorem guarded_ne_fault {gate : Option Refusal} {go : Result State} (h : gate = none → go ≠ .fault e) :
    guarded gate go ≠ .fault e := fun hfault => by
  obtain ⟨hgate, hgo⟩ := guarded_eq_fault_iff.1 hfault
  exact h hgate hgo

theorem guarded_next_ne_fault {gate : Option Refusal} {t : State} : guarded gate (.next t) ≠ .fault e :=
  guarded_ne_fault fun _ => by simp

theorem State.RingsInv.pushOn_ne_error (h : s.RingsInv) (f : BufSel) (b : Byte) : s.pushOn f b ≠ .error e :=
  fun herror => Ring.push_no_fault (h.ring f) e (State.pushOn_eq_error herror)

theorem State.RingsInv.popOn_ne_error (h : s.RingsInv) (hvalid : s.cfg.valid = true) (f : BufSel) :
    s.popOn f ≠ .error e :=
  fun herror => Ring.pop_no_fault (two_le_cap_of_valid hvalid f) (h.ring f) e (State.popOn_eq_error herror)

theorem finishFeed_ne_fault {wait : PollRecord} {owner : Agent} {b : Byte} (h : s.parser.Inv) :
    s.finishFeed wait owner (s.parser.feed b) ≠ .fault e :=
  fun hfault => FrameParser.feed_no_fault h b e (finishFeed_fault hfault)

theorem encodeStep_ne_fault {a : Agent} {i : Nat} {bytes : List Byte} (h : s.RingsInv) :
    encodeStep a i bytes s ≠ .fault e := by
  intro hfault
  unfold encodeStep at hfault
  split at hfault
  · cases hfault
  · split at hfault
    · cases hfault
    · cases hfault
    · rename_i herror
      exact h.pushOn_ne_error _ _ herror

theorem resumeEnq_ne_fault {a : Agent} {r : EnqRecord} (h : s.RingsInv) : resumeEnq a r s ≠ .fault e := by
  cases r with
  | encode i bytes failed =>
    cases failed with
    | false => exact encodeStep_ne_fault h
    | true => simp [resumeEnq]
  | enqueueByte st => simp [resumeEnq]

/-- 10_state.md R43: from the end of the payload on, every index below `payload_len` holds a byte, inside `pbuf`. -/
theorem FrameParser.Inv.memRead_payload {p : FrameParser} (h : p.Inv) (hst : p.st.afterPayload) {i : Half}
    (hi : i.toNat < p.payloadLen.toNat) :
    ∃ b, p.pbuf.read i.toNat = some b ∧ memRead .pbuf Config.payloadRamSize p.pbuf i.toNat = .ok b := by
  obtain ⟨hindices, -, -, hend, -⟩ := h
  obtain ⟨hcursor, -⟩ := hend hst
  rw [← hcursor] at hi
  obtain ⟨b, hb⟩ := Option.isSome_iff_exists.1 (Memory.read_isSome_of_range hindices hi)
  have hmax := p.cursor.isLt
  exact ⟨b, hb, memRead_eq_ok_iff.2 ⟨by unfold Config.payloadRamSize; omega, hb⟩⟩

theorem exec_ne_fault (h : s.Inv) (i : Instr) : exec i s ≠ .fault e := by
  obtain ⟨hvalid, -, hrings, hparser, -⟩ := State.inv_iff.1 h
  cases i with
  | processStep | onTransmitReady | pop =>
    refine guarded_ne_fault fun _ hfault => ?_
    split at hfault
    · cases hfault
    · cases hfault
    · rename_i herror
      exact hrings.popOn_ne_error hvalid _ herror
  | onByteReceived b =>
    have hnoted : s.noteArrival.RingsInv := hrings.of_eq (by simp) (by simp) (by simp)
    refine guarded_ne_fault fun _ hfault => ?_
    split at hfault
    · cases hfault
    · cases hfault
    · rename_i herror
      exact hnoted.pushOn_ne_error _ _ herror
  | push | enqueueByte =>
    refine guarded_ne_fault fun _ hfault => ?_
    split at hfault
    · cases hfault
    · cases hfault
    · rename_i herror
      exact hrings.pushOn_ne_error _ _ herror
  | feed b => exact guarded_ne_fault fun _ => finishFeed_ne_fault hparser
  | encodeAndEnqueue fc len payload =>
    refine guarded_ne_fault fun _ hfault => ?_
    split at hfault
    · cases hfault
    · split at hfault
      · cases hfault
      · exact encodeStep_ne_fault hrings hfault
  | getPayloadByte k =>
    refine guarded_ne_fault fun hgate hfault => ?_
    obtain ⟨-, -, -, hst, -⟩ := accessorGate_eq_none_iff.1 hgate
    split at hfault
    · cases hfault
    · rename_i hlt
      obtain ⟨b, -, hread⟩ := hparser.memRead_payload (.inr (.inr hst)) (Nat.not_le.1 hlt)
      simp [hread] at hfault
  | _ => exact guarded_next_ne_fault

theorem resumePoll_ne_fault (h : s.Inv) : resumePoll s ≠ .fault e := by
  obtain ⟨-, -, hrings, hparser, -⟩ := State.inv_iff.1 h
  refine guarded_ne_fault fun _ => ?_
  split
  · simp
  · exact finishFeed_ne_fault hparser
  · simp
  · simp
  · exact resumeEnq_ne_fault hrings

theorem resumeCallback_ne_fault (h : s.Inv) : resumeCallback s ≠ .fault e := by
  obtain ⟨-, -, hrings, -⟩ := State.inv_iff.1 h
  refine guarded_ne_fault fun _ => ?_
  split
  · simp
  · exact resumeEnq_ne_fault hrings

/-- Settles O12, move by move; taking the move off the schedule keeps the invariant. -/
theorem noStepFaults : Obligations.NoStepFaults := by
  unfold Obligations.NoStepFaults
  intro s e h
  unfold step
  split
  · simp
  · rename_i a r rest _
    unfold issueRequest
    split
    · exact exec_ne_fault (s := s.takeMove a rest) h _
    · simp
  · rename_i rest _
    exact resumePoll_ne_fault (s := s.takeMove .poll rest) h
  · rename_i rest _
    exact resumeCallback_ne_fault (s := s.takeMove .callback rest) h
  · exact guarded_next_ne_fault

end Sys2Proof.Machine
end

section
/-! PROOFS. What every step keeps of the supervisor and of the signals emitted: the two bits that mirror the signals,
the supervisor's own invariant, its inertness, and the bytes sent and queued. -/

namespace Sys2Proof.Machine

variable {s t : State}

/-! What one more signal does to what is read off a trace. -/

section

variable (tr : List Signal) {x : Signal}

@[simp] theorem txIntAfter_snoc (start : Bool) : txIntAfter start (tr ++ [x]) =
    if x = .txIntEnable then true else if x = .txIntDisable then false else txIntAfter start tr := by
  rw [txIntAfter, List.foldl_concat, txIntAfter]

@[simp] theorem timerAfter_snoc (start : Bool) : timerAfter start (tr ++ [x]) =
    if x = .timerStart then true else if x = .timerStop then false else timerAfter start tr := by
  rw [timerAfter, List.foldl_concat, timerAfter]

@[simp] theorem timerSignals_snoc : timerSignals (tr ++ [x]) =
    timerSignals tr ++ if x = .timerStart ∨ x = .timerStop then [x] else [] := by
  simp [timerSignals, List.filter_singleton]

@[simp] theorem sentBytes_append (tr' : List Signal) : sentBytes (tr ++ tr') = sentBytes tr ++ sentBytes tr' :=
  List.filterMap_append

@[simp] theorem sentBytes_send (b : Byte) : sentBytes [.send b] = [b] := rfl

@[simp] theorem sentBytes_of_ne_send (h : ∀ b, x ≠ .send b) : sentBytes [x] = [] := by
  cases x with
  | send b => exact absurd rfl (h b)
  | txIntEnable | txIntDisable | timerStart | timerStop => rfl

end

/-! What the return of the callback writes (41_frame_parser.md R133). -/

@[simp] theorem State.finishCallback_sup (a : Agent) (r : Word) :
    (s.finishCallback a r).sup = { s.sup with running := false } := by
  simp [State.finishCallback]

@[simp] theorem State.finishCallback_trace (a : Agent) (r : Word) :
    (s.finishCallback a r).trace = if s.sup.running then s.trace ++ [.timerStop] else s.trace := by
  simp [State.finishCallback]

/-! The mirrors. -/

theorem State.MirrorsSignals.of_eq (h : s.MirrorsSignals) (hcfg : t.cfg = s.cfg) (hbridge : t.bridge = s.bridge)
    (hrunning : t.sup.running = s.sup.running) (htrace : t.trace = s.trace) : t.MirrorsSignals := by
  rw [State.MirrorsSignals, hcfg, hbridge, hrunning, htrace]
  exact h

theorem State.MirrorsSignals.supStop (h : s.MirrorsSignals) : s.supStop.MirrorsSignals := by
  obtain ⟨hinited, htx, htimer⟩ := h
  cases hrun : s.sup.running with
  | false => simpa [State.MirrorsSignals, hrun, hinited, htx] using hrun.symm.trans htimer
  | true => simp [State.MirrorsSignals, hrun, hinited, htx]

theorem State.MirrorsSignals.frameStart (h : s.MirrorsSignals) : s.frameStart.MirrorsSignals := by
  obtain ⟨hinited, htx, htimer⟩ := h
  cases hrun : s.sup.running with
  | false => simp [State.MirrorsSignals, hrun, hinited, htx]
  | true => simpa [State.MirrorsSignals, hrun, hinited, htx] using hrun.symm.trans htimer

theorem State.MirrorsSignals.noteArrival (h : s.MirrorsSignals) : s.noteArrival.MirrorsSignals := by
  unfold State.noteArrival
  split
  · exact h.frameStart
  · exact h

theorem State.MirrorsSignals.countTick (h : s.MirrorsSignals) : s.countTick.MirrorsSignals := by
  obtain ⟨-, heq⟩ | ⟨-, -, -, heq⟩ | ⟨-, -, -, heq⟩ := countTick_cases s
  · rw [heq]
    exact h
  · exact h.of_eq (by simp) (by simp) (by simp [heq]) (by simp [heq])
  · obtain ⟨hinited, htx, -⟩ := h
    simp [State.MirrorsSignals, heq, hinited, htx]

theorem Effect.mirrorsSignals (hs : s.MirrorsSignals) (h : Effect s t) : t.MirrorsSignals := by
  have ⟨hinited, htx, htimer⟩ := hs
  cases h with
  | initialised _ _ hnot => exact absurd (hnot.symm.trans hinited) (by decide)
  | fedError | supStopped | disarmed | callbackReturned =>
    exact hs.supStop.of_eq (by simp) (by simp) (by simp) (by simp)
  | frameStarted => exact hs.frameStart
  | arrivalLost | arrived => exact hs.noteArrival
  | ticked => exact hs.countTick
  | enqueueFinished => simp [State.MirrorsSignals, hinited, htimer]
  | transmitDisabled => simp [State.MirrorsSignals, hinited, htimer]
  | transmitted => simp [State.MirrorsSignals, hinited, htx, htimer]
  | _ => exact hs.of_eq (by simp) (by simp) (by simp) (by simp)

/-- Settles O14: each bit is written by the operations that emit its signals, with the signal. -/
theorem stepKeepsSignalMirrors : Obligations.StepKeepsSignalMirrors := by
  unfold Obligations.StepKeepsSignalMirrors
  intro s t hs h
  exact step_keeps (P := State.MirrorsSignals) (fun _ _ _ hs => hs) (fun _ _ => Effect.mirrorsSignals) hs h

/-! The supervisor's invariant. -/

theorem Supervisor.inv_of_stopped {u : Supervisor} (h : u.running = false) : u.Inv := by
  simp [Supervisor.Inv, h]

/-- 44_io_bridge.md R189: the bridge starts the supervisor only where it is armed. -/
theorem State.noteArrival_supInv (h : s.sup.Inv) : s.noteArrival.sup.Inv := by
  unfold State.noteArrival
  split
  · rename_i harmed
    simp [Supervisor.Inv, harmed]
  · exact h

/-- 43_timeout_supervisor.md R172: a count that stays below the budget stays below the largest value. -/
theorem State.countTick_supInv (h : s.sup.Inv) : s.countTick.sup.Inv := by
  obtain ⟨-, heq⟩ | ⟨harmed, -, hlt, heq⟩ | ⟨-, -, -, heq⟩ := countTick_cases s
  · rw [heq]
    exact h
  · have hmax : s.sup.tickCount + 1#32 ≠ 0xFFFFFFFF#32 := fun h => by
      have := s.sup.tickBudget.isLt
      rw [h] at hlt
      exact absurd hlt (by simp; omega)
    rw [heq]
    exact ⟨fun _ => harmed, fun _ => hmax⟩
  · rw [heq]
    exact Supervisor.inv_of_stopped rfl

theorem Effect.supInv (h : Effect s t) (hissuer : s.issuer ≠ .component) (hs : s.sup.Inv) : t.sup.Inv := by
  cases h with
  | initialised => exact Supervisor.initial_inv
  | fedError | supStopped | disarmed | callbackReturned => exact Supervisor.inv_of_stopped (by simp)
  | frameStarted hcomponent => exact absurd hcomponent hissuer
  | arrivalLost | arrived => exact State.noteArrival_supInv hs
  | ticked => exact State.countTick_supInv hs
  | enabled =>
    obtain ⟨-, hcount⟩ := hs
    exact ⟨fun _ => rfl, hcount⟩
  | _ => simpa using hs

/-- Settles O13: `ON_FRAME_START` alone could start a disarmed supervisor, and it is a primitive. -/
theorem stepKeepsSupervisorInvariant : Obligations.StepKeepsSupervisorInvariant := by
  unfold Obligations.StepKeepsSupervisorInvariant
  intro s t hs hnext h
  obtain ⟨rfl, -⟩ | ⟨a, rest, he, hcomponent, -⟩ := step_effect h
  · exact hs
  · exact he.supInv (hcomponent hnext) hs

/-! Inertness. -/

theorem State.noteArrival_of_disarmed (h : s.sup.armed = false) : s.noteArrival = s := by
  simp [State.noteArrival, h]

theorem Effect.inert (h : Effect s t) (hissuer : s.issuer ≠ .component) (harmed : s.sup.armed = false)
    (hstopped : s.sup.running = false) :
    t.sup.running = false ∧ timerSignals t.trace = timerSignals s.trace := by
  cases h with
  | initialised => exact ⟨rfl, rfl⟩
  | frameStarted hcomponent => exact absurd hcomponent hissuer
  | arrivalLost | arrived => simp [State.noteArrival_of_disarmed harmed, hstopped]
  | ticked => simp [State.countTick_of_idle (.inl harmed), hstopped]
  | _ => simp [hstopped]

/-- Settles O50: while disarmed an arrival starts nothing, and while stopped a stop says nothing. -/
theorem inertUntilEnabled : Obligations.InertUntilEnabled := by
  unfold Obligations.InertUntilEnabled
  intro s t harmed hstopped hnext h
  obtain ⟨rfl, -⟩ | ⟨a, rest, he, hcomponent, -⟩ := step_effect h
  · exact ⟨hstopped, rfl⟩
  · exact he.inert (hcomponent hnext) harmed hstopped

/-! The bytes sent and queued. -/

/-- The bytes that have gone out, then those that wait in `OUT`. -/
def State.sentThenQueued (s : State) : List Byte := sentBytes s.trace ++ s.outbound.contents s.cfg.capOut

theorem State.sentThenQueued_of_eq (hcfg : t.cfg = s.cfg) (hout : t.outbound = s.outbound)
    (hsent : sentBytes t.trace = sentBytes s.trace) : t.sentThenQueued = s.sentThenQueued := by
  rw [State.sentThenQueued, hcfg, hout, hsent, State.sentThenQueued]

@[simp] theorem sentBytes_noteArrival : sentBytes s.noteArrival.trace = sentBytes s.trace := by
  unfold State.noteArrival
  split
  · cases hrun : s.sup.running <;> simp [hrun]
  · rfl

/-- A stop, with its signal or without, sends nothing. -/
@[simp] theorem sentBytes_stopIf (c : Prop) [Decidable c] (tr : List Signal) :
    sentBytes (if c then tr ++ [.timerStop] else tr) = sentBytes tr := by
  split <;> simp

@[simp] theorem sentBytes_countTick : sentBytes s.countTick.trace = sentBytes s.trace := by
  obtain ⟨-, heq⟩ | ⟨-, -, -, heq⟩ | ⟨-, -, -, heq⟩ := countTick_cases s <;> simp [heq]

theorem Effect.sentThenQueued (h : Effect s t) (hissuer : s.issuer ≠ .component) (hs : s.Inv) :
    ∃ l : List Byte, l.length ≤ 1 ∧ t.sentThenQueued = s.sentThenQueued ++ l := by
  obtain ⟨-, hinited, ⟨-, hout⟩, -⟩ := State.inv_iff.1 hs
  have ⟨hr, _⟩ := hout
  have hsame : ∀ {u : State}, u.sentThenQueued = s.sentThenQueued →
      ∃ l : List Byte, l.length ≤ 1 ∧ u.sentThenQueued = s.sentThenQueued ++ l :=
    fun heq => ⟨[], by simp, by simp [heq]⟩
  cases h with
  | initialised _ _ hnot => exact absurd (hnot.symm.trans hinited) (by decide)
  | pushed hcomponent | popped hcomponent | flushed _ hcomponent | frameStarted hcomponent =>
    exact absurd hcomponent hissuer
  | @enqueuePushed b _ _ _ _ hpush =>
    exact ⟨[b], le_rfl, by simp [State.sentThenQueued, Ring.contents_push hr hpush]⟩
  | transmitted _ hpop =>
    exact hsame (by simp [State.sentThenQueued, Ring.contents_pop hout hpop])
  | _ => exact hsame (State.sentThenQueued_of_eq (by simp) (by simp) (by simp))

/-- Settles O18: a sent byte moves from the head of the queue to the end of the sent bytes, and a queued byte comes
last; nothing else of the whole block touches either. -/
theorem sentThenQueuedOnlyGrows : Obligations.SentThenQueuedOnlyGrows := by
  unfold Obligations.SentThenQueuedOnlyGrows
  intro s t hs hnext h
  obtain ⟨rfl, -⟩ | ⟨a, rest, he, hcomponent, -⟩ := step_effect h
  · exact ⟨[], by simp⟩
  · exact he.sentThenQueued (hcomponent hnext) hs

end Sys2Proof.Machine
end

section
/-! PROOFS. Which move a step takes and which operations it refuses: the obligations on the schedule, on the agents
and on what is in flight. -/

namespace Sys2Proof.Machine

variable {s : State} {i : Instr}

/-- Settles O4: the five forms of a schedule are the five branches of a step. -/
theorem stepRunsDecodedOperation : Obligations.StepRunsDecodedOperation := by
  unfold Obligations.StepRunsDecodedOperation
  refine ⟨fun s a r rest i hsched hdecode => ?_, fun s rest hsched => ?_, fun s rest hsched => ?_,
    fun s v rest hsched => ?_, fun s hsched => ?_⟩
  · rw [step_issue hsched, issueRequest, hdecode, State.takeMove]
  · simp only [step, hsched, State.takeMove]
  · simp only [step, hsched, State.takeMove]
  · simp only [step, hsched, State.takeMove]
  · simp only [step, hsched]

/-- The refusal that an operation's gate names is the operation's. -/
theorem exec_eq_refused_of_issueGate {r : Refusal} (h : issueGate s i = some r) : exec i s = .refused r := by
  obtain ⟨go, hexec⟩ := exists_exec_eq_guarded_issueGate i s
  rw [hexec, h, guarded_some]

/-! The wrong agent. -/

theorem agentGate_wrongAgent {a : Agent} (hvalid : s.cfg.valid = true) (hne : s.issuer ≠ a) :
    agentGate a s = some (.wrongAgent s.issuer) := by
  simp [agentGate, hvalid, hne]

/-- 30_encoding.md R88: every gate looks at the agent right after the capacities (log entry 9). -/
theorem issueGate_wrongAgent (hvalid : s.cfg.valid = true) (h : belongsTo s.issuer i = false) :
    issueGate s i = some (.wrongAgent s.issuer) := by
  cases i with
  | init =>
    have hne : s.issuer ≠ .poll := by simpa [belongsTo] using h
    simp [issueGate, initGate, hvalid, hne]
  | processStep | enable | disable | tick =>
    have hne : s.issuer ≠ .poll := by simpa [belongsTo] using h
    simp [issueGate, pollGate, agentGate_wrongAgent hvalid hne]
  | onByteReceived =>
    have hne : s.issuer ≠ .isr := by simpa [belongsTo] using h
    exact agentGate_wrongAgent hvalid hne
  | onTransmitReady =>
    have hne : s.issuer ≠ .isr := by simpa [belongsTo] using h
    simp [issueGate, transmitGate, isrGate, agentGate_wrongAgent hvalid hne]
  | push | pop | isFull | isEmpty | flush | reset | onFrameStart | supStop =>
    have hne : s.issuer ≠ .component := by simpa [belongsTo] using h
    exact agentGate_wrongAgent hvalid hne
  | feed =>
    have hne : s.issuer ≠ .component := by simpa [belongsTo] using h
    simp [issueGate, feedGate, primitiveGate, agentGate_wrongAgent hvalid hne]
  | encodeAndEnqueue | enqueueByte =>
    obtain ⟨hpoll, hcallback⟩ : s.issuer ≠ .poll ∧ s.issuer ≠ .callback := by simpa [belongsTo] using h
    simp [issueGate, enqueueGate, hcallback, pollGate, agentGate_wrongAgent hvalid hpoll]
  | getFuncCode | getPayloadLen | getPayloadByte =>
    have hne : s.issuer ≠ .callback := by simpa [belongsTo] using h
    simp [issueGate, accessorGate, agentGate_wrongAgent hvalid hne]

/-- Settles O7: the refusal is that of the operation's gate. -/
theorem wrongAgentRefused : Obligations.WrongAgentRefused := by
  unfold Obligations.WrongAgentRefused
  exact fun s i hvalid h => exec_eq_refused_of_issueGate (issueGate_wrongAgent hvalid h)

/-! What is in flight. -/

/-- 20_memory.md R68: behind the agent's gate a poll operation looks at the poll record. -/
theorem pollGate_busy (hagent : agentGate .poll s = none) (hflight : s.pollFlight ≠ none) :
    pollGate s = some .pollBusy := by
  simp [pollGate, hagent, Option.isSome_iff_ne_none.2 hflight]

theorem issueGate_pollBusy (hvalid : s.cfg.valid = true) (hissuer : s.issuer = .poll)
    (hinited : s.bridge.inited = true) (hflight : s.pollFlight ≠ none) (hpoll : belongsTo .poll i = true)
    (hinit : i ≠ .init) : issueGate s i = some .pollBusy := by
  have hbusy := pollGate_busy (agentGate_eq_none_iff.2 ⟨hvalid, hissuer, hinited⟩) hflight
  cases i with
  | init => exact absurd rfl hinit
  | processStep | enable | disable | tick => exact hbusy
  | encodeAndEnqueue | enqueueByte => simpa [issueGate, enqueueGate, hissuer] using hbusy
  | _ => simp [belongsTo] at hpoll

theorem feedGate_busy (h : s.PrimitiveMayIssue) (hflight : s.pollFlight ≠ none) (hst : s.parser.st ≠ .complete) :
    feedGate s = some .pollBusy := by
  simp [feedGate, primitiveGate_eq_none_iff.2 h, hst, Option.isSome_iff_ne_none.2 hflight]

/-- 10_state.md R37: while the callback runs, its operations look at its own record. -/
theorem issueGate_callbackBusy (hvalid : s.cfg.valid = true) (hissuer : s.issuer = .callback)
    (hinited : s.bridge.inited = true) (hwaits : waitsForCallback s.pollFlight) (hflight : s.cbFlight ≠ none)
    (hcallback : belongsTo .callback i = true) (hreadable : s.parser.st = .complete ∨ belongsTo .poll i = true) :
    issueGate s i = some .callbackBusy := by
  have hagent : agentGate .callback s = none := agentGate_eq_none_iff.2 ⟨hvalid, hissuer, hinited⟩
  have hbusy := Option.isSome_iff_ne_none.2 hflight
  cases i with
  | encodeAndEnqueue | enqueueByte =>
    simp [issueGate, enqueueGate, hissuer, callbackGate, hagent, callbackRuns_iff.2 hwaits, hbusy]
  | getFuncCode | getPayloadLen | getPayloadByte =>
    have hst : s.parser.st = .complete := by simpa [belongsTo] using hreadable
    simp [issueGate, accessorGate, hagent, frameReadable_iff.2 ⟨hst, hwaits⟩, hbusy]
  | _ => simp [belongsTo] at hcallback

/-- Settles O8: behind the agent's gate each of the three kinds of operation looks at the record that would have to
hold its later steps. -/
theorem pollDoesNotPreemptItself : Obligations.PollDoesNotPreemptItself := by
  unfold Obligations.PollDoesNotPreemptItself
  refine ⟨fun s i hvalid hissuer hinited hflight hpoll hinit => ?_, fun b s h hflight hst => ?_,
    fun s i hvalid hissuer hinited hwaits hflight hcallback hreadable => ?_⟩
  · exact exec_eq_refused_of_issueGate (issueGate_pollBusy hvalid hissuer hinited hflight hpoll hinit)
  · exact exec_eq_refused_of_issueGate (feedGate_busy h hflight hst)
  · exact exec_eq_refused_of_issueGate
      (issueGate_callbackBusy hvalid hissuer hinited hwaits hflight hcallback hreadable)

end Sys2Proof.Machine
end

section
/-! PROOFS. The accessor of the payload, and the obligations on it and on when any accessor is refused. -/

namespace Sys2Proof.Machine

variable {s : State} {i : Half} {b : Byte}

theorem exec_getPayloadByte_outOfRange (h : s.CallbackMayIssue) (hi : s.parser.payloadLen.toNat ≤ i.toNat) :
    exec (.getPayloadByte i) s = .refused .payloadIndexOutOfRange := by
  change execGetPayloadByte i s = _
  rw [execGetPayloadByte, guarded_accessorGate h, if_pos hi]

/-- A 16-bit index below a 16-bit length is inside `pbuf`. -/
theorem exec_getPayloadByte_ok (h : s.CallbackMayIssue) (hi : i.toNat < s.parser.payloadLen.toNat)
    (hread : s.parser.pbuf.read i.toNat = some b) :
    exec (.getPayloadByte i) s = .next (s.answer .callback .ok (byteValue b)) := by
  have hmax := s.parser.payloadLen.isLt
  have hmem : memRead .pbuf Config.payloadRamSize s.parser.pbuf i.toNat = .ok b :=
    memRead_eq_ok_iff.2 ⟨by unfold Config.payloadRamSize; omega, hread⟩
  change execGetPayloadByte i s = _
  rw [execGetPayloadByte, guarded_accessorGate h, if_neg (Nat.not_le.2 hi), hmem]

/-- Settles O59: behind the gate of the accessors the index is compared with the length. -/
theorem payloadByteAccessor : Obligations.PayloadByteAccessor := by
  unfold Obligations.PayloadByteAccessor
  exact ⟨decode_getPayloadByteCode,
    fun i s h => ⟨exec_getPayloadByte_outOfRange h, fun b => exec_getPayloadByte_ok h⟩⟩

/-- 44_io_bridge.md R204: outside `Complete` the accessors' gate stops at the frame (log entry 9). -/
theorem accessorGate_outside (hagent : agentGate .callback s = none) (hst : s.parser.st ≠ .complete) :
    accessorGate s = some .outsideCallback := by
  have hreadable : s.frameReadable = false :=
    Bool.eq_false_iff.2 fun hr => hst (frameReadable_iff.1 hr).1
  simp [accessorGate, hagent, hreadable]

/-- Settles O60: in `Complete` the invariant has an operation wait for the callback and a byte at every index below the
length; outside it the gate refuses. -/
theorem accessorsOnlyInCallback : Obligations.AccessorsOnlyInCallback := by
  unfold Obligations.AccessorsOnlyInCallback
  intro s i hs hissuer
  obtain ⟨hvalid, hinited, -, hparser, ⟨hwaits, -⟩, -⟩ := State.inv_iff.1 hs
  refine ⟨fun hst hcb hi => ?_, fun hst => ?_⟩
  · obtain ⟨b, hread, -⟩ := hparser.memRead_payload (.inr (.inr hst)) hi
    exact ⟨b, hread, exec_getPayloadByte_ok ⟨hvalid, hissuer, hinited, hst, hwaits hst, hcb⟩ hi hread⟩
  · have hgate := accessorGate_outside (agentGate_eq_none_iff.2 ⟨hvalid, hissuer, hinited⟩) hst
    exact ⟨exec_eq_refused_of_issueGate hgate, exec_eq_refused_of_issueGate hgate,
      exec_eq_refused_of_issueGate hgate⟩

end Sys2Proof.Machine
end

section
/-! PROOFS. What each kind of operation leaves unchanged, down to single bytes of memory (10_state.md R48). -/

namespace Sys2Proof.Machine

variable {s t : State}

/-! Bytes of memory. -/

theorem State.byteAt_eq (hin : t.inbound.buf = s.inbound.buf) (hout : t.outbound.buf = s.outbound.buf)
    (hpbuf : t.parser.pbuf = s.parser.pbuf) (m : MemId) (k : Nat) : t.byteAt m k = s.byteAt m k := by
  simp only [State.byteAt, hin, hout, hpbuf]

@[simp] theorem State.byteAt_bufMem (s : State) (f : BufSel) (k : Nat) :
    s.byteAt (bufMem f) k = (s.ring f).buf.read k := by
  cases f <;> rfl

theorem State.byteAt_setRing_of_ne (f : BufSel) (r : Ring) {m : MemId} (hm : m ≠ bufMem f) (k : Nat) :
    (s.setRing f r).byteAt m k = s.byteAt m k := by
  cases f with
  | inbound =>
    cases m with
    | inBuf => exact absurd rfl hm
    | outBuf | pbuf => rfl
  | outbound =>
    cases m with
    | outBuf => exact absurd rfl hm
    | inBuf | pbuf => rfl

/-- A `PUSH` stores at the write index and nowhere else. -/
theorem State.byteAt_push {f : BufSel} {b : Byte} {r : Ring}
    (hpush : (s.ring f).push (bufMem f) (s.cap f) b = .ok (some r)) {m : MemId} {k : Nat}
    (hk : ¬ (m = bufMem f ∧ k = (s.ring f).wr.toNat)) : (s.setRing f r).byteAt m k = s.byteAt m k := by
  obtain ⟨-, -, rfl⟩ := Ring.push_eq_some_iff.1 hpush
  by_cases hm : m = bufMem f
  · subst hm
    rw [State.byteAt_bufMem, State.ring_setRing, State.byteAt_bufMem]
    exact Memory.read_write_other _ _ fun h => hk ⟨rfl, h⟩
  · exact State.byteAt_setRing_of_ne f _ hm k

/-- A buffer with the same array holds the same bytes. -/
theorem State.byteAt_setRing_of_buf {f : BufSel} {r : Ring} (hbuf : r.buf = (s.ring f).buf) (m : MemId) (k : Nat) :
    (s.setRing f r).byteAt m k = s.byteAt m k := by
  by_cases hm : m = bufMem f
  · rw [hm, State.byteAt_bufMem, State.ring_setRing, State.byteAt_bufMem, hbuf]
  · exact State.byteAt_setRing_of_ne f r hm k

theorem Ring.push_rd {id : MemId} {c : Word} {b : Byte} {f r : Ring} (h : f.push id c b = .ok (some r)) :
    r.rd = f.rd := by
  obtain ⟨-, -, rfl⟩ := Ring.push_eq_some_iff.1 h
  rfl

theorem Ring.pop_frame {id : MemId} {c : Word} {b : Byte} {f r : Ring} (h : f.pop id c = .ok (some (b, r))) :
    r.wr = f.wr ∧ r.buf = f.buf := by
  obtain ⟨-, -, -, rfl⟩ := Ring.pop_eq_some_iff.1 h
  exact ⟨rfl, rfl⟩

/-! The ring-buffer primitives. -/

theorem State.ring_setRing_of_ne {f g : BufSel} (h : g ≠ f) (r : Ring) : (s.setRing f r).ring g = s.ring g := by
  cases f with
  | inbound =>
    cases g with
    | inbound => exact absurd rfl h
    | outbound => rfl
  | outbound =>
    cases g with
    | inbound => rfl
    | outbound => exact absurd rfl h

/-- An answer writes nothing but the log of responses. -/
theorem State.answer_frame (a : Agent) (st : Status) (v : Word) :
    s.answer a st v = { s with
      inbound := (s.answer a st v).inbound
      outbound := (s.answer a st v).outbound
      answers := (s.answer a st v).answers } := rfl

theorem State.setRing_answer_frame (f : BufSel) (r : Ring) (a : Agent) (st : Status) (v : Word) :
    (s.setRing f r).answer a st v = { s with
      inbound := ((s.setRing f r).answer a st v).inbound
      outbound := ((s.setRing f r).answer a st v).outbound
      answers := ((s.setRing f r).answer a st v).answers } := by
  cases f <;> rfl

theorem State.ring_answer (a : Agent) (st : Status) (v : Word) (g : BufSel) :
    (s.answer a st v).ring g = s.ring g := by
  cases g <;> rfl

section

variable {f : BufSel}

theorem execPush_frame {b : Byte} (h : execPush f b s = .next t) :
    t = { s with inbound := t.inbound, outbound := t.outbound, answers := t.answers } ∧
      (∀ g, g ≠ f → t.ring g = s.ring g) ∧ (t.ring f).rd = (s.ring f).rd ∧
      ∀ (m : MemId) (i : Nat), ¬ (m = bufMem f ∧ i = (s.ring f).wr.toNat) → t.byteAt m i = s.byteAt m i := by
  obtain ⟨-, ⟨-, rfl⟩ | ⟨u, hpush, rfl⟩⟩ := execPush_next h
  · exact ⟨State.answer_frame .., fun g _ => State.ring_answer .., by rw [State.ring_answer], fun m k _ => rfl⟩
  · obtain ⟨r, hring, rfl⟩ := State.push_of_pushOn hpush
    refine ⟨State.setRing_answer_frame .., fun g hg => ?_, ?_, fun m k hk => State.byteAt_push hring hk⟩
    · rw [State.ring_answer, State.ring_setRing_of_ne hg]
    · rw [State.ring_answer, State.ring_setRing, Ring.push_rd hring]

theorem execPop_frame (h : execPop f s = .next t) :
    t = { s with inbound := t.inbound, outbound := t.outbound, answers := t.answers } ∧
      (∀ g, g ≠ f → t.ring g = s.ring g) ∧ (t.ring f).wr = (s.ring f).wr ∧
      ∀ (m : MemId) (i : Nat), t.byteAt m i = s.byteAt m i := by
  obtain ⟨-, ⟨-, rfl⟩ | ⟨b, u, hpop, rfl⟩⟩ := execPop_next h
  · exact ⟨State.answer_frame .., fun g _ => State.ring_answer .., by rw [State.ring_answer], fun m k => rfl⟩
  · obtain ⟨r, hring, rfl⟩ := State.pop_of_popOn hpop
    obtain ⟨hwr, hbuf⟩ := Ring.pop_frame hring
    refine ⟨State.setRing_answer_frame .., fun g hg => ?_, ?_, State.byteAt_setRing_of_buf hbuf⟩
    · rw [State.ring_answer, State.ring_setRing_of_ne hg]
    · rw [State.ring_answer, State.ring_setRing, hwr]

theorem execFlush_frame (h : execFlush f s = .next t) :
    t = { s with inbound := t.inbound, outbound := t.outbound, answers := t.answers } ∧
      (∀ g, g ≠ f → t.ring g = s.ring g) ∧ ∀ (m : MemId) (i : Nat), t.byteAt m i = s.byteAt m i := by
  obtain ⟨-, rfl⟩ := execFlush_next h
  refine ⟨State.setRing_answer_frame .., fun g hg => ?_, State.byteAt_setRing_of_buf rfl⟩
  rw [State.ring_answer, State.ring_setRing_of_ne hg]

theorem execIsFull_frame (h : execIsFull f s = .next t) : t = { s with answers := t.answers } := by
  obtain ⟨-, rfl⟩ := execIsFull_next h
  rfl

theorem execIsEmpty_frame (h : execIsEmpty f s = .next t) : t = { s with answers := t.answers } := by
  obtain ⟨-, rfl⟩ := execIsEmpty_next h
  rfl

end

/-- Settles O28, by the frame of each primitive. -/
theorem ringPrimitivesFrame : Obligations.RingPrimitivesFrame := by
  unfold Obligations.RingPrimitivesFrame
  exact fun f b s t => ⟨execPush_frame, execPop_frame, execFlush_frame, execIsFull_frame, execIsEmpty_frame⟩

/-! The parser. -/

/-- 41_frame_parser.md R129: a `FEED` that does not end in an error stores at most at the cursor. -/
theorem FrameParser.read_pbuf_of_feed {p q : FrameParser} {b : Byte}
    (h : p.feed b = .inProgress q ∨ p.feed b = .crcMatch q) {k : Nat}
    (hk : ¬ (p.st = .awaitPayload ∧ k = p.cursor.toNat)) : q.pbuf.read k = p.pbuf.read k := by
  obtain hfeed | hfeed := h
  · cases FrameParser.feedOn_of_feed hfeed with
    | payload hst => exact Memory.read_write_other _ _ fun h => hk ⟨hst, h⟩
    | _ => rfl
  · obtain ⟨-, -, rfl⟩ := FrameParser.feed_crcMatch hfeed
    rfl

theorem execFeed_frame {b : Byte} (h : execFeed b s = .next t) :
    t = { s with
      parser := t.parser, sup := { s.sup with running := t.sup.running }, trace := t.trace
      pollFlight := t.pollFlight, answers := t.answers } ∧
    (t.parser = FrameParser.initial ∨
      ∀ i : Nat, ¬ (s.parser.st = .awaitPayload ∧ i = s.parser.cursor.toNat) →
        t.byteAt .pbuf i = s.byteAt .pbuf i) ∧
    ∀ i : Nat, t.byteAt .inBuf i = s.byteAt .inBuf i ∧ t.byteAt .outBuf i = s.byteAt .outBuf i := by
  obtain ⟨-, hfinish⟩ := execFeed_next h
  obtain ⟨p, hfeed, rfl⟩ | ⟨p, st, -, rfl⟩ | ⟨p, hfeed, rfl⟩ := finishFeed_next hfinish
  · exact ⟨rfl, .inr fun k hk => FrameParser.read_pbuf_of_feed (.inl hfeed) hk, fun k => ⟨rfl, rfl⟩⟩
  · rw [State.answer_terminate]
    exact ⟨rfl, .inl rfl, fun k => ⟨rfl, rfl⟩⟩
  · exact ⟨rfl, .inr fun k hk => FrameParser.read_pbuf_of_feed (.inr hfeed) hk, fun k => ⟨rfl, rfl⟩⟩

theorem execReset_frame (h : execReset s = .next t) :
    t = { s with parser := t.parser, answers := t.answers } ∧
      ∀ i : Nat, t.byteAt .inBuf i = s.byteAt .inBuf i ∧ t.byteAt .outBuf i = s.byteAt .outBuf i := by
  obtain ⟨-, rfl⟩ := execReset_next h
  exact ⟨rfl, fun k => ⟨rfl, rfl⟩⟩

/-- Settles O34: the terminal errors release `pbuf`; every other result of `FEED` stores at most one byte. -/
theorem parserPrimitivesFrame : Obligations.ParserPrimitivesFrame := by
  unfold Obligations.ParserPrimitivesFrame
  exact fun b s t => ⟨execFeed_frame, execReset_frame⟩

/-! The encoder. -/

/-- The first step of an enqueue operation writes the record of its agent and at most one byte of `OUT`. -/
def State.EnqueueFirst (s t : State) : Prop :=
  ∃ (u : State) (e : EnqRecord), t = u.setEnq s.issuer (some e) ∧
    (u = s ∨ ∃ b, s.pushOn .outbound b = .ok (some u))

theorem execEncodeAndEnqueue_first {fc : Byte} {len : Half} {payload : List Byte}
    (h : execEncodeAndEnqueue fc len payload s = .next t) : s.EnqueueFirst t := by
  obtain ⟨-, -, -, hstep⟩ := execEncodeAndEnqueue_next h
  obtain ⟨hlen, -⟩ | ⟨b, -, -, rfl⟩ | ⟨b, u, -, hpush, rfl⟩ := encodeStep_next hstep
  · rw [frameBytes_length] at hlen
    omega
  · exact ⟨s, _, rfl, .inl rfl⟩
  · exact ⟨u, _, rfl, .inr ⟨b, hpush⟩⟩

theorem execEnqueueByte_first {b : Byte} (h : execEnqueueByte b s = .next t) : s.EnqueueFirst t := by
  obtain ⟨-, ⟨-, rfl⟩ | ⟨u, hpush, rfl⟩⟩ := execEnqueueByte_next h
  · exact ⟨s, _, rfl, .inl rfl⟩
  · exact ⟨u, _, rfl, .inr ⟨b, hpush⟩⟩

theorem State.setEnq_frame (u : State) (a : Agent) (e : Option EnqRecord) : u.setEnq a e = { u with
    pollFlight := (u.setEnq a e).pollFlight, cbFlight := (u.setEnq a e).cbFlight } := by
  unfold State.setEnq
  split <;> rfl

theorem State.EnqueueFirst.frame (h : s.EnqueueFirst t) :
    t = { s with outbound := t.outbound, pollFlight := t.pollFlight, cbFlight := t.cbFlight } ∧
      t.outbound.rd = s.outbound.rd ∧
      ∀ (m : MemId) (k : Nat), ¬ (m = .outBuf ∧ k = s.outbound.wr.toNat) → t.byteAt m k = s.byteAt m k := by
  obtain ⟨u, e, rfl, hu⟩ := h
  have hbyte : ∀ (m : MemId) (k : Nat), (u.setEnq s.issuer (some e)).byteAt m k = u.byteAt m k :=
    State.byteAt_eq (by simp) (by simp) (by simp)
  obtain rfl | ⟨b, hpush⟩ := hu
  · refine ⟨?_, by simp, fun m k _ => hbyte m k⟩
    rw [State.setEnq_outbound]
    exact State.setEnq_frame ..
  · obtain ⟨r, hring, rfl⟩ := State.push_of_pushOn hpush
    refine ⟨?_, ?_, fun m k hk => (hbyte m k).trans (State.byteAt_push hring hk)⟩
    · rw [State.setEnq_outbound]
      exact State.setEnq_frame ..
    · rw [State.setEnq_outbound]
      exact Ring.push_rd hring

/-- Settles O43: both operations push at most one byte before they write their record. -/
theorem encoderFrame : Obligations.EncoderFrame := by
  unfold Obligations.EncoderFrame
  rintro i s t (⟨fc, len, payload, rfl⟩ | ⟨b, rfl⟩) h
  · exact (execEncodeAndEnqueue_first h).frame
  · exact (execEnqueueByte_first h).frame

/-! The supervisor. -/

/-- Settles O51, operation by operation; `TICK` in its three outcomes. -/
theorem supervisorFrame : Obligations.SupervisorFrame := by
  unfold Obligations.SupervisorFrame
  intro i s t hi h
  suffices hframe :
      t = { s with sup := t.sup, parser := t.parser, trace := t.trace, answers := t.answers } ∧
        (t.parser = s.parser ∨ i = .tick ∧ t.parser = FrameParser.initial) by
    obtain ⟨ht, hparser⟩ := hframe
    refine ⟨ht, hparser, fun k => ?_⟩
    rw [ht]
    exact ⟨rfl, rfl⟩
  obtain ⟨n, rfl⟩ | rfl | rfl | rfl | rfl := hi
  · obtain ⟨-, rfl⟩ := execEnable_next h
    exact ⟨rfl, .inl rfl⟩
  · obtain ⟨-, rfl⟩ := execDisable_next h
    rw [State.disarm_eq]
    exact ⟨rfl, .inl rfl⟩
  · obtain ⟨-, rfl⟩ := execTick_next h
    obtain ⟨-, heq⟩ | ⟨-, -, -, heq⟩ | ⟨-, -, -, heq⟩ := countTick_cases s
    · rw [heq]
      exact ⟨rfl, .inl rfl⟩
    · rw [heq]
      exact ⟨rfl, .inl rfl⟩
    · rw [heq]
      exact ⟨rfl, .inr ⟨rfl, rfl⟩⟩
  · obtain ⟨-, rfl⟩ := execOnFrameStart_next h
    rw [State.frameStart_eq]
    exact ⟨rfl, .inl rfl⟩
  · obtain ⟨-, rfl⟩ := execSupStop_next h
    rw [State.supStop_eq]
    exact ⟨rfl, .inl rfl⟩

/-! The bridge. -/

/-- 44_io_bridge.md R188: the first line of `ON_BYTE_RECEIVED` writes the timer's registers alone. -/
theorem State.noteArrival_frame (s : State) : s.noteArrival = { s with
    sup := { s.sup with running := s.noteArrival.sup.running, tickCount := s.noteArrival.sup.tickCount }
    trace := s.noteArrival.trace } := by
  unfold State.noteArrival
  split
  · rw [State.frameStart_eq]
  · rfl

theorem execOnByteReceived_frame {b : Byte} (h : execOnByteReceived b s = .next t) :
    t = { s with
      inbound := t.inbound
      sup := { s.sup with running := t.sup.running, tickCount := t.sup.tickCount }
      trace := t.trace, answers := t.answers } ∧
    t.inbound.rd = s.inbound.rd ∧
    ∀ (m : MemId) (k : Nat), ¬ (m = .inBuf ∧ k = s.inbound.wr.toNat) → t.byteAt m k = s.byteAt m k := by
  have hbyte : ∀ (m : MemId) (k : Nat), s.noteArrival.byteAt m k = s.byteAt m k :=
    State.byteAt_eq (by simp) (by simp) (by simp)
  obtain ⟨-, ⟨-, rfl⟩ | ⟨u, hpush, rfl⟩⟩ := execOnByteReceived_next h
  · refine ⟨?_, by simp, fun m k _ => hbyte m k⟩
    rw [State.noteArrival_frame]
    rfl
  · obtain ⟨r, hring, rfl⟩ := State.push_of_pushOn hpush
    refine ⟨?_, (Ring.push_rd hring).trans (by simp), fun m k hk => ?_⟩
    · rw [State.noteArrival_frame]
      rfl
    · have hother : ¬ (m = bufMem .inbound ∧ k = (s.noteArrival.ring .inbound).wr.toNat) := by
        simpa [bufMem] using hk
      exact (State.byteAt_push hring hother).trans (hbyte m k)

theorem execOnTransmitReady_frame (h : execOnTransmitReady s = .next t) :
    t = { s with
      outbound := t.outbound, bridge := { s.bridge with txIntEn := t.bridge.txIntEn }
      trace := t.trace, answers := t.answers } ∧
    t.outbound.wr = s.outbound.wr ∧ ∀ (m : MemId) (k : Nat), t.byteAt m k = s.byteAt m k := by
  obtain ⟨-, -, ⟨-, rfl⟩ | ⟨b, u, hpop, rfl⟩⟩ := execOnTransmitReady_next h
  · exact ⟨rfl, rfl, fun m k => rfl⟩
  · obtain ⟨r, hring, rfl⟩ := State.pop_of_popOn hpop
    obtain ⟨hwr, hbuf⟩ := Ring.pop_frame hring
    exact ⟨rfl, hwr, State.byteAt_setRing_of_buf hbuf⟩

theorem execProcessStep_frame (h : execProcessStep s = .next t) :
    t = { s with inbound := t.inbound, pollFlight := t.pollFlight, answers := t.answers } ∧
      t.inbound.wr = s.inbound.wr ∧ ∀ (m : MemId) (k : Nat), t.byteAt m k = s.byteAt m k := by
  obtain ⟨-, ⟨-, rfl⟩ | ⟨b, u, hpop, rfl⟩⟩ := execProcessStep_next h
  · exact ⟨rfl, rfl, fun m k => rfl⟩
  · obtain ⟨r, hring, rfl⟩ := State.pop_of_popOn hpop
    obtain ⟨hwr, hbuf⟩ := Ring.pop_frame hring
    exact ⟨rfl, hwr, State.byteAt_setRing_of_buf hbuf⟩

/-- Settles O57, by the frame of each operation. -/
theorem bridgeFrame : Obligations.BridgeFrame := by
  unfold Obligations.BridgeFrame
  exact fun b s t => ⟨execOnByteReceived_frame, execOnTransmitReady_frame, execProcessStep_frame⟩

end Sys2Proof.Machine
end

section
/-! PROOFS. The steps of `FEED` in the payload, of `PROCESS_STEP`, of the callback's return and of
`ENCODE_AND_ENQUEUE`, one by one, and the obligations that state them. -/

namespace Sys2Proof.Machine

variable {s : State}

/-- Settles O31: the branch of the payload, of a cursor inside `pbuf`. -/
theorem feedPayloadByte : Obligations.FeedPayloadByte := by
  unfold Obligations.FeedPayloadByte
  exact fun b s h hst hcursor => exec_feed_inProgress h (FrameParser.feed_awaitPayload b hst hcursor)

/-! `PROCESS_STEP` and the callback. -/

theorem exec_processStep_empty (h : s.PollMayIssue) (hempty : nextIndex s.cfg.capIn s.inbound.rd = s.inbound.wr) :
    exec .processStep s = .next (s.answer .poll .fifoEmpty 0#32) := by
  have hpop : s.popOn .inbound = .ok none := State.popOn_eq_none_iff.2 hempty
  change execProcessStep s = _
  rw [execProcessStep, guarded_pollGate h, hpop]

theorem exec_processStep_ok {b : Byte} (h : s.PollMayIssue)
    (hne : nextIndex s.cfg.capIn s.inbound.rd ≠ s.inbound.wr)
    (hread : s.inbound.buf.read (nextIndex s.cfg.capIn s.inbound.rd).toNat = some b) :
    exec .processStep s = .next { s with
      inbound := { s.inbound with rd := nextIndex s.cfg.capIn s.inbound.rd }
      pollFlight := some (.popped b) } := by
  have ⟨hvalid, _⟩ := h
  obtain ⟨hcap, -⟩ := Config.valid_iff.1 hvalid
  have hlt := nextIndex_lt s.cfg.capIn s.inbound.rd (by omega)
  have hpop : s.popOn .inbound = .ok (some (b,
      { s with inbound := { s.inbound with rd := nextIndex s.cfg.capIn s.inbound.rd } })) :=
    State.popOn_eq_some_iff.2 ⟨hne, hlt, hread, rfl⟩
  change execProcessStep s = _
  rw [execProcessStep, guarded_pollGate h, hpop]

/-- Settles O54: behind the gate of the poll context the empty test of `IN` decides. -/
theorem processStepPops : Obligations.ProcessStepPops := by
  unfold Obligations.ProcessStepPops
  exact ⟨decode_processStepCode, fun s h => ⟨exec_processStep_empty h, fun b => exec_processStep_ok h⟩⟩

theorem resumePoll_popped {b : Byte} (hvalid : s.cfg.valid = true) (hflight : s.pollFlight = some (.popped b)) :
    resumePoll s = s.finishFeed .inCallback .poll (s.parser.feed b) := by
  rw [resumePoll, flightGate_eq_none_iff.2 hvalid, guarded_none, hflight]
  rfl

/-- Settles O55, by what the parser finds in the popped byte. -/
theorem processStepFeeds : Obligations.ProcessStepFeeds := by
  unfold Obligations.ProcessStepFeeds
  intro b s hvalid hflight
  rw [resumePoll_popped hvalid hflight]
  refine ⟨fun p hfeed => ?_, fun p hfeed => ?_, fun p hfeed => ?_, fun p hfeed => ?_⟩
  · rw [hfeed, State.finishFeed, State.answer]
  · rw [hfeed, State.finishFeed, State.answer_terminate]
  · rw [hfeed, State.finishFeed, State.answer_terminate]
  · obtain ⟨-, -, rfl⟩ := FrameParser.feed_crcMatch hfeed
    rw [hfeed, State.finishFeed]
    exact ⟨rfl, rfl⟩

/-- The two records that wait for the callback belong to two agents. -/
theorem State.callbackOwner_eq (h : waitsForCallback s.pollFlight) :
    s.callbackOwner = if s.pollFlight = some .inCallback then .poll else .component := by
  obtain h | h := h <;> simp [State.callbackOwner, h]

/-- Settles O56: behind the gate of the return, `TERMINATE` and the answer to the operation that waits. -/
theorem callbackReturnEndsFrame : Obligations.CallbackReturnEndsFrame := by
  unfold Obligations.CallbackReturnEndsFrame
  intro r s hvalid hcb hwaits
  rw [callbackReturn, returnGate_eq_none_iff.2 ⟨hvalid, hwaits, hcb⟩, guarded_none, State.finishCallback,
    State.answer_terminate, State.callbackOwner_eq hwaits]

/-! `ENCODE_AND_ENQUEUE`. -/

section

variable (a : Agent) {i : Nat} {bytes : List Byte}

/-- 42_frame_encoder.md R154: past the last byte the operation ends. -/
theorem encodeStep_done (hi : bytes.length ≤ i) : encodeStep a i bytes s = .next (s.finishEnq a .ok) := by
  rw [encodeStep, List.getElem?_eq_none hi]

section

variable {b : Byte} (hb : bytes[i]? = some b)
include hb

/-- 42_frame_encoder.md R153: the first `Full` is remembered. -/
theorem encodeStep_full (hfull : s.outbound.wr = s.outbound.rd) :
    encodeStep a i bytes s = .next (s.setEnq a (some (.encode i bytes true))) := by
  have hpush : s.pushOn .outbound b = .ok none := State.pushOn_eq_none_iff.2 hfull
  simp only [encodeStep, hb, hpush]

theorem encodeStep_push {r : Ring} (hpush : s.outbound.push .outBuf s.cfg.capOut b = .ok (some r)) :
    encodeStep a i bytes s =
      .next (State.setEnq a (some (.encode (i + 1) bytes false)) { s with outbound := r }) := by
  obtain ⟨hne, hlt, rfl⟩ := Ring.push_eq_some_iff.1 hpush
  have hstate : s.pushOn .outbound b = .ok (some _) := State.pushOn_eq_some_iff.2 ⟨hne, hlt, rfl⟩
  simp only [encodeStep, hb, hstate]
  rfl

/-- 42_frame_encoder.md R152: one push a step. -/
theorem encodeStep_ok (hne : s.outbound.wr ≠ s.outbound.rd) (hw : s.outbound.wr.toNat < s.cfg.capOut.toNat) :
    encodeStep a i bytes s = .next (State.setEnq a (some (.encode (i + 1) bytes false))
      { s with outbound :=
        { rd := s.outbound.rd
          wr := nextIndex s.cfg.capOut s.outbound.wr
          buf := s.outbound.buf.write s.outbound.wr.toNat b } }) :=
  encodeStep_push a hb (Ring.push_eq_some_iff.2 ⟨hne, hw, rfl⟩)

end

end

theorem exec_encodeAndEnqueue_of_mayIssue {fc : Byte} {len : Half} {payload : List Byte} (h : s.EnqueueMayIssue)
    (hfits : len.toNat ≤ 65532) (hlen : payload.length = len.toNat) :
    exec (.encodeAndEnqueue fc len payload) s = encodeStep s.issuer 0 (frameBytes fc payload) s := by
  change execEncodeAndEnqueue fc len payload s = _
  rw [execEncodeAndEnqueue, guarded_enqueueGate h, if_neg (mt lenFits_eq_false_iff.1 (Nat.not_lt.2 hfits)),
    if_neg (mt lenMatches_eq_false_iff.1 (not_not.2 hlen))]

/-- Settles O39: behind the gate and the operand checks, the first step of the loop, whose byte is the low byte of
the ByteCount. -/
theorem encodePushesFirstByte : Obligations.EncodePushesFirstByte := by
  unfold Obligations.EncodePushesFirstByte
  refine ⟨decode_encodeAndEnqueueCode, fun fc len payload s h hfits hlen => ?_⟩
  have hfirst : (frameBytes fc payload)[0]? = some (lowByte (byteCountOf payload.length)) := rfl
  rw [exec_encodeAndEnqueue_of_mayIssue h hfits hlen]
  exact ⟨encodeStep_full _ hfirst, fun hne hw => ⟨_, hfirst, encodeStep_ok _ hfirst hne hw⟩⟩

/-- Settles O40: a remembered failure and the end of the frame end the operation; otherwise one more step of the
loop. -/
theorem encodeLaterSteps : Obligations.EncodeLaterSteps := by
  unfold Obligations.EncodeLaterSteps
  intro a i bytes failed s hvalid hflight
  rw [resume_eq_resumeEnq hvalid hflight]
  dsimp only [resumeEnq]
  cases failed with
  | false =>
    refine ⟨fun hend => ?_, fun b _ hb => encodeStep_full a hb, fun b _ hb => encodeStep_ok a hb⟩
    rw [if_neg (by decide), encodeStep_done a (hend.resolve_left (by decide)), State.finishEnq_eq]
    rfl
  | true =>
    refine ⟨fun _ => ?_, fun b hfailed => absurd hfailed (by decide), fun b hfailed => absurd hfailed (by decide)⟩
    rw [if_pos rfl, State.finishEnq_eq]
    rfl

/-! `ENCODE_AND_ENQUEUE` as a whole, with no step between. -/

/-- The poll context's record of a frame resumes the loop at its next byte. -/
theorem resumePoll_encode {i : Nat} {bytes : List Byte} (hvalid : s.cfg.valid = true)
    (hflight : s.pollFlight = some (.enq (.encode i bytes false))) :
    resumePoll s = encodeStep .poll i bytes s := by
  rw [resumePoll, flightGate_eq_none_iff.2 hvalid, guarded_none, hflight]
  rfl

theorem resumePollTimes_succ {t : State} (h : resumePoll s = .next t) (n : Nat) :
    resumePollTimes (n + 1) s = resumePollTimes n t := by
  rw [resumePollTimes, h]

/-- The state in which the poll context's `ENCODE_AND_ENQUEUE` waits to push byte `i`, with `OUT` at `r`. -/
def State.encodeAt (s : State) (i : Nat) (bytes : List Byte) (r : Ring) : State := { s with
  outbound := r
  pollFlight := some (.enq (.encode i bytes false)) }

/-- The state in which the poll context's `ENCODE_AND_ENQUEUE` ends with `Ok` and `OUT` is `r`. -/
def State.encodeEnd (s : State) (r : Ring) : State := { s with
  outbound := r
  bridge := { s.bridge with txIntEn := true }
  pollFlight := none
  trace := s.trace ++ [.txIntEnable]
  answers := s.answers ++ [⟨.poll, .ok, 0#32⟩] }

/-- 42_frame_encoder.md R157: from byte `i` on, with room for the rest of the frame, each step pushes one byte and the
step after the last byte ends the operation. By induction on the bytes that are left. -/
theorem encodeStep_runs {bytes : List Byte} (n : Nat) {i : Nat} (hn : i + n = bytes.length)
    (hvalid : s.cfg.valid = true) (hout : s.outbound.Inv s.cfg.capOut)
    (hfit : s.outbound.live s.cfg.capOut + n ≤ s.cfg.capOut.toNat - 1) :
    ∃ t r, encodeStep .poll i bytes s = .next t ∧ resumePollTimes n t = .next (s.encodeEnd r) ∧
      r.contents s.cfg.capOut = s.outbound.contents s.cfg.capOut ++ bytes.drop i := by
  induction n generalizing i s with
  | zero =>
    refine ⟨s.encodeEnd s.outbound, s.outbound, ?_, rfl, ?_⟩
    · rw [encodeStep_done .poll (by omega), State.finishEnq_eq]
      rfl
    · rw [List.drop_of_length_le (by omega), List.append_nil]
  | succ n ih =>
    have hi : i < bytes.length := by omega
    obtain ⟨g, hpush, hinv, -, hlive, hcontents⟩ :=
      Ring.exists_push_of_live_lt .outBuf bytes[i] hout (by omega)
    obtain ⟨t, r, hstep, hrun, hr⟩ := ih (s := s.encodeAt (i + 1) bytes g) (i := i + 1) (by omega) hvalid hinv
      (by change g.live s.cfg.capOut + n ≤ s.cfg.capOut.toNat - 1; omega)
    have hresume : resumePoll (s.encodeAt (i + 1) bytes g) = .next t :=
      (resumePoll_encode (s := s.encodeAt (i + 1) bytes g) hvalid rfl).trans hstep
    refine ⟨s.encodeAt (i + 1) bytes g, r, encodeStep_push .poll (List.getElem?_eq_getElem hi) hpush,
      (resumePollTimes_succ hresume n).trans hrun, hr.trans ?_⟩
    change g.contents s.cfg.capOut ++ _ = _
    rw [hcontents, List.append_assoc, List.singleton_append, List.getElem_cons_drop]

/-- Settles O41: the first step is the loop at byte 0, and `L + 5` bytes follow. -/
theorem encodeQueuesWholeFrame : Obligations.EncodeQueuesWholeFrame := by
  unfold Obligations.EncodeQueuesWholeFrame
  intro fc len payload s h hout hfits hlen hroom
  have ⟨hvalid, hissuer, _, hflight⟩ := h
  have ⟨hr, _⟩ := hout
  have hmax := Ring.live_lt (c := s.cfg.capOut) (f := s.outbound) (by omega)
  obtain ⟨t, r, hstep, hrun, hcontents⟩ := encodeStep_runs (bytes := frameBytes fc payload) (payload.length + 5)
    (i := 0) (by rw [frameBytes_length, Nat.zero_add]) hvalid hout (by omega)
  refine ⟨t, s.encodeEnd r, ?_, hrun, hcontents, ?_⟩
  · rw [exec_encodeAndEnqueue_of_mayIssue (.inl h) hfits hlen, hissuer, hstep]
  · rw [State.encodeEnd, hflight]

end Sys2Proof.Machine
end

section
/-! PROOFS. A whole frame through the parser, byte by byte from the reset parser, and the obligations that state it
(41_frame_parser.md R141, R142). -/

namespace Sys2Proof.Machine

variable {p q : FrameParser}

theorem FrameParser.feedAll_cons {b : Byte} (h : p.feed b = .inProgress q) (bs : List Byte) :
    p.feedAll (b :: bs) = q.feedAll bs := by
  rw [FrameParser.feedAll, h]

theorem FrameParser.feedAll_append {xs ys : List Byte} (h : p.feedAll xs = some q) :
    p.feedAll (xs ++ ys) = q.feedAll ys := by
  induction xs generalizing p with
  | nil =>
    cases h
    rfl
  | cons b bs ih =>
    cases hfeed : p.feed b with
    | inProgress r =>
      rw [FrameParser.feedAll_cons hfeed] at h
      rw [List.cons_append, FrameParser.feedAll_cons hfeed, ih h]
    | byteCountError | crcError | crcMatch | fault | inComplete => simp [FrameParser.feedAll, hfeed] at h

/-- The parser has taken the ByteCount, the function code and the whole payload of a frame. -/
structure FrameParser.HasTaken (q : FrameParser) (count : Half) (fc : Byte) (payload : List Byte) : Prop where
  inv : q.Inv
  st : q.st = .awaitCrcLow
  funcCode : q.funcCode = fc
  payloadLen : q.payloadLen = payloadLenOf count
  stored : q.pbuf.map Prod.snd = payload

/-- 41_frame_parser.md R129: a payload byte is appended to what `pbuf` holds, and the last one ends the payload. -/
theorem FrameParser.feed_payload_snoc (b : Byte) (hinv : p.Inv) (hst : p.st = .awaitPayload) :
    ∃ q, p.feed b = .inProgress q ∧ q.Inv ∧ q.cursor.toNat = p.cursor.toNat + 1 ∧ q.funcCode = p.funcCode ∧
      q.payloadLen = p.payloadLen ∧ q.pbuf.map Prod.snd = p.pbuf.map Prod.snd ++ [b] ∧
      q.st = if q.cursor.toNat = p.payloadLen.toNat then .awaitCrcLow else .awaitPayload := by
  have ⟨_, _, hpayload, _⟩ := hinv
  obtain ⟨-, hbelow⟩ := hpayload hst
  have hmax := p.payloadLen.isLt
  have hnext : (p.cursor + 1#16).toNat = p.cursor.toNat + 1 := by
    rw [BitVec.toNat_add, BitVec.toNat_ofNat, Nat.mod_eq_of_lt (by omega)]
  have hfeed : p.feed b = p.feedPayload b := by simp only [FrameParser.feed, hst]
  rw [FrameParser.feedPayload_eq hinv hst b] at hfeed
  exact ⟨_, hfeed, FrameParser.feed_inv hinv (.inl hfeed), hnext, rfl, rfl, List.map_append,
    if_congr BitVec.toNat_inj.symm rfl rfl⟩

/-- 41_frame_parser.md R129: in `AwaitPayload` exactly the bytes that are missing are taken, in order. By induction on
these bytes. -/
theorem FrameParser.feedAll_payload {bytes : List Byte} {count : Half} (hinv : p.Inv) (hst : p.st = .awaitPayload)
    (hcount : p.payloadLen = payloadLenOf count)
    (hlen : p.cursor.toNat + bytes.length = p.payloadLen.toNat) :
    ∃ q, p.feedAll bytes = some q ∧ q.HasTaken count p.funcCode (p.pbuf.map Prod.snd ++ bytes) := by
  induction bytes generalizing p with
  | nil =>
    obtain ⟨-, -, hpayload, -⟩ := hinv
    obtain ⟨-, hbelow⟩ := hpayload hst
    rw [List.length_nil] at hlen
    omega
  | cons b bs ih =>
    obtain ⟨r, hfeed, hrinv, hcursor, hfc, hplen, hpbuf, hrst⟩ := FrameParser.feed_payload_snoc b hinv hst
    rw [List.length_cons] at hlen
    rw [FrameParser.feedAll_cons hfeed]
    by_cases hend : r.cursor.toNat = p.payloadLen.toNat
    · have hnil : bs = [] := List.length_eq_zero_iff.1 (by omega)
      rw [if_pos hend] at hrst
      subst hnil
      exact ⟨r, rfl, hrinv, hrst, hfc, hplen.trans hcount, hpbuf⟩
    · rw [if_neg hend] at hrst
      obtain ⟨q, hrun, htaken⟩ := ih hrinv hrst (hplen.trans hcount) (by rw [hplen]; omega)
      rw [hpbuf, hfc, List.append_assoc, List.singleton_append] at htaken
      exact ⟨q, hrun, htaken⟩

/-- 41_frame_parser.md R124 to R129: from the reset parser the ByteCount, the function code and as many bytes as the
ByteCount calls for; an empty payload is skipped. -/
theorem FrameParser.feedAll_frame {lo hi fc : Byte} {payload : List Byte} (hcount : joinBytes hi lo ≠ 0#16)
    (hlen : payload.length = (payloadLenOf (joinBytes hi lo)).toNat) :
    ∃ q, FrameParser.initial.feedAll ([lo, hi, fc] ++ payload) = some q ∧
      q.HasTaken (joinBytes hi lo) fc payload := by
  have hlow := FrameParser.feed_awaitCountLow (p := FrameParser.initial) lo rfl
  have hlowInv := FrameParser.feed_inv FrameParser.initial_inv (.inl hlow)
  have hhigh := FrameParser.feed_awaitCountHigh_ne_zero
    (p := { FrameParser.initial with countLo := lo, st := .awaitCountHigh }) hi rfl hcount
  have hhighInv := FrameParser.feed_inv hlowInv (.inl hhigh)
  rw [List.cons_append, List.cons_append, List.cons_append, List.nil_append, FrameParser.feedAll_cons hlow,
    FrameParser.feedAll_cons hhigh]
  by_cases hempty : payloadLenOf (joinBytes hi lo) = 0#16
  · have hcode := FrameParser.feed_awaitFuncCode_empty (p := { FrameParser.initial with
      countLo := lo, count := joinBytes hi lo, payloadLen := payloadLenOf (joinBytes hi lo), st := .awaitFuncCode })
      fc rfl hempty
    have hnil : payload = [] := List.length_eq_zero_iff.1 (by rw [hlen, hempty]; rfl)
    subst hnil
    exact ⟨_, FrameParser.feedAll_cons hcode _, FrameParser.feed_inv hhighInv (.inl hcode), rfl, rfl, rfl, rfl⟩
  · have hcode := FrameParser.feed_awaitFuncCode_nonempty (p := { FrameParser.initial with
      countLo := lo, count := joinBytes hi lo, payloadLen := payloadLenOf (joinBytes hi lo), st := .awaitFuncCode })
      fc rfl hempty
    obtain ⟨q, hrun, htaken⟩ := FrameParser.feedAll_payload (bytes := payload)
      (FrameParser.feed_inv hhighInv (.inl hcode)) rfl rfl ((Nat.zero_add _).trans hlen)
    exact ⟨q, (FrameParser.feedAll_cons hcode _).trans hrun, htaken⟩

/-- The parser then awaits the second CRC byte, and its accumulator is the CRC of the function code and the payload
(41_frame_parser.md R123, R130). -/
structure FrameParser.AwaitsLast (q : FrameParser) (count : Half) (fc : Byte) (payload : List Byte) (c0 : Byte) :
    Prop where
  inv : q.Inv
  st : q.st = .awaitCrcHigh
  funcCode : q.funcCode = fc
  payloadLen : q.payloadLen = payloadLenOf count
  stored : q.pbuf.map Prod.snd = payload
  crcInLo : q.crcInLo = c0
  crcAcc : q.crcAcc = crc16 (fc :: payload)

theorem FrameParser.feedAll_body {lo hi fc : Byte} {payload : List Byte} (c0 : Byte) (hcount : joinBytes hi lo ≠ 0#16)
    (hlen : payload.length = (payloadLenOf (joinBytes hi lo)).toNat) :
    ∃ q, FrameParser.initial.feedAll ([lo, hi, fc] ++ payload ++ [c0]) = some q ∧
      q.AwaitsLast (joinBytes hi lo) fc payload c0 := by
  obtain ⟨r, hrun, hinv, hst, hfc, hplen, hpayload⟩ := FrameParser.feedAll_frame (fc := fc) hcount hlen
  have hfeed := FrameParser.feed_awaitCrcLow c0 hst
  have hcrc : r.crcAcc = crc16 (fc :: payload) := by
    obtain ⟨-, -, -, -, -, hacc, -⟩ := hinv
    rw [← hfc, ← hpayload]
    exact hacc (by simp [hst])
  exact ⟨_, (FrameParser.feedAll_append hrun).trans (FrameParser.feedAll_cons hfeed []),
    FrameParser.feed_inv hinv (.inl hfeed), rfl, hfc, hplen, hpayload, rfl, hcrc⟩

section

variable {count : Half} {fc c0 c1 : Byte} {payload : List Byte} (h : q.AwaitsLast count fc payload c0)
include h

theorem FrameParser.AwaitsLast.feed_match (hcrc : joinBytes c1 c0 = crc16 (fc :: payload)) :
    q.feed c1 = .crcMatch { q with crcIn := joinBytes c1 c0, st := .complete } := by
  rw [← h.crcInLo, ← h.crcAcc] at hcrc
  rw [FrameParser.feed_awaitCrcHigh_eq c1 h.st hcrc, h.crcInLo]

theorem FrameParser.AwaitsLast.feed_mismatch (hcrc : joinBytes c1 c0 ≠ crc16 (fc :: payload)) :
    q.feed c1 = .crcError { q with crcIn := joinBytes c1 c0 } := by
  rw [← h.crcInLo, ← h.crcAcc] at hcrc
  rw [FrameParser.feed_awaitCrcHigh_ne c1 h.st hcrc, h.crcInLo]

/-- 10_state.md R43: the payload is stored at the indices from 0 up. -/
theorem FrameParser.AwaitsLast.pbuf_eq : q.pbuf = (List.range payload.length).zip payload := by
  have ⟨hindices, _⟩ := h.inv
  have hlen : payload.length = q.cursor.toNat := by
    rw [← h.stored, List.length_map, ← List.length_map (f := Prod.fst), hindices, List.length_range]
  rw [hlen]
  exact List.zip_of_prod hindices h.stored

end

/-- Settles O35: the body of the frame brings the parser to its last byte, which the comparison of the CRCs decides; a
zero ByteCount ends the frame at its second byte. -/
theorem parserMeasuresAndChecksFrames : Obligations.ParserMeasuresAndChecksFrames := by
  unfold Obligations.ParserMeasuresAndChecksFrames
  constructor
  · intro lo hi fc c0 c1 payload hcount hlen
    obtain ⟨q, hrun, hlast⟩ := FrameParser.feedAll_body (fc := fc) c0 hcount hlen
    exact ⟨q, hrun, hlast.st, hlast.funcCode, hlast.payloadLen, hlast.stored, hlast.feed_match, hlast.feed_mismatch⟩
  · exact ⟨_, rfl, FrameParser.feed_awaitCountHigh_zero 0#8 rfl rfl⟩

/-- 30_encoding.md R71, R79: the ByteCount of a payload gives its length back. -/
theorem payloadLenOf_byteCountOf {n : Nat} (hn : n ≤ 65532) : (payloadLenOf (byteCountOf n)).toNat = n := by
  rw [payloadLenOf, BitVec.toNat_sub, byteCountOf_toNat hn, BitVec.toNat_ofNat]
  omega

theorem byteCountOf_ne_zero {n : Nat} (hn : n ≤ 65532) : byteCountOf n ≠ 0#16 := by
  intro h
  have hzero := byteCountOf_toNat hn
  rw [h] at hzero
  rw [BitVec.toNat_zero] at hzero
  omega

/-- Settles O36: the encoder's ByteCount calls for exactly the payload, and its two CRC bytes are the CRC that the
parser has folded. -/
theorem encodeThenParseRoundTrip : Obligations.EncodeThenParseRoundTrip := by
  unfold Obligations.EncodeThenParseRoundTrip
  intro fc payload hmax
  have hjoin := joinBytes_high_low (byteCountOf payload.length)
  obtain ⟨q, hrun, hlast⟩ := FrameParser.feedAll_body (fc := fc) (payload := payload)
    (lo := lowByte (byteCountOf payload.length)) (hi := highByte (byteCountOf payload.length))
    (lowByte (crc16 (fc :: payload))) (by rw [hjoin]; exact byteCountOf_ne_zero hmax)
    (by rw [hjoin, payloadLenOf_byteCountOf hmax])
  refine ⟨_, highByte (crc16 (fc :: payload)), q, _, ?_, hrun, hlast.feed_match (joinBytes_high_low _), rfl,
    hlast.funcCode, ?_, hlast.pbuf_eq⟩
  · rw [frameBytes, List.append_assoc _ [_] [_]]
    rfl
  · rw [hlast.payloadLen, hjoin, payloadLenOf_byteCountOf hmax]

end Sys2Proof.Machine
end

section
/-! PROOFS. A run of ticks with no other step between, and the obligation that states it
(43_timeout_supervisor.md R176). -/

namespace Sys2Proof.Machine

variable {s : State}

theorem tickTimes_succ (h : s.PollMayIssue) (k : Nat) :
    tickTimes (k + 1) s = tickTimes k (s.countTick.answer .poll .ok 0#32) := by
  rw [tickTimes, exec_tick_of_mayIssue h]

/-- The state after `k` ticks have been counted, but for the responses. -/
def State.counted (s : State) (k : Nat) (log : List Answer) : State := { s with
  sup := { s.sup with tickCount := s.sup.tickCount + BitVec.ofNat 32 k }
  answers := log }

/-- The state after the tick that meets the budget, but for the responses. -/
def State.expired (s : State) (log : List Answer) : State := { s with
  sup := { s.sup with tickCount := s.sup.tickBudget, running := false }
  parser := FrameParser.initial
  trace := s.trace ++ [.timerStop]
  answers := log }

section

variable (h : s.PollMayIssue) (harmed : s.sup.armed = true) (hrunning : s.sup.running = true)
include h harmed hrunning

/-- 43_timeout_supervisor.md R170: a tick below the budget is counted, and the count does not wrap. -/
theorem tickTimes_succ_of_lt (hlt : s.sup.tickCount.toNat + 1 < s.sup.tickBudget.toNat) (k : Nat) :
    tickTimes (k + 1) s = tickTimes k (s.counted 1 (s.answers ++ [⟨.poll, .ok, 0#32⟩])) ∧
      (s.sup.tickCount + 1#32).toNat = s.sup.tickCount.toNat + 1 := by
  have hmax := s.sup.tickBudget.isLt
  have hnext : (s.sup.tickCount + 1#32).toNat = s.sup.tickCount.toNat + 1 := by
    rw [BitVec.toNat_add, BitVec.toNat_ofNat, Nat.mod_eq_of_lt (by omega)]
  refine ⟨?_, hnext⟩
  rw [tickTimes_succ h, State.countTick_of_lt harmed hrunning (by omega)]
  rfl

/-- By induction on the ticks: the first is counted, and the others start from there. -/
theorem tickTimes_counted {k : Nat} (hlt : s.sup.tickCount.toNat + k < s.sup.tickBudget.toNat) :
    ∃ log, tickTimes k s = .next (s.counted k log) := by
  induction k generalizing s with
  | zero => exact ⟨s.answers, by simp [tickTimes, State.counted]⟩
  | succ k ih =>
    obtain ⟨hfirst, hnext⟩ := tickTimes_succ_of_lt h harmed hrunning (by omega) k
    obtain ⟨log, hrun⟩ := ih (s := s.counted 1 _) h harmed hrunning
      (by change (s.sup.tickCount + 1#32).toNat + k < s.sup.tickBudget.toNat; omega)
    have hcount : s.sup.tickCount + 1#32 + BitVec.ofNat 32 k = s.sup.tickCount + BitVec.ofNat 32 (k + 1) := by
      rw [BitVec.add_assoc, ← BitVec.ofNat_add, Nat.add_comm 1 k]
    refine ⟨log, (hfirst.trans hrun).trans ?_⟩
    simp only [State.counted, hcount]

/-- By induction on the ticks: the last one meets the budget, every other is counted. -/
theorem tickTimes_expired {k : Nat} (hbudget : s.sup.tickCount.toNat + (k + 1) = s.sup.tickBudget.toNat) :
    ∃ log, tickTimes (k + 1) s = .next (s.expired log) := by
  induction k generalizing s with
  | zero =>
    have hmeet : s.sup.tickCount + 1#32 = s.sup.tickBudget := by
      apply BitVec.eq_of_toNat_eq
      have hmax := s.sup.tickBudget.isLt
      rw [BitVec.toNat_add, BitVec.toNat_ofNat, Nat.mod_eq_of_lt (by omega)]
      exact hbudget
    refine ⟨s.answers ++ [⟨.poll, .ok, 0#32⟩], ?_⟩
    rw [tickTimes_succ h, State.countTick_of_le harmed hrunning (by rw [hmeet]), hmeet]
    rfl
  | succ k ih =>
    obtain ⟨hfirst, hnext⟩ := tickTimes_succ_of_lt h harmed hrunning (by omega) (k + 1)
    obtain ⟨log, hrun⟩ := ih (s := s.counted 1 _) h harmed hrunning
      (by change (s.sup.tickCount + 1#32).toNat + (k + 1) = s.sup.tickBudget.toNat; omega)
    exact ⟨log, hfirst.trans hrun⟩

end

/-- Settles O49: from count 0 the two runs of ticks, up to the budget and to it. -/
theorem timeoutRecovery : Obligations.TimeoutRecovery := by
  unfold Obligations.TimeoutRecovery
  intro s h harmed hrunning hzero
  have hcount : s.sup.tickCount.toNat = 0 := by rw [hzero, BitVec.toNat_zero]
  refine ⟨fun k hk => ?_, fun hpos => ?_⟩
  · obtain ⟨log, hrun⟩ := tickTimes_counted h harmed hrunning (k := k) (by omega)
    refine ⟨_, hrun, rfl, ?_, rfl⟩
    rw [State.counted, hzero, BitVec.zero_add]
  · obtain ⟨k, hk⟩ := Nat.exists_eq_add_of_lt hpos
    rw [Nat.zero_add] at hk
    obtain ⟨log, hrun⟩ := tickTimes_expired h harmed hrunning (k := k) (by omega)
    rw [← hk] at hrun
    exact ⟨_, hrun, rfl, rfl, rfl, rfl⟩

end Sys2Proof.Machine
end
